-- ==== Sys2Proof/Word.lean ====
section
/-!
DEFINITION. The two widths of the hardware: bytes and 16-bit words (00_scope.md R11 `WORD`, `ADDR`, R14).
-/
namespace Sys2Proof

/-- An 8-bit value: a register slot, a memory byte, an immediate, a port number (R11 `WORD`, R14). -/
abbrev Byte := BitVec 8

/-- A 16-bit value: a guest address, `pc`, `sp`, a register pair (R11 `ADDR`, R14). -/
abbrev Addr := BitVec 16

end Sys2Proof
end

