-- ==== Sys2Proof/Config.lean ====
section
/-!
DEFINITION. What a launch fixes for a run: the parameters of 00_scope.md R11, and the free value of `IN`, the
byte a host supplies (what a fault leaves free stands in Machine/State.lean). No parameter is runtime-mutable (R11).
Assumption log 1.
-/
namespace Sys2Proof

/-- `LINE_SIZE` (R11): data bytes of a cache line and of a storage block. -/
abbrev lineSize : Nat := 64

/-- `BANK_BLOCK_SIZE` (R11): bytes of one bank-mapped address block. -/
abbrev bankBlockSize : Nat := 4096

/-- `NBLK` (R11): bank blocks of the guest space. -/
abbrev nblk : Nat := 16

/-- `RESET_REGS` (R11, R104): what reset gives the registers, FLAGS and `sp`. -/
inductive ResetRegs where
  | arbitrary
  | zero
deriving DecidableEq, Repr

/-- `UNDOC_POLICY` (R11, R330): the treatment of the 12 undocumented opcodes. -/
inductive UndocPolicy where
  | fault
  | nop
  | siliconAlias
deriving DecidableEq, Repr

/-- `SUB_CARRY` (R11, R408): the Carry convention of subtract and compare. -/
inductive SubCarry where
  | noBorrow
  | borrow
deriving DecidableEq, Repr

/-- `SBB_BORROW_IN` (R11, R410): how SBB and SBI take the incoming Carry. -/
inductive SbbBorrowIn where
  | flagIsBorrow
  | flagIsCarry
deriving DecidableEq, Repr

/-- `INCDEC_AC` (R11, R620): the auxiliary-carry rule of INR and DCR. -/
inductive IncDecAc where
  | literal0x10
  | lowNibble
  | inrOnly
deriving DecidableEq, Repr

/-- `DAA_SIGN` (R11, R619): whether DAA writes Sign. -/
inductive DaaSign where
  | unchanged
  | fromResult
deriving DecidableEq, Repr

/-- `DAD_CARRY` (R11, R618): the polarity of DAD's Carry. -/
inductive DadCarry where
  | overflow
  | inverted
deriving DecidableEq, Repr

/-- The parameters of R11 that are not fixed numbers. The statements of the package hold for every value of this
record that `Config.valid` admits. -/
structure Config where
  /-- `MAX_ADDR`: the largest guest address backed by memory. -/
  maxAddr : Addr
  /-- `N_LINES`: the number of cache lines. -/
  nLines : Nat
  /-- `BANKS`: the number of memory banks. -/
  banks : Nat
  /-- `STORAGE_OFFSET`: the storage block number of linear block 0. -/
  storageOffset : Nat
  /-- `PORT_MMU_BLOCK`: the port of "select block to address". -/
  portMmuBlock : Byte
  /-- `PORT_MMU_BANK`: the port of "select bank for block". -/
  portMmuBank : Byte
  resetRegs : ResetRegs
  undocPolicy : UndocPolicy
  subCarry : SubCarry
  sbbBorrowIn : SbbBorrowIn
  incDecAc : IncDecAc
  daaSign : DaaSign
  dadCarry : DadCarry
deriving DecidableEq, Repr

/-- R12's constraints on the open parameters (`N_LINES ≥ 1`, `BANKS ≥ 1`) and R1131's (the two bank-select ports are
distinct); R12's constraints on the fixed sizes hold of the numbers above. -/
def Config.valid (k : Config) : Bool :=
  decide (1 ≤ k.nLines) && decide (1 ≤ k.banks) && !(k.portMmuBlock == k.portMmuBank)

/-- The configuration of `State.reset`: every policy at the spec's default (R11), the open parameters at the values of
the spec's own vectors (95_test_vectors.md Part 4 and V-MMU-2). DESIGN CHOICE, assumption log 2. -/
def Config.standard : Config where
  maxAddr := 0xFFFF#16
  nLines := 4
  banks := 2
  storageOffset := 0
  portMmuBlock := 0x10#8
  portMmuBank := 0x11#8
  resetRegs := .arbitrary
  undocPolicy := .fault
  subCarry := .noBorrow
  sbbBorrowIn := .flagIsBorrow
  incDecAc := .literal0x10
  daaSign := .unchanged
  dadCarry := .overflow

/-- FREE VALUE: the byte the host supplies at the `n`-th execution of `IN`, from port `p` (47_io_system.md R1000: "a
byte the host supplies, under no law the core states"). It has no body, so nothing can be proved of it.
Assumption log 7. -/
opaque Config.hostIn (n : Nat) (p : Byte) : Byte

end Sys2Proof
end

