-- ==== Sys2Proof/Machine/State.lean ====
section
/-!
DEFINITION. The state of the machine (10_state.md), the reasons a step can stop (60_exceptions.md R1103), the state
right after reset (70_reset_and_hazards.md R1200, R1201), and the free values of a fault (40_engine.md R411).
-/
namespace Sys2Proof.Machine

/-- A cache line (R124). `tag = none` is the sentinel `empty` (R125). -/
structure Line where
  tag   : Option Nat
  dirty : Bool
  data  : Vector Byte lineSize
deriving DecidableEq, Repr

/-- An empty, clean line. Its bytes are never read before a load fills them (R125): assumption log 4. -/
def Line.empty : Line where
  tag := none
  dirty := false
  data := Vector.replicate lineSize 0

/-- A transfer buffer: the data bytes, then one checksum byte (R126, R240). -/
structure Buffer where
  data  : Vector Byte lineSize
  check : Byte
deriving DecidableEq, Repr

/-- A call of the core on the Storage Backend (R240), as the host hears it (R1140). -/
inductive BackendCall where
  | readBlock (n : Nat)
  | writeBlock (n : Nat) (x : Buffer)
deriving DecidableEq, Repr

/-- What an `IN` or an `OUT` sends the host (R1140). -/
inductive PortEvent where
  | asked (p : Byte)
  | sent (p v : Byte)
deriving DecidableEq, Repr

/-- The memory system: the Cache Subsystem's lines and the Storage Backend's image. -/
structure MemSys where
  /-- `line[0 .. N_LINES-1]`, from the LRU end to the MRU end (R124). -/
  lines : List Line
  /-- The backend image (R126), one cell for each byte of each block's buffer, in canonical form: see
  `Memory.wf` and `cellKey`. -/
  image : List Host.Cell
  /-- The model's own record of the backend calls, oldest first. Assumption log 13. -/
  calls : List BackendCall
deriving DecidableEq, Repr

/-- The whole state (10_state.md), with the launch parameters the step takes as an argument (assumption log 1). -/
structure State where
  /-- B, slot 0 (R100). -/
  b : Byte
  /-- C, slot 1. -/
  c : Byte
  /-- D, slot 2. -/
  d : Byte
  /-- E, slot 3. -/
  e : Byte
  /-- H, slot 4. -/
  h : Byte
  /-- L, slot 5. -/
  l : Byte
  /-- FLAGS, slot 6 (R110, R111). -/
  f : Byte
  /-- A, the accumulator, slot 7 (R102). -/
  a : Byte
  /-- The program counter (R105). -/
  pc : Addr
  /-- The stack pointer (R108). -/
  sp : Addr
  /-- `interruptEnable` (R115). -/
  ie : Bool
  /-- Stop requested (R116). -/
  stop : Bool
  /-- The sticky fatal signal (R117). -/
  fatal : Bool
  /-- The Bank Map (R118). -/
  bank : Vector Nat nblk
  /-- The bank block the bank-select interface has chosen (R119). -/
  mmuBlock : BitVec 4
  /-- Cache and backend (R124, R126). -/
  mem : MemSys
  /-- The model's own record of what `IN` and `OUT` sent the host, oldest first. Assumption log 13. -/
  ports : List PortEvent
  /-- The model's own count of the bytes the host has supplied to `IN`: the index of the next free value of
  `Config.hostIn`. Assumption log 7. -/
  inDraws : Nat
  /-- The launch parameters (R11). -/
  cfg : Config
deriving DecidableEq, Repr

/-- The closed set of fault reasons (R1103). -/
inductive FaultReason where
  | memoryIntegrity
  | illegalOpcode
deriving DecidableEq, Repr

/-- How a step faults, with the state the fault leaves (R411, R1100, R1101): `stop` and `fatal` as the raising rule sets
them, what R411 and R1101 leave unspecified a free value (`Config.leftByFault`), everything else as it stood.
Assumption log 9. -/
inductive Fault where
  /-- A checksum mismatch on a cache line load (R1100). Raised by any access that misses: the fetches of `step`, and
  the data and stack accesses of every instruction that has one. Safe: the spec ends the run here too. -/
  | memoryIntegrity (s : State)
  /-- One of the 12 undocumented opcodes under `UNDOC_POLICY = fault` (R1101). Raised by `execUndoc`. Safe: the spec
  ends the run here too. -/
  | illegalOpcode (s : State)
deriving DecidableEq, Repr

/-- The state a fault leaves. -/
def Fault.state : Fault → State
  | .memoryIntegrity s => s
  | .illegalOpcode s => s

/-- Values for the registers that a fault leaves unspecified (R411). -/
structure Leavings where
  b : Byte
  c : Byte
  d : Byte
  e : Byte
  h : Byte
  l : Byte
  f : Byte
  a : Byte
  pc : Addr
  sp : Addr
  ie : Bool
deriving Inhabited

/-- Choices for what an integrity failure leaves unspecified in the memory system (R411). -/
structure MemLeavings where
  /-- Whether the failing instruction has gone on to read this guest address. -/
  reads : Addr → Bool
  /-- Whether it has gone on to make its store at this guest address. -/
  stores : Addr → Bool
  /-- Where the failed line then stands in the order of the lines. -/
  place : Nat
  /-- The byte at a guest address it could have stored to. -/
  byte : Addr → Byte
  /-- The dirty bit of the line with this tag, where it could have written it. -/
  dirty : Option Nat → Bool
deriving Inhabited

/-- Why the model gives no step. -/
inductive Refusal where
  /-- No meaning yet for the instruction. Raised by an arm of `exec` only. Safe. -/
  | notModelled (mnemonic : String)
  /-- `stop = 1`: the run has ended and there is no step (R400, R414). Raised by `step`. Safe: the spec has no step
  here. -/
  | runEnded
  /-- The launch parameters break R12, which the spec refuses too (R1200), or name one port for both bank-select
  operations, which R1131 rules out and the model refuses by its own choice (assumption log 6). Raised by `launch`.
  Safe. -/
  | badConfiguration
deriving DecidableEq, Repr

/-- The machine right after reset (R1200, R1201) under `Config.standard`, with every register, FLAGS and `sp` zero and
nothing listed in the image. Assumption logs 2, 3, 4 and 5; `launch` gives the reset state of every configuration,
image and draw. -/
def State.reset : State where
  b := 0
  c := 0
  d := 0
  e := 0
  h := 0
  l := 0
  f := 0
  a := 0
  pc := 0
  sp := 0
  ie := false
  stop := false
  fatal := false
  bank := Vector.replicate nblk 0
  mmuBlock := 0
  mem := { lines := List.replicate Config.standard.nLines Line.empty, image := [], calls := [] }
  ports := []
  inDraws := 0
  cfg := Config.standard

end Sys2Proof.Machine

namespace Sys2Proof

/-- FREE VALUE: what a fault raised in a state leaves in the registers that R411 and R1101 leave unspecified. It has no
body, so nothing can be proved of it. Assumption log 9. -/
opaque Config.leftByFault (s : Machine.State) : Machine.Leavings

/-- FREE VALUE: what an integrity failure raised in a state leaves unspecified in the memory system (R411). It has no body
either. Assumption log 12. -/
opaque Config.memLeftByFault (s : Machine.State) : Machine.MemLeavings

end Sys2Proof
end

