-- ==== Sys2Proof/Machine/Flags.lean ====
section
/-!
DEFINITION. The FLAGS byte and every flag computation (10_state.md R110 to R112; 40_engine.md R404 to R410;
42_arithmetic.md R618 to R620; 43_logical_compare.md R715).
-/
namespace Sys2Proof.Machine

/-- Write bit `i` of FLAGS and no other (R409). -/
def flagPut (f : Byte) (i : Nat) (v : Bool) : Byte :=
  if v then f ||| (1#8 <<< i) else f &&& ~~~(1#8 <<< i)

/-- F.S, bit 7 (R110). -/
def flagS (f : Byte) : Bool := f.getLsbD 7

/-- F.Z, bit 6. -/
def flagZ (f : Byte) : Bool := f.getLsbD 6

/-- F.AC, bit 4. -/
def flagAC (f : Byte) : Bool := f.getLsbD 4

/-- F.P, bit 2. -/
def flagP (f : Byte) : Bool := f.getLsbD 2

/-- F.CY, bit 0. -/
def flagCY (f : Byte) : Bool := f.getLsbD 0

def setS (v : Bool) (f : Byte) : Byte := flagPut f 7 v
def setZ (v : Bool) (f : Byte) : Byte := flagPut f 6 v
def setAC (v : Bool) (f : Byte) : Byte := flagPut f 4 v
def setP (v : Bool) (f : Byte) : Byte := flagPut f 2 v
def setCY (v : Bool) (f : Byte) : Byte := flagPut f 0 v

/-- `Parity(r)`: the number of 1 bits is even (R406). -/
def parity (r : Byte) : Bool := ((List.range 8).filter fun i => r.getLsbD i).length % 2 == 0

/-- `SetZSP(r)` (R404). -/
def setZSP (r : Byte) (f : Byte) : Byte := setP (parity r) (setS (r.getLsbD 7) (setZ (r == 0) f))

/-- The results of an adder: the byte, the carry flag and the auxiliary carry flag it gives. -/
structure Sum where
  r  : Byte
  cy : Bool
  ac : Bool
deriving DecidableEq, Repr

/-- `Add8(a, b, cin)` (R407). -/
def add8 (a b : Byte) (cin : Bool) : Sum :=
  let sum9 := a.toNat + b.toNat + cin.toNat
  { r := BitVec.ofNat 8 sum9
    cy := decide (sum9 > 0xFF)
    ac := decide ((a &&& 0x0F).toNat + (b &&& 0x0F).toNat + cin.toNat > 0x0F) }

/-- `Sub8(a, b, cin)`, under each `SUB_CARRY` (R408). -/
def sub8 (k : SubCarry) (a b : Byte) (cin : Bool) : Sum :=
  let nb := b ^^^ 0xFF
  let sum9 := a.toNat + nb.toNat + cin.toNat
  let c := decide (sum9 > 0xFF)
  { r := BitVec.ofNat 8 sum9
    cy := match k with
      | .noBorrow => c
      | .borrow => !c
    ac := decide ((a &&& 0x0F).toNat + (nb &&& 0x0F).toNat + cin.toNat > 0x0F) }

/-- `SbbCin()`, from the incoming Carry, under each `SBB_BORROW_IN` (R410). -/
def sbbCin (k : SbbBorrowIn) (cy : Bool) : Bool :=
  match k with
  | .flagIsBorrow => !cy
  | .flagIsCarry => cy

/-- The flags an add, subtract or compare writes: S, Z, P from the result, CY and AC from the adder (R600, R606,
R716). -/
def sumFlags (x : Sum) (f : Byte) : Byte := setAC x.ac (setCY x.cy (setZSP x.r f))

/-- The flags a logical operation writes: S, Z, P from the result, CY cleared, AC as given (R715). -/
def logicFlags (r : Byte) (ac : Bool) (f : Byte) : Byte := setAC ac (setCY false (setZSP r f))

/-- The auxiliary carry of INR (R620, `kind = inc`). -/
def incAC (k : IncDecAc) (old new : Byte) : Bool :=
  match k with
  | .literal0x10 => new == 0x10
  | .lowNibble => (new &&& 0x0F) == 0x00
  | .inrOnly => old == 0x0F && new == 0x10

/-- The auxiliary carry of DCR (R620, `kind = dec`). -/
def decAC (k : IncDecAc) (new : Byte) : Bool :=
  match k with
  | .literal0x10 => new == 0x10
  | .lowNibble => !((new &&& 0x0F) == 0x0F)
  | .inrOnly => false

/-- The flags INR and DCR write: S, Z, P from the result and AC; CY is not touched (R612). -/
def stepFlags (new : Byte) (ac : Bool) (f : Byte) : Byte := setAC ac (setZSP new f)

/-- DAD's Carry, under each `DAD_CARRY` (R618): "whether the 16-bit sum is smaller than either 16-bit operand". -/
def dadCY (k : DadCarry) (x v : Addr) : Bool :=
  let s16 := x + v
  let ovf := decide (s16 < x) || decide (s16 < v)
  match k with
  | .overflow => ovf
  | .inverted => !ovf

/-- DAA adds 6 to the low nibble (R619). -/
def daaLow (a f : Byte) : Bool := decide ((a &&& 0x0F).toNat > 9) || flagAC f

/-- DAA adds 6 to the high nibble, and sets Carry (R619). -/
def daaHigh (a f : Byte) : Bool :=
  decide ((a >>> 4).toNat > 9) || flagCY f || (decide ((a >>> 4).toNat ≥ 9) && decide ((a &&& 0x0F).toNat > 9))

/-- DAA's correction byte (R619). -/
def daaCorr (a f : Byte) : Byte :=
  (if daaLow a f then 0x06 else 0x00) ||| (if daaHigh a f then 0x60 else 0x00)

/-- The flags DAA writes, under each `DAA_SIGN` (R619): Z, P, AC of the one byte addition, CY set by the high
correction and else kept. -/
def daaFlags (k : DaaSign) (a f : Byte) : Byte :=
  let corr := daaCorr a f
  let r := a + corr
  let ac := decide ((a &&& 0x0F).toNat + (corr &&& 0x0F).toNat > 0x0F)
  let g := setCY (daaHigh a f || flagCY f) (setAC ac (setP (parity r) (setZ (r == 0) f)))
  match k with
  | .unchanged => g
  | .fromResult => setS (r.getLsbD 7) g

end Sys2Proof.Machine
end

