-- ==== Sys2Proof/Syntax.lean ====
section
/-!
DEFINITION. The instructions, one constructor per mnemonic of spec/opcode_table.json; the rows of one mnemonic are its
operand values (30_encoding.md R301 to R310, R330).
-/
namespace Sys2Proof

/-- The seven registers an instruction's register field can name (R100, R303); selector 6 is `Operand.m`. -/
inductive Reg where
  | b | c | d | e | h | l | a
deriving DecidableEq, Repr

/-- A register field (R303): a register, or M, the memory byte at HL. -/
inductive Operand where
  | reg (r : Reg)
  | m
deriving DecidableEq, Repr

/-- The pair field of LXI, INX, DCX and DAD (R304). -/
inductive Pair where
  | bc | de | hl | sp
deriving DecidableEq, Repr

/-- The pair field of PUSH and POP (R304). -/
inductive StackPair where
  | bc | de | hl | psw
deriving DecidableEq, Repr

/-- The pair field of LDAX and STAX, which use BC and DE only (R304). -/
inductive IndexPair where
  | bc | de
deriving DecidableEq, Repr

/-- The instructions of spec/opcode_table.json. -/
inductive Instr where
  -- 41_data_move.md
  | mov (dst src : Operand)
  | mvi (dst : Operand) (d8 : Byte)
  | lxi (rp : Pair) (d16 : Addr)
  | lda (a16 : Addr)
  | sta (a16 : Addr)
  | lhld (a16 : Addr)
  | shld (a16 : Addr)
  | ldax (rp : IndexPair)
  | stax (rp : IndexPair)
  | xchg
  -- 42_arithmetic.md
  | add (src : Operand)
  | adc (src : Operand)
  | adi (d8 : Byte)
  | aci (d8 : Byte)
  | sub (src : Operand)
  | sbb (src : Operand)
  | sui (d8 : Byte)
  | sbi (d8 : Byte)
  | inr (dst : Operand)
  | dcr (dst : Operand)
  | inx (rp : Pair)
  | dcx (rp : Pair)
  | dad (rp : Pair)
  | daa
  -- 43_logical_compare.md
  | ana (src : Operand)
  | xra (src : Operand)
  | ora (src : Operand)
  | cmp (src : Operand)
  | ani (d8 : Byte)
  | xri (d8 : Byte)
  | ori (d8 : Byte)
  | cpi (d8 : Byte)
  | cma
  | cmc
  | stc
  -- 44_rotate.md
  | rlc
  | rrc
  | ral
  | rar
  -- 45_stack.md
  | push (rp : StackPair)
  | pop (rp : StackPair)
  | xthl
  | sphl
  -- 46_control.md
  | jmp (a16 : Addr)
  | jnz (a16 : Addr)
  | jz (a16 : Addr)
  | jnc (a16 : Addr)
  | jc (a16 : Addr)
  | jpo (a16 : Addr)
  | jpe (a16 : Addr)
  | jp (a16 : Addr)
  | jm (a16 : Addr)
  | call (a16 : Addr)
  | cnz (a16 : Addr)
  | cz (a16 : Addr)
  | cnc (a16 : Addr)
  | cc (a16 : Addr)
  | cpo (a16 : Addr)
  | cpe (a16 : Addr)
  | cp (a16 : Addr)
  | cm (a16 : Addr)
  | ret
  | rnz
  | rz
  | rnc
  | rc
  | rpo
  | rpe
  | rp
  | rm
  | rst (n : BitVec 3)
  | pchl
  -- 47_io_system.md
  | inp (p8 : Byte)
  | outp (p8 : Byte)
  | ei
  | di
  | hlt
  | nop
  /-- An undocumented opcode, which is its own byte. Under UNDOC_POLICY = alias its operand bytes, if any, are fetched
  by its meaning (R1006). -/
  | undoc (op : Byte)
deriving DecidableEq, Repr

end Sys2Proof
end

