-- ==== Sys2Proof/WellFormed.lean ====
section
/-!
DEFINITION. Which terms of `Instr` are instructions: every operand value is legal (30_encoding.md R331, R332) but for
`MOV M,M`, whose opcode is HLT (R313), and an `undoc` that is none of the 12 undocumented values (R330).
-/
namespace Sys2Proof

/-- The 12 opcode values outside the documented set (R330). -/
def undocOpcodes : List Byte :=
  [0x08, 0x10, 0x18, 0x20, 0x28, 0x30, 0x38, 0xCB, 0xD9, 0xDD, 0xED, 0xFD]

/-- The term is an instruction of the opcode map R311. -/
def Instr.wellFormed : Instr → Bool
  | .mov .m .m => false
  | .undoc op => undocOpcodes.contains op
  | _ => true

end Sys2Proof
end

