-- ==== Sys2Proof/Decode.lean ====
section
/-!
DEFINITION. The decoder (30_encoding.md R300 to R315, R330 to R332) and, after it, the encoder written from the same
formats. The opcode byte alone gives the instruction and its length (R300), so `decodeOp` answers the instruction with
its operand bytes still to come.
-/
namespace Sys2Proof

/-- The high byte of a 16-bit value (R103: `hi = v[15:8]`). -/
def hi (v : Addr) : Byte := v.extractLsb' 8 8

/-- The low byte of a 16-bit value (R103: `lo = v[7:0]`). -/
def lo (v : Addr) : Byte := v.extractLsb' 0 8

/-- `h:l`, the left operand in the more significant position (R13). -/
def join (h l : Byte) : Addr := h ++ l

/-- A row of the opcode map after its opcode byte: complete, or waiting for byte 2, or for bytes 2 and 3 (R300, R301). -/
inductive Row where
  | bare (i : Instr)
  | imm8 (k : Byte → Instr)
  | imm16 (k : Addr → Instr)

/-- A register field (R303). -/
def Operand.ofBits (s : BitVec 3) : Operand :=
  match s with
  | 0#3 => .reg .b
  | 1#3 => .reg .c
  | 2#3 => .reg .d
  | 3#3 => .reg .e
  | 4#3 => .reg .h
  | 5#3 => .reg .l
  | 6#3 => .m
  | _   => .reg .a

/-- A pair field of LXI, INX, DCX, DAD (R304). -/
def Pair.ofBits (p : BitVec 2) : Pair :=
  match p with
  | 0#2 => .bc
  | 1#2 => .de
  | 2#2 => .hl
  | _   => .sp

/-- A pair field of PUSH and POP (R304). -/
def StackPair.ofBits (p : BitVec 2) : StackPair :=
  match p with
  | 0#2 => .bc
  | 1#2 => .de
  | 2#2 => .hl
  | _   => .psw

/-- `ddd`, `ccc`, `aaa`, `nnn`: `op[5:3]` (R302). -/
def fieldY (op : Byte) : BitVec 3 := op.extractLsb' 3 3

/-- `sss`: `op[2:0]` (R302). -/
def fieldZ (op : Byte) : BitVec 3 := op.extractLsb' 0 3

/-- `pp`: `op[5:4]` (R302). -/
def fieldP (op : Byte) : BitVec 2 := op.extractLsb' 4 2

/-- Quadrant `00xxxxxx` (R312). -/
def decodeQ0 (op : Byte) : Row :=
  match fieldZ op with
  | 0#3 => if fieldY op = 0#3 then .bare .nop else .bare (.undoc op)
  | 1#3 => if op.getLsbD 3 then .bare (.dad (Pair.ofBits (fieldP op))) else .imm16 (.lxi (Pair.ofBits (fieldP op)))
  | 2#3 =>
    match fieldY op with
    | 0#3 => .bare (.stax .bc)
    | 1#3 => .bare (.ldax .bc)
    | 2#3 => .bare (.stax .de)
    | 3#3 => .bare (.ldax .de)
    | 4#3 => .imm16 .shld
    | 5#3 => .imm16 .lhld
    | 6#3 => .imm16 .sta
    | _   => .imm16 .lda
  | 3#3 => if op.getLsbD 3 then .bare (.dcx (Pair.ofBits (fieldP op))) else .bare (.inx (Pair.ofBits (fieldP op)))
  | 4#3 => .bare (.inr (Operand.ofBits (fieldY op)))
  | 5#3 => .bare (.dcr (Operand.ofBits (fieldY op)))
  | 6#3 => .imm8 (.mvi (Operand.ofBits (fieldY op)))
  | _   =>
    match fieldY op with
    | 0#3 => .bare .rlc
    | 1#3 => .bare .rrc
    | 2#3 => .bare .ral
    | 3#3 => .bare .rar
    | 4#3 => .bare .daa
    | 5#3 => .bare .cma
    | 6#3 => .bare .stc
    | _   => .bare .cmc

/-- Quadrant `01xxxxxx` (R313): 0x76 is HLT. -/
def decodeQ1 (op : Byte) : Row :=
  if op = 0x76#8 then .bare .hlt else .bare (.mov (Operand.ofBits (fieldY op)) (Operand.ofBits (fieldZ op)))

/-- Quadrant `10xxxxxx` (R314), by the ALU field (R306). -/
def decodeQ2 (op : Byte) : Row :=
  match fieldY op with
  | 0#3 => .bare (.add (Operand.ofBits (fieldZ op)))
  | 1#3 => .bare (.adc (Operand.ofBits (fieldZ op)))
  | 2#3 => .bare (.sub (Operand.ofBits (fieldZ op)))
  | 3#3 => .bare (.sbb (Operand.ofBits (fieldZ op)))
  | 4#3 => .bare (.ana (Operand.ofBits (fieldZ op)))
  | 5#3 => .bare (.xra (Operand.ofBits (fieldZ op)))
  | 6#3 => .bare (.ora (Operand.ofBits (fieldZ op)))
  | _   => .bare (.cmp (Operand.ofBits (fieldZ op)))

/-- The conditional returns `11ccc000` (R315, R305). -/
def decodeRcc (op : Byte) : Instr :=
  match fieldY op with
  | 0#3 => .rnz
  | 1#3 => .rz
  | 2#3 => .rnc
  | 3#3 => .rc
  | 4#3 => .rpo
  | 5#3 => .rpe
  | 6#3 => .rp
  | _   => .rm

/-- The conditional jumps `11ccc010` (R315, R305). -/
def decodeJcc (op : Byte) : Addr → Instr :=
  match fieldY op with
  | 0#3 => .jnz
  | 1#3 => .jz
  | 2#3 => .jnc
  | 3#3 => .jc
  | 4#3 => .jpo
  | 5#3 => .jpe
  | 6#3 => .jp
  | _   => .jm

/-- The conditional calls `11ccc100` (R315, R305). -/
def decodeCcc (op : Byte) : Addr → Instr :=
  match fieldY op with
  | 0#3 => .cnz
  | 1#3 => .cz
  | 2#3 => .cnc
  | 3#3 => .cc
  | 4#3 => .cpo
  | 5#3 => .cpe
  | 6#3 => .cp
  | _   => .cm

/-- The immediate ALU operations `11aaa110` (R315, R306). -/
def decodeAluImm (op : Byte) : Byte → Instr :=
  match fieldY op with
  | 0#3 => .adi
  | 1#3 => .aci
  | 2#3 => .sui
  | 3#3 => .sbi
  | 4#3 => .ani
  | 5#3 => .xri
  | 6#3 => .ori
  | _   => .cpi

/-- Quadrant `11xxxxxx` (R315). -/
def decodeQ3 (op : Byte) : Row :=
  match fieldZ op with
  | 0#3 => .bare (decodeRcc op)
  | 1#3 =>
    if op.getLsbD 3 then
      match fieldP op with
      | 0#2 => .bare .ret
      | 1#2 => .bare (.undoc op)
      | 2#2 => .bare .pchl
      | _   => .bare .sphl
    else .bare (.pop (StackPair.ofBits (fieldP op)))
  | 2#3 => .imm16 (decodeJcc op)
  | 3#3 =>
    match fieldY op with
    | 0#3 => .imm16 .jmp
    | 1#3 => .bare (.undoc op)
    | 2#3 => .imm8 .outp
    | 3#3 => .imm8 .inp
    | 4#3 => .bare .xthl
    | 5#3 => .bare .xchg
    | 6#3 => .bare .di
    | _   => .bare .ei
  | 4#3 => .imm16 (decodeCcc op)
  | 5#3 =>
    if op.getLsbD 3 then (if fieldP op = 0#2 then .imm16 .call else .bare (.undoc op))
    else .bare (.push (StackPair.ofBits (fieldP op)))
  | 6#3 => .imm8 (decodeAluImm op)
  | _   => .bare (.rst (fieldY op))

/-- The row of an opcode byte (R311, R412): total, one row for each of the 256 values (R332). -/
def decodeOp (op : Byte) : Row :=
  match op.extractLsb' 6 2 with
  | 0#2 => decodeQ0 op
  | 1#2 => decodeQ1 op
  | 2#2 => decodeQ2 op
  | _   => decodeQ3 op

/-- How many operand bytes follow the opcode (R300). -/
def Row.operandBytes : Row → Nat
  | .bare _ => 0
  | .imm8 _ => 1
  | .imm16 _ => 2

/-- An instruction's length in bytes, a function of its opcode byte (R300). -/
def instrLength (op : Byte) : Nat := 1 + (decodeOp op).operandBytes

/-- Why a list of bytes holds no instruction. Every opcode value decodes (R332), so bytes can only be missing. -/
inductive DecodeError where
  /-- The list is empty. -/
  | noOpcode
  /-- The opcode's operand bytes are not all there. -/
  | missingOperand (op : Byte)
deriving DecidableEq, Repr

/-- The instruction at the head of a list of bytes, with the bytes after it. 16-bit operands are low byte first (R308). -/
def decode : List Byte → Except DecodeError (Instr × List Byte)
  | [] => .error .noOpcode
  | op :: rest =>
    match decodeOp op, rest with
    | .bare i, rest => .ok (i, rest)
    | .imm8 k, d :: rest => .ok (k d, rest)
    | .imm16 k, l :: h :: rest => .ok (k (join h l), rest)
    | _, _ => .error (.missingOperand op)

/-- The instruction of a table word: bit 0 of `w` is the least significant bit of the first byte, and the bits from
`nbits` on are zeros. -/
def decodeTableWord (nbits w : Nat) : Option Instr :=
  let v := w % 2 ^ nbits
  match decode [BitVec.ofNat 8 v, BitVec.ofNat 8 (v / 256), BitVec.ofNat 8 (v / 65536)] with
  | .ok (i, _) => some i
  | .error _ => none

/-! The encoder, from the formats of R301. -/

/-- `ddd`/`sss` of a register field (R303). -/
def Operand.bits : Operand → BitVec 3
  | .reg .b => 0
  | .reg .c => 1
  | .reg .d => 2
  | .reg .e => 3
  | .reg .h => 4
  | .reg .l => 5
  | .m => 6
  | .reg .a => 7

/-- `pp` of LXI, INX, DCX, DAD (R304). -/
def Pair.bits : Pair → BitVec 2
  | .bc => 0
  | .de => 1
  | .hl => 2
  | .sp => 3

/-- `pp` of PUSH and POP (R304). -/
def StackPair.bits : StackPair → BitVec 2
  | .bc => 0
  | .de => 1
  | .hl => 2
  | .psw => 3

/-- `pp` of LDAX and STAX (R304). -/
def IndexPair.bits : IndexPair → BitVec 2
  | .bc => 0
  | .de => 1

/-- Formats F1-S: `10 aaa sss`. -/
def encodeAlu (aaa : BitVec 3) (src : Operand) : List Byte := [0b10#2 ++ aaa ++ src.bits]

/-- Formats F2: `11 aaa 110 d8`. -/
def encodeAluImm (aaa : BitVec 3) (d8 : Byte) : List Byte := [0b11#2 ++ aaa ++ 0b110#3, d8]

/-- An opcode followed by a 16-bit operand, low byte first (formats F3, F3-P, F3-C; R308). -/
def encode16 (op : Byte) (v : Addr) : List Byte := [op, lo v, hi v]

/-- The bytes of an instruction, the opcode first. -/
def encode : Instr → List Byte
  | .mov d s => [0b01#2 ++ d.bits ++ s.bits]
  | .mvi d d8 => [0b00#2 ++ d.bits ++ 0b110#3, d8]
  | .lxi p v => encode16 (0b00#2 ++ p.bits ++ 0b0001#4) v
  | .lda a => encode16 0x3A a
  | .sta a => encode16 0x32 a
  | .lhld a => encode16 0x2A a
  | .shld a => encode16 0x22 a
  | .ldax p => [0b00#2 ++ p.bits ++ 0b1010#4]
  | .stax p => [0b00#2 ++ p.bits ++ 0b0010#4]
  | .xchg => [0xEB]
  | .add s => encodeAlu 0 s
  | .adc s => encodeAlu 1 s
  | .adi d8 => encodeAluImm 0 d8
  | .aci d8 => encodeAluImm 1 d8
  | .sub s => encodeAlu 2 s
  | .sbb s => encodeAlu 3 s
  | .sui d8 => encodeAluImm 2 d8
  | .sbi d8 => encodeAluImm 3 d8
  | .inr d => [0b00#2 ++ d.bits ++ 0b100#3]
  | .dcr d => [0b00#2 ++ d.bits ++ 0b101#3]
  | .inx p => [0b00#2 ++ p.bits ++ 0b0011#4]
  | .dcx p => [0b00#2 ++ p.bits ++ 0b1011#4]
  | .dad p => [0b00#2 ++ p.bits ++ 0b1001#4]
  | .daa => [0x27]
  | .ana s => encodeAlu 4 s
  | .xra s => encodeAlu 5 s
  | .ora s => encodeAlu 6 s
  | .cmp s => encodeAlu 7 s
  | .ani d8 => encodeAluImm 4 d8
  | .xri d8 => encodeAluImm 5 d8
  | .ori d8 => encodeAluImm 6 d8
  | .cpi d8 => encodeAluImm 7 d8
  | .cma => [0x2F]
  | .cmc => [0x3F]
  | .stc => [0x37]
  | .rlc => [0x07]
  | .rrc => [0x0F]
  | .ral => [0x17]
  | .rar => [0x1F]
  | .push p => [0b11#2 ++ p.bits ++ 0b0101#4]
  | .pop p => [0b11#2 ++ p.bits ++ 0b0001#4]
  | .xthl => [0xE3]
  | .sphl => [0xF9]
  | .jmp a => encode16 0xC3 a
  | .jnz a => encode16 0xC2 a
  | .jz a => encode16 0xCA a
  | .jnc a => encode16 0xD2 a
  | .jc a => encode16 0xDA a
  | .jpo a => encode16 0xE2 a
  | .jpe a => encode16 0xEA a
  | .jp a => encode16 0xF2 a
  | .jm a => encode16 0xFA a
  | .call a => encode16 0xCD a
  | .cnz a => encode16 0xC4 a
  | .cz a => encode16 0xCC a
  | .cnc a => encode16 0xD4 a
  | .cc a => encode16 0xDC a
  | .cpo a => encode16 0xE4 a
  | .cpe a => encode16 0xEC a
  | .cp a => encode16 0xF4 a
  | .cm a => encode16 0xFC a
  | .ret => [0xC9]
  | .rnz => [0xC0]
  | .rz => [0xC8]
  | .rnc => [0xD0]
  | .rc => [0xD8]
  | .rpo => [0xE0]
  | .rpe => [0xE8]
  | .rp => [0xF0]
  | .rm => [0xF8]
  | .rst n => [0b11#2 ++ n ++ 0b111#3]
  | .pchl => [0xE9]
  | .inp p => [0xDB, p]
  | .outp p => [0xD3, p]
  | .ei => [0xFB]
  | .di => [0xF3]
  | .hlt => [0x76]
  | .nop => [0x00]
  | .undoc op => [op]

end Sys2Proof
end

