-- ==== Sys2Proof/Machine/Memory.lean ====
section
/-!
DEFINITION. Lists of (address, byte) pairs in one canonical form: addresses strictly rising, and no entry equal to
what an unlisted address reads as. The backend image (10_state.md R126) is such a list.
-/
namespace Sys2Proof.Machine

/-- What an unlisted address reads as. DESIGN CHOICE, assumption log 5. -/
def Memory.unlisted : Byte := 0

/-- The byte at an address. -/
def Memory.read : List Host.Cell → Nat → Byte
  | [], _ => Memory.unlisted
  | (k, v) :: t, x => if x = k then v else Memory.read t x

/-- A cell in front of a list, unless it holds what an unlisted address reads as. -/
def Memory.consCell (x : Nat) (v : Byte) (t : List Host.Cell) : List Host.Cell :=
  if v = Memory.unlisted then t else (x, v) :: t

/-- Write a byte, keeping the canonical form. -/
def Memory.write : List Host.Cell → Nat → Byte → List Host.Cell
  | [], x, v => Memory.consCell x v []
  | (k, w) :: t, x, v =>
    if x < k then Memory.consCell x v ((k, w) :: t)
    else if x = k then Memory.consCell x v t
    else (k, w) :: Memory.write t x v

/-- Write bytes at rising addresses, from `x` on. -/
def Memory.writeList : List Host.Cell → Nat → List Byte → List Host.Cell
  | m, _, [] => m
  | m, x, v :: t => Memory.writeList (Memory.write m x v) (x + 1) t

/-- Every listed address is above `x`. -/
def Memory.above (x : Nat) : List Host.Cell → Bool
  | [] => true
  | (k, _) :: _ => decide (x < k)

/-- The canonical form. -/
def Memory.wf : List Host.Cell → Bool
  | [] => true
  | (k, v) :: t => !(v == Memory.unlisted) && Memory.above k t && Memory.wf t

/-- The canonical list of any list of cells; a later cell wins over an earlier one at the same address. -/
def Memory.ofCells (cells : List Host.Cell) : List Host.Cell :=
  cells.foldl (fun m x => Memory.write m x.1 x.2) []

end Sys2Proof.Machine
end

