-- ==== Sys2Proof/Machine/Cache.lean ====
section
/-!
DEFINITION. The Storage Backend's two operations and the Cache Subsystem (20_memory.md R230 to R241), on storage block
numbers; the translation of guest addresses is in Ops.lean.
-/
namespace Sys2Proof.Machine

/-- The LRC: the XOR of the data bytes, seed 0x00 (R241). -/
def checksum (d : Vector Byte lineSize) : Byte := d.toList.foldl (fun x y => x ^^^ y) 0

/-- The buffer a flush builds from a line's bytes (R232). -/
def Buffer.ofData (d : Vector Byte lineSize) : Buffer where
  data := d
  check := checksum d

/-- The integrity check of a load succeeds on this buffer (R234). -/
def Buffer.sound (x : Buffer) : Bool := checksum x.data == x.check

/-- Where the image list holds byte `j` of block `n`'s buffer of `LINE_SIZE + 1` bytes. -/
def cellKey (n j : Nat) : Nat := n * (lineSize + 1) + j

/-- `image[n]` (R126). -/
def blockOf (image : List Host.Cell) (n : Nat) : Buffer where
  data := Vector.ofFn fun j => Memory.read image (cellKey n j.val)
  check := Memory.read image (cellKey n lineSize)

/-- `image[n] <- x` (R240). -/
def putBlock (image : List Host.Cell) (n : Nat) (x : Buffer) : List Host.Cell :=
  Memory.writeList image (cellKey n 0) (x.data.toList ++ [x.check])

/-- `readBlock(n)` and the core's call of it (R240). -/
def MemSys.readBlock (m : MemSys) (n : Nat) : Buffer × MemSys :=
  (blockOf m.image n, { m with calls := m.calls ++ [.readBlock n] })

/-- `writeBlock(n, x)` (R240). -/
def MemSys.writeBlock (m : MemSys) (n : Nat) (x : Buffer) : MemSys :=
  { m with image := putBlock m.image n x, calls := m.calls ++ [.writeBlock n x] }

/-- Whether a line holds storage block `n`; an empty line holds none (R125, R230). -/
def Line.holds (x : Line) (n : Nat) : Bool := x.tag == some n

/-- "scan all lines for tag == requestedBlock" (R230). -/
def MemSys.lookup (m : MemSys) (n : Nat) : Option Nat := m.lines.findIdx? (fun x => x.holds n)

/-- Swap line `i` with its MRU-ward neighbour; the MRU line stays (R231). -/
def swapUp : Nat → List Line → List Line
  | 0, x :: y :: t => y :: x :: t
  | i + 1, x :: t => x :: swapUp i t
  | _, t => t

/-- `Promote(i)`: the index the matched line ends at, and the lines (R231). -/
def MemSys.promote (m : MemSys) (i : Nat) : Nat × MemSys :=
  (if i + 1 < m.lines.length then i + 1 else i, { m with lines := swapUp i m.lines })

/-- Miss, step 1: a resident dirty victim in slot 0 is written back, with its checksum (R232). The line keeps its dirty
bit until a load has filled it. -/
def MemSys.flushVictim (m : MemSys) : MemSys :=
  match m.lines with
  | [] => m
  | x :: _ =>
    match x.tag, x.dirty with
    | some t, true => m.writeBlock t (Buffer.ofData x.data)
    | _, _ => m

/-- Miss, step 2: the lines move down by one index, the victim's slot to the MRU end (R233). -/
def MemSys.shift (m : MemSys) : MemSys :=
  { m with lines := m.lines.tail ++ m.lines.take 1 }

/-- What a request on the cache comes to: the line's index, or a load that failed its integrity check. -/
inductive Resolved where
  | ready (i : Nat) (m : MemSys)
  | bad (m : MemSys)

/-- Miss, step 3: load block `n` into the MRU slot, and check it (R234). The tag is set before the check (D21), and the
dirty bit cleared after it. -/
def MemSys.load (m : MemSys) (n : Nat) : Resolved :=
  let x := m.readBlock n
  let i := m.lines.length - 1
  let filled : MemSys :=
    { x.2 with lines := m.lines.modify i (fun y => { y with tag := some n, data := x.1.data }) }
  if x.1.sound then
    .ready i { filled with lines := filled.lines.modify i (fun y => { y with dirty := false }) }
  else .bad filled

/-- `CacheResolve`, on the storage block number (R230). -/
def MemSys.resolve (m : MemSys) (n : Nat) : Resolved :=
  match m.lookup n with
  | some i => .ready (m.promote i).1 (m.promote i).2
  | none => (m.flushVictim.shift).load n

/-- `line[i].data[j]` (R210). A request's index is always that of a line (assumption log 14). -/
def MemSys.byteAt (m : MemSys) (i : Nat) (j : Fin lineSize) : Byte := (m.lines.getD i Line.empty).data[j]

/-- `line[i].data[j] <- v; line[i].dirty <- 1` (R211). -/
def MemSys.setByteAt (m : MemSys) (i : Nat) (j : Fin lineSize) (v : Byte) : MemSys :=
  { m with lines := m.lines.modify i (fun y => { y with data := y.data.set j v, dirty := true }) }

/-- The line a request has found or loaded, and the memory system after it, whether or not the load failed (R231, R234). -/
def Resolved.place : Resolved → Nat × MemSys
  | .ready i m => (i, m)
  | .bad m => (m.lines.length - 1, m)

/-- An access that takes no notice of a failed load: a read, or a store of a byte (R210, R211). Assumption log 12. -/
def MemSys.accessAnyway (m : MemSys) (n : Nat) (w : Option (Fin lineSize × Byte)) : MemSys :=
  let r := (m.resolve n).place
  match w with
  | none => r.2
  | some (j, v) => r.2.setByteAt r.1 j v

/-- With a single line, an access to another block than the failed one of the line `x`: the block is loaded, where it is
a store stored into and written back, and the failed block is loaded again. Assumption log 12. -/
def MemSys.accessThrough (m : MemSys) (x : Line) (n : Nat) (w : Option (Fin lineSize × Byte)) : MemSys :=
  let y := m.readBlock n
  let z := match w with
    | none => y.2
    | some (j, v) => y.2.writeBlock n (Buffer.ofData (y.1.data.set j v))
  { z with calls := z.calls ++ x.tag.toList.map .readBlock }

/-- An access to block `n` that an instruction has gone on to after a failed load, where `go` holds. The last line holds
the failed block and keeps it (D21); an access to another block is made in the other lines. Assumption log 12. -/
def MemSys.accessBeside (m : MemSys) (n : Nat) (w : Option (Fin lineSize × Byte)) (go : Bool) : MemSys :=
  match m.lines.getLast? with
  | none => m
  | some x =>
    if x.holds n then m
    else if go then
      if m.lines.dropLast.isEmpty then m.accessThrough x n w
      else
        let r := MemSys.accessAnyway { m with lines := m.lines.dropLast } n w
        { r with lines := r.lines ++ [x] }
    else m

/-- `L(n, j)`, the logical content of storage block `n` at byte `j` (R236): the line that holds the block, or the
image. -/
def MemSys.logical (m : MemSys) (n : Nat) (j : Fin lineSize) : Byte :=
  match m.lines.find? (fun x => x.holds n) with
  | some x => x.data[j]
  | none => (blockOf m.image n).data[j]

/-- Put a byte into block `n` of the image, with the block's checksum byte made right (R241). -/
def pokeImage (image : List Host.Cell) (n : Nat) (j : Fin lineSize) (v : Byte) : List Host.Cell :=
  Memory.write (Memory.write image (cellKey n j.val) v) (cellKey n lineSize)
    (checksum ((blockOf image n).data.set j v))

/-- Put a byte into the memory system from outside the machine: into the image, and into the lines that hold the
block. -/
def MemSys.poke (m : MemSys) (n : Nat) (j : Fin lineSize) (v : Byte) : MemSys :=
  { m with
    image := pokeImage m.image n j v
    lines := m.lines.map fun x => if x.holds n then { x with data := x.data.set j v } else x }

end Sys2Proof.Machine
end

