-- ==== Sys2Proof/Machine/Ops.lean ====
section
/-!
DEFINITION. The named operations over the state: raising a fault, the Address Translator, the Memory Access Unit,
instruction-stream reads, the stack, the bank-select interface and the host's stop (20_memory.md, 40_engine.md,
60_exceptions.md).
-/
namespace Sys2Proof.Machine

/-- What an operation inside a step comes to: a value and the state after it, or a raised fault with the state it was
raised in (R17, R411). -/
inductive Res (α : Type) where
  | ok (v : α) (s : State)
  | raised (r : FaultReason) (s : State)

/-- One operation after another; a fault ends the sequence (R17). -/
def Res.andThen {α β : Type} (x : Res α) (k : α → State → Res β) : Res β :=
  match x with
  | .ok v s => k v s
  | .raised r s => .raised r s

/-- Raising a fault, the one exception operation of the machine: `stop <- 1`, and `fatal <- 1` for a storage integrity
failure only (R235, R1100, R1101). Nothing is saved, nothing is pushed, no mode changes and control goes nowhere
(R1125); there is no return from it (R1126). -/
def raise {α : Type} (r : FaultReason) (s : State) : Res α :=
  match r with
  | .memoryIntegrity => .raised r { s with stop := true, fatal := true }
  | .illegalOpcode => .raised r { s with stop := true }

/-! ## Address Translator (R220) -/

/-- The bank block of a guest address: `a[15:12]`. -/
def bankIndex (a : Addr) : BitVec 4 := a.extractLsb' 12 4

/-- `bankOf(a)`. -/
def State.bankOf (s : State) (a : Addr) : Nat := s.bank[(bankIndex a).toNat]'(bankIndex a).isLt

/-- `lin(a) = a + bankOf(a) * 65536`. -/
def State.lin (s : State) (a : Addr) : Nat := a.toNat + s.bankOf a * 65536

/-- `blk(a) = floor(lin(a) / LINE_SIZE) + STORAGE_OFFSET`. -/
def State.blk (s : State) (a : Addr) : Nat := s.lin a / lineSize + s.cfg.storageOffset

/-- `off(a) = a & (LINE_SIZE - 1)`. -/
def off (a : Addr) : Fin lineSize :=
  ⟨a.toNat &&& (lineSize - 1), Nat.lt_of_le_of_lt Nat.and_le_right (by decide)⟩

/-! ## Memory Access Unit (R210 to R212) -/

/-- The address exceeds `MAX_ADDR` (R212). -/
def State.unmapped (s : State) (a : Addr) : Bool := decide (s.cfg.maxAddr < a)

/-- `CacheResolve(a)` (R230), with the integrity failure of R235. -/
def State.cacheResolve (s : State) (a : Addr) : Res Nat :=
  match s.mem.resolve (s.blk a) with
  | .ready i m => .ok i { s with mem := m }
  | .bad m => raise .memoryIntegrity { s with mem := m }

/-- `ReadByte(a)` (R210). -/
def State.readByte (s : State) (a : Addr) : Res Byte :=
  if s.unmapped a then .ok 0xFF s
  else (s.cacheResolve a).andThen fun i s => .ok (s.mem.byteAt i (off a)) s

/-- `WriteByte(a, v)` (R211). -/
def State.writeByte (s : State) (a : Addr) (v : Byte) : Res Unit :=
  if s.unmapped a then .ok () s
  else (s.cacheResolve a).andThen fun i s => .ok () { s with mem := s.mem.setByteAt i (off a) v }

/-- The byte a program finds at a guest address, without the access (R236, R250): the logical content, or 0xFF above
`MAX_ADDR`. -/
def State.guestByte (s : State) (a : Addr) : Byte :=
  if s.unmapped a then 0xFF else s.mem.logical (s.blk a) (off a)

/-- The two bytes a program finds at `a` and `a + 1`, low byte first. -/
def State.guestWord (s : State) (a : Addr) : Addr := join (s.guestByte (a + 1)) (s.guestByte a)

/-- `MemRead(a, 2)`: the lower address first (R16). -/
def State.readWord (s : State) (a : Addr) : Res Addr :=
  (s.readByte a).andThen fun l s => (s.readByte (a + 1)).andThen fun h s => .ok (join h l) s

/-- `MemWrite(a, 2, v)`: the lower address first (R16). -/
def State.writeWord (s : State) (a v : Addr) : Res Unit :=
  (s.writeByte a (lo v)).andThen fun _ s => s.writeByte (a + 1) (hi v)

/-! ## Instruction-stream reads (R402) -/

/-- `Fetch8()`. -/
def State.fetch8 (s : State) : Res Byte :=
  (s.readByte s.pc).andThen fun v s => .ok v { s with pc := s.pc + 1 }

/-- `Fetch16()`: low byte first. -/
def State.fetch16 (s : State) : Res Addr :=
  s.fetch8.andThen fun l s => s.fetch8.andThen fun h s => .ok (join h l) s

/-! ## The stack (R420, R421) -/

/-- `Push16(v)`: `sp` first, then the low byte, then the high byte. -/
def State.push16 (s : State) (v : Addr) : Res Unit :=
  let s1 := { s with sp := s.sp - 2 }
  s1.writeWord s1.sp v

/-- `Pop16()`. -/
def State.pop16 (s : State) : Res Addr :=
  (s.readWord s.sp).andThen fun v s => .ok v { s with sp := s.sp + 2 }

/-! ## The bank-select interface (R225, R1131) -/

/-- `SelectBlock(k)`: `mmuBlock <- k[3:0]`. -/
def State.selectBlock (s : State) (k : Byte) : State := { s with mmuBlock := k.extractLsb' 0 4 }

/-- `SelectBank(b)`: `bank[mmuBlock] <- b`. A `b ≥ BANKS` is never performed by the host (R225, R1140): the Bank Map
then stays as it is. Assumption log 8. -/
def State.selectBank (s : State) (b : Byte) : State :=
  if b.toNat < s.cfg.banks then { s with bank := s.bank.set s.mmuBlock.toNat b.toNat s.mmuBlock.isLt } else s

/-- The bank-select device's answer to `OUT p` with data `v` (R1001): the only effect of a port on the core. -/
def State.bankSelect (s : State) (p v : Byte) : State :=
  let s1 := if p = s.cfg.portMmuBlock then s.selectBlock v else s
  if p = s.cfg.portMmuBank then s1.selectBank v else s1

/-- Put a byte at a guest address from outside the machine; above `MAX_ADDR` there is nothing to put it in. -/
def State.poke (s : State) (a : Addr) (v : Byte) : State :=
  if s.unmapped a then s else { s with mem := s.mem.poke (s.blk a) (off a) v }

/-! ## How a fault is reported (R411, R1101) -/

/-- What an instruction could have written, beside `pc` and the cache, and the bytes it could have read (R411). -/
structure Extent where
  regs : List Reg := []
  /-- The FLAGS bits, as a mask (R112). -/
  flags : Byte := 0x00
  sp : Bool := false
  ie : Bool := false
  /-- The guest addresses of the bytes it could have read. -/
  reads : List Addr := []
  /-- The guest addresses of the bytes it could have stored. -/
  stores : List Addr := []

/-- Every guest address. -/
def everyAddr : List Addr := (List.range 65536).map (BitVec.ofNat 16)

/-- Everything some instruction writes or reads. -/
def Extent.everything : Extent where
  regs := [.b, .c, .d, .e, .h, .l, .a]
  flags := 0xFF
  sp := true
  ie := true
  reads := everyAddr
  stores := everyAddr

/-- The instruction could have stored to the block this line holds. -/
def State.storesInto (s : State) (w : Extent) (x : Line) : Bool :=
  w.stores.any fun a => !s.unmapped a && x.holds (s.blk a)

/-- Byte `j` of a line after an integrity failure: free where the instruction could have stored it. -/
def State.leaveByte (s : State) (w : Extent) (x : MemLeavings) (y : Line) (j : Fin lineSize) : Byte :=
  match w.stores.find? fun a => !s.unmapped a && y.holds (s.blk a) && off a == j with
  | some a => x.byte a
  | none => y.data[j]

/-- The instruction could have accessed the block this line holds. -/
def State.touches (s : State) (w : Extent) (y : Line) : Bool :=
  (w.reads ++ w.stores).any fun a => !s.unmapped a && y.holds (s.blk a)

/-- A line after an integrity failure: the bytes a store of the instruction would write are free, and so is the dirty bit
where a store or a load of the instruction would write it (R211, R234, R411). -/
def State.leaveLine (s : State) (w : Extent) (x : MemLeavings) (y : Line) : Line :=
  { y with
    dirty := if s.touches w y then x.dirty y.tag else y.dirty
    data := Vector.ofFn (s.leaveByte w x y) }

/-- The failed line after an integrity failure: "The failed line keeps the new tag and its loaded bytes" (D21). Its dirty
bit is free where a store would set it or the victim had set it, which the load clears after the check only (R234). -/
def State.leaveFailed (s : State) (w : Extent) (x : MemLeavings) (y : Line) : Line :=
  { y with dirty := if y.dirty || s.storesInto w y then x.dirty y.tag else false }

/-- The accesses an instruction may have gone on to make after a failed load ("not rolled back", R411; 90_conflicts.md
C9): each is made, or not, in the cache as any access is (R210, R211). Assumption log 12. -/
def State.goOn (s : State) (w : Extent) (x : MemLeavings) : MemSys :=
  let one : MemSys → Addr × Option (Fin lineSize × Byte) × Bool → MemSys := fun m p =>
    if s.unmapped p.1 then m else m.accessBeside (s.blk p.1) p.2.1 p.2.2
  ((w.reads.map fun a => (a, none, x.reads a)) ++ w.stores.map fun a => (a, some (off a, x.byte a), x.stores a)).foldl
    one s.mem

/-- Every cache access of the instruction is to the block whose load failed, which the MRU line holds (R234). -/
def State.onlyFailed (s : State) (w : Extent) : Bool :=
  match s.mem.lines.getLast? with
  | none => true
  | some y => (w.reads ++ w.stores).all fun a => s.unmapped a || y.holds (s.blk a)

/-- The memory system an integrity failure leaves (R411). The image and its checksum bytes change by the write-back of an
evicted line only (R126, R232, R240, R254). The failed line stays (D21), at the MRU end where the instruction had no access
to another block (V-CACHE-4, P5), else anywhere. Assumption log 12. -/
def State.leaveMem (s : State) (w : Extent) (x : MemLeavings) : MemSys :=
  let m := s.goOn w x
  let others := m.lines.dropLast.map (s.leaveLine w x)
  let failed := m.lines.getLast?.toList.map (s.leaveFailed w x)
  let i := if s.onlyFailed w then others.length else x.place
  { m with lines := others.take i ++ failed ++ others.drop i }

/-- The state an integrity failure leaves: `pc` and what the instruction could have written are free, the rest is as it
stood where the failure was raised (R411). -/
def State.leave (s : State) (w : Extent) : State :=
  let x := Config.leftByFault s
  { s with
    b := if .b ∈ w.regs then x.b else s.b
    c := if .c ∈ w.regs then x.c else s.c
    d := if .d ∈ w.regs then x.d else s.d
    e := if .e ∈ w.regs then x.e else s.e
    h := if .h ∈ w.regs then x.h else s.h
    l := if .l ∈ w.regs then x.l else s.l
    f := (s.f &&& ~~~w.flags) ||| (x.f &&& w.flags)
    a := if .a ∈ w.regs then x.a else s.a
    pc := x.pc
    sp := if w.sp then x.sp else s.sp
    ie := if w.ie then x.ie else s.ie
    mem := s.leaveMem w (Config.memLeftByFault s) }

/-- A raised fault as the step's outcome. An illegal opcode leaves everything but `pc` as it stood (R1101). -/
def Fault.ofRaised (r : FaultReason) (w : Extent) (s : State) : Fault :=
  match r with
  | .memoryIntegrity => .memoryIntegrity (s.leave w)
  | .illegalOpcode => .illegalOpcode { s with pc := (Config.leftByFault s).pc }

/-- A step's last operation, then an outcome of the step (R400, R411); `w` is what the instruction could have
written. -/
def Res.finish {α : Type} (x : Res α) (w : Extent) (k : α → State → Host.Outcome State Fault Refusal) :
    Host.Outcome State Fault Refusal :=
  match x with
  | .ok v s => k v s
  | .raised r s => .fault (Fault.ofRaised r w s)

/-- The outcome of a step that ends with this operation. -/
def Res.outcome (x : Res Unit) (w : Extent) : Host.Outcome State Fault Refusal := x.finish w fun _ s => .next s

/-! ## The host between steps (R1141) -/

/-- The host requests a stop between two steps (R116, R1141). -/
def State.hostStop (s : State) : State := { s with stop := true }

end Sys2Proof.Machine
end

