-- ==== Sys2Proof/Machine/Operands.lean ====
section
/-!
DEFINITION. Operand access: registers, pairs, the M operand, immediates and conditions (10_state.md R100 to R103;
30_encoding.md R303 to R305; 40_engine.md R403, R405).
-/
namespace Sys2Proof.Machine

/-- A register of the register file (R100). -/
def State.getReg (s : State) : Reg → Byte
  | .b => s.b
  | .c => s.c
  | .d => s.d
  | .e => s.e
  | .h => s.h
  | .l => s.l
  | .a => s.a

/-- Write a register (R100). -/
def State.setReg (s : State) (r : Reg) (v : Byte) : State :=
  match r with
  | .b => { s with b := v }
  | .c => { s with c := v }
  | .d => { s with d := v }
  | .e => { s with e := v }
  | .h => { s with h := v }
  | .l => { s with l := v }
  | .a => { s with a := v }

/-- The pair BC (R103). -/
def State.bc (s : State) : Addr := join s.b s.c

/-- The pair DE (R103). -/
def State.de (s : State) : Addr := join s.d s.e

/-- The pair HL (R103). -/
def State.hl (s : State) : Addr := join s.h s.l

/-- The pair PSW: A in the high byte, FLAGS in the low (R103). -/
def State.psw (s : State) : Addr := join s.a s.f

def State.setBC (s : State) (v : Addr) : State := { s with b := hi v, c := lo v }
def State.setDE (s : State) (v : Addr) : State := { s with d := hi v, e := lo v }
def State.setHL (s : State) (v : Addr) : State := { s with h := hi v, l := lo v }
def State.setPSW (s : State) (v : Addr) : State := { s with a := hi v, f := lo v }

/-- A pair of LXI, INX, DCX, DAD (R304). -/
def State.getPair (s : State) : Pair → Addr
  | .bc => s.bc
  | .de => s.de
  | .hl => s.hl
  | .sp => s.sp

/-- Write a pair of LXI, INX, DCX (R304). -/
def State.setPair (s : State) (p : Pair) (v : Addr) : State :=
  match p with
  | .bc => s.setBC v
  | .de => s.setDE v
  | .hl => s.setHL v
  | .sp => { s with sp := v }

/-- A pair of PUSH (R304). -/
def State.getStackPair (s : State) : StackPair → Addr
  | .bc => s.bc
  | .de => s.de
  | .hl => s.hl
  | .psw => s.psw

/-- Write a pair of POP (R304). -/
def State.setStackPair (s : State) (p : StackPair) (v : Addr) : State :=
  match p with
  | .bc => s.setBC v
  | .de => s.setDE v
  | .hl => s.setHL v
  | .psw => s.setPSW v

/-- The address pair of LDAX and STAX (R304). -/
def State.getIndexPair (s : State) : IndexPair → Addr
  | .bc => s.bc
  | .de => s.de

/-- `Rd(s)` (R403). -/
def State.readOperand (s : State) : Operand → Res Byte
  | .reg r => .ok (s.getReg r) s
  | .m => s.readByte s.hl

/-- `Wr(s, v)` (R403). -/
def State.writeOperand (s : State) (o : Operand) (v : Byte) : Res Unit :=
  match o with
  | .reg r => .ok () (s.setReg r v)
  | .m => s.writeByte s.hl v

/-- The value `Rd` finds, without the access. -/
def State.operandByte (s : State) : Operand → Byte
  | .reg r => s.getReg r
  | .m => s.guestByte s.hl

/-- The eight conditions (R305). -/
inductive Cond where
  | nz | z | nc | c | po | pe | p | m
deriving DecidableEq, Repr

/-- `Cond(ccc)` on the FLAGS byte (R405). -/
def Cond.holds (k : Cond) (f : Byte) : Bool :=
  match k with
  | .nz => !flagZ f
  | .z  => flagZ f
  | .nc => !flagCY f
  | .c  => flagCY f
  | .po => !flagP f
  | .pe => flagP f
  | .p  => !flagS f
  | .m  => flagS f

end Sys2Proof.Machine
end

