-- ==== Sys2Proof/Machine/Extent.lean ====
section
/-!
DEFINITION. What each instruction could have written, beside `pc`, and the bytes it could have read: what a fault inside
it leaves unspecified (40_engine.md R411). Each line follows the instruction's own rule, and R112 for the flags and R205
for the accesses.
Assumption log 9.
-/
namespace Sys2Proof.Machine

/-- The FLAGS bits an instruction may write, as a mask (R112). -/
def flagMask (k : DaaSign) : Instr → Byte
  | .add _ | .adc _ | .adi _ | .aci _ | .sub _ | .sbb _ | .sui _ | .sbi _ | .cmp _ | .cpi _ => 0xD5
  | .inr _ | .dcr _ => 0xD4
  | .daa => match k with
    | .unchanged => 0x55
    | .fromResult => 0xD5
  | .ana _ | .ani _ | .xra _ | .xri _ | .ora _ | .ori _ => 0xD5
  | .dad _ | .rlc | .rrc | .ral | .rar | .stc | .cmc => 0x01
  | .pop p => match p with
    | .psw => 0xFF
    | _ => 0x00
  | .mov _ _ | .mvi _ _ | .lxi _ _ | .lda _ | .sta _ | .lhld _ | .shld _ | .ldax _ | .stax _ | .xchg | .inx _
  | .dcx _ | .cma | .push _ | .xthl | .sphl | .jmp _ | .jnz _ | .jz _ | .jnc _ | .jc _ | .jpo _ | .jpe _ | .jp _
  | .jm _ | .call _ | .cnz _ | .cz _ | .cnc _ | .cc _ | .cpo _ | .cpe _ | .cp _ | .cm _ | .ret | .rnz | .rz | .rnc
  | .rc | .rpo | .rpe | .rp | .rm | .rst _ | .pchl | .inp _ | .outp _ | .ei | .di | .hlt | .nop | .undoc _ => 0x00

/-- A write to a register field (R403). -/
def State.operandExtent (s : State) (o : Operand) : Extent :=
  match o with
  | .reg r => { regs := [r] }
  | .m => { stores := [s.hl] }

/-- The bytes read for an operand (R403). -/
def State.operandReads (s : State) (o : Operand) : List Addr :=
  match o with
  | .reg _ => []
  | .m => [s.hl]

/-- A pop that keeps nothing of what it reads but `sp` (R421). -/
def State.retExtent (s : State) : Extent := { sp := true, reads := [s.sp, s.sp + 1] }

/-- A write to a pair of LXI, INX, DCX (R304). -/
def pairExtent (p : Pair) : Extent :=
  match p with
  | .bc => { regs := [.b, .c] }
  | .de => { regs := [.d, .e] }
  | .hl => { regs := [.h, .l] }
  | .sp => { sp := true }

/-- A pop to a pair, but for FLAGS: `sp` moves too (R304, R421). -/
def State.popExtent (s : State) (p : StackPair) : Extent :=
  match p with
  | .bc => { s.retExtent with regs := [.b, .c] }
  | .de => { s.retExtent with regs := [.d, .e] }
  | .hl => { s.retExtent with regs := [.h, .l] }
  | .psw => { s.retExtent with regs := [.a] }

/-- A push: `sp` and the two bytes below it (R420). -/
def State.pushExtent (s : State) : Extent := { sp := true, stores := [s.sp - 2, s.sp - 1] }

/-- An undocumented opcode, by what it runs as (R1006); its operand bytes are fetched from `pc` on. -/
def State.undocExtent (s : State) (op : Byte) : Extent :=
  match s.cfg.undocPolicy with
  | .fault => {}
  | .nop => {}
  | .siliconAlias =>
    if op = 0xCB then { reads := [s.pc, s.pc + 1] }
    else if op = 0xD9 then s.retExtent
    else if op = 0xDD ∨ op = 0xED ∨ op = 0xFD then { s.pushExtent with reads := [s.pc, s.pc + 1] }
    else {}

/-- What an instruction with this condition could have written: nothing where the condition does not hold (R911,
R921). -/
def State.onlyIf (s : State) (k : Cond) (w : Extent) : Extent := if k.holds s.f then w else {}

/-- What an instruction could have written or read, but for FLAGS. -/
def State.placesTouched (s : State) (i : Instr) : Extent :=
  match i with
  | .mov dst src => { s.operandExtent dst with reads := s.operandReads src }
  | .mvi dst _ => s.operandExtent dst
  | .inr dst | .dcr dst => { s.operandExtent dst with reads := s.operandReads dst }
  | .lxi rp _ | .inx rp | .dcx rp => pairExtent rp
  | .lda a16 => { regs := [.a], reads := [a16] }
  | .ldax rp => { regs := [.a], reads := [s.getIndexPair rp] }
  | .cma | .inp _ => { regs := [.a] }
  | .sta a16 => { stores := [a16] }
  | .stax rp => { stores := [s.getIndexPair rp] }
  | .lhld a16 => { regs := [.h, .l], reads := [a16, a16 + 1] }
  | .dad _ => { regs := [.h, .l] }
  | .shld a16 => { stores := [a16, a16 + 1] }
  | .xchg => { regs := [.d, .e, .h, .l] }
  | .add src | .adc src | .sub src | .sbb src | .ana src | .xra src | .ora src =>
    { regs := [.a], reads := s.operandReads src }
  | .cmp src => { reads := s.operandReads src }
  | .adi _ | .aci _ | .sui _ | .sbi _ | .daa | .ani _ | .xri _ | .ori _ | .rlc | .rrc | .ral | .rar => { regs := [.a] }
  | .push _ | .call _ | .rst _ => s.pushExtent
  | .cnz _ => s.onlyIf .nz s.pushExtent
  | .cz _ => s.onlyIf .z s.pushExtent
  | .cnc _ => s.onlyIf .nc s.pushExtent
  | .cc _ => s.onlyIf .c s.pushExtent
  | .cpo _ => s.onlyIf .po s.pushExtent
  | .cpe _ => s.onlyIf .pe s.pushExtent
  | .cp _ => s.onlyIf .p s.pushExtent
  | .cm _ => s.onlyIf .m s.pushExtent
  | .pop rp => s.popExtent rp
  | .xthl => { regs := [.h, .l], reads := [s.sp, s.sp + 1], stores := [s.sp, s.sp + 1] }
  | .sphl => { sp := true }
  | .ret => s.retExtent
  | .rnz => s.onlyIf .nz s.retExtent
  | .rz => s.onlyIf .z s.retExtent
  | .rnc => s.onlyIf .nc s.retExtent
  | .rc => s.onlyIf .c s.retExtent
  | .rpo => s.onlyIf .po s.retExtent
  | .rpe => s.onlyIf .pe s.retExtent
  | .rp => s.onlyIf .p s.retExtent
  | .rm => s.onlyIf .m s.retExtent
  | .ei | .di => { ie := true }
  | .undoc op => s.undocExtent op
  | .cpi _ | .cmc | .stc | .jmp _ | .jnz _ | .jz _ | .jnc _ | .jc _ | .jpo _ | .jpe _ | .jp _ | .jm _ | .pchl
  | .outp _ | .hlt | .nop => {}

/-- What an instruction could have written or read. -/
def State.extent (s : State) (i : Instr) : Extent := { s.placesTouched i with flags := flagMask s.cfg.daaSign i }

end Sys2Proof.Machine
end

