-- ==== Sys2Proof/Machine/Arithmetic.lean ====
section
/-!
DEFINITION. Arithmetic (42_arithmetic.md). A meaning starts with `pc` past the instruction (assumption log 11).
-/
namespace Sys2Proof.Machine

/-- `A <- r` and the flags of an add or subtract (R600, R606). -/
def State.putSum (s : State) (x : Sum) : State := { s with a := x.r, f := sumFlags x s.f }

/-- The add family on the second operand `v` (R600 to R605). -/
def State.addToA (s : State) (v : Byte) (cin : Bool) : State := s.putSum (add8 s.a v cin)

/-- The subtract family on the second operand `v`, with the adder's carry-in (R606 to R611). -/
def State.subFromA (s : State) (v : Byte) (cin : Bool) : State := s.putSum (sub8 s.cfg.subCarry s.a v cin)

/-- The carry-in of SBB and SBI (R410). -/
def State.borrowIn (s : State) : Bool := sbbCin s.cfg.sbbBorrowIn (flagCY s.f)

/-- ADD (R600, R601). -/
def execAdd (src : Operand) (s : State) : Host.Outcome State Fault Refusal :=
  (s.readOperand src).finish (s.extent (.add src)) fun v s => .next (s.addToA v false)

/-- ADC (R602, R603). -/
def execAdc (src : Operand) (s : State) : Host.Outcome State Fault Refusal :=
  (s.readOperand src).finish (s.extent (.adc src)) fun v s => .next (s.addToA v (flagCY s.f))

/-- ADI (R604). -/
def execAdi (d8 : Byte) (s : State) : Host.Outcome State Fault Refusal := .next (s.addToA d8 false)

/-- ACI (R605). -/
def execAci (d8 : Byte) (s : State) : Host.Outcome State Fault Refusal := .next (s.addToA d8 (flagCY s.f))

/-- SUB (R606, R607). -/
def execSub (src : Operand) (s : State) : Host.Outcome State Fault Refusal :=
  (s.readOperand src).finish (s.extent (.sub src)) fun v s => .next (s.subFromA v true)

/-- SBB (R608, R609). -/
def execSbb (src : Operand) (s : State) : Host.Outcome State Fault Refusal :=
  (s.readOperand src).finish (s.extent (.sbb src)) fun v s => .next (s.subFromA v s.borrowIn)

/-- SUI (R610). -/
def execSui (d8 : Byte) (s : State) : Host.Outcome State Fault Refusal := .next (s.subFromA d8 true)

/-- SBI (R611). -/
def execSbi (d8 : Byte) (s : State) : Host.Outcome State Fault Refusal := .next (s.subFromA d8 s.borrowIn)

/-- INR (R612, R613). -/
def execInr (dst : Operand) (s : State) : Host.Outcome State Fault Refusal :=
  (s.readOperand dst).finish (s.extent (.inr dst)) fun old t =>
    (t.writeOperand dst (old + 1)).finish (s.extent (.inr dst)) fun _ u =>
      .next { u with f := stepFlags (old + 1) (incAC u.cfg.incDecAc old (old + 1)) u.f }

/-- DCR (R614, R615). -/
def execDcr (dst : Operand) (s : State) : Host.Outcome State Fault Refusal :=
  (s.readOperand dst).finish (s.extent (.dcr dst)) fun old t =>
    (t.writeOperand dst (old - 1)).finish (s.extent (.dcr dst)) fun _ u =>
      .next { u with f := stepFlags (old - 1) (decAC u.cfg.incDecAc (old - 1)) u.f }

/-- INX (R616). -/
def execInx (rp : Pair) (s : State) : Host.Outcome State Fault Refusal :=
  .next (s.setPair rp (s.getPair rp + 1))

/-- DCX (R617). -/
def execDcx (rp : Pair) (s : State) : Host.Outcome State Fault Refusal :=
  .next (s.setPair rp (s.getPair rp - 1))

/-- DAD (R618). -/
def execDad (rp : Pair) (s : State) : Host.Outcome State Fault Refusal :=
  let v := s.getPair rp
  let x := s.hl
  .next { s.setHL (x + v) with f := setCY (dadCY s.cfg.dadCarry x v) s.f }

/-- DAA (R619). -/
def execDaa (s : State) : Host.Outcome State Fault Refusal :=
  .next { s with a := s.a + daaCorr s.a s.f, f := daaFlags s.cfg.daaSign s.a s.f }

end Sys2Proof.Machine
end

