-- ==== Sys2Proof/Machine/DataMove.lean ====
section
/-!
DEFINITION. Data move and immediate load (41_data_move.md). A meaning starts with `pc` past the instruction: its
opcode and operand bytes have been fetched (40_engine.md R401; assumption log 11). No instruction of this file writes a flag.
-/
namespace Sys2Proof.Machine

/-- MOV (R500, R501, R502). -/
def execMov (dst src : Operand) (s : State) : Host.Outcome State Fault Refusal :=
  ((s.readOperand src).andThen fun v s => s.writeOperand dst v).outcome (s.extent (.mov dst src))

/-- MVI (R503, R504). -/
def execMvi (dst : Operand) (d8 : Byte) (s : State) : Host.Outcome State Fault Refusal :=
  (s.writeOperand dst d8).outcome (s.extent (.mvi dst d8))

/-- LXI (R505). -/
def execLxi (rp : Pair) (d16 : Addr) (s : State) : Host.Outcome State Fault Refusal :=
  .next (s.setPair rp d16)

/-- LDA (R506). -/
def execLda (a16 : Addr) (s : State) : Host.Outcome State Fault Refusal :=
  (s.readByte a16).finish (s.extent (.lda a16)) fun v s => .next { s with a := v }

/-- STA (R507). -/
def execSta (a16 : Addr) (s : State) : Host.Outcome State Fault Refusal :=
  (s.writeByte a16 s.a).outcome (s.extent (.sta a16))

/-- LHLD (R508): L from `a16`, H from `a16 + 1`. -/
def execLhld (a16 : Addr) (s : State) : Host.Outcome State Fault Refusal :=
  (s.readWord a16).finish (s.extent (.lhld a16)) fun v s => .next (s.setHL v)

/-- SHLD (R509): L to `a16`, H to `a16 + 1`. -/
def execShld (a16 : Addr) (s : State) : Host.Outcome State Fault Refusal :=
  (s.writeWord a16 s.hl).outcome (s.extent (.shld a16))

/-- LDAX (R510). -/
def execLdax (rp : IndexPair) (s : State) : Host.Outcome State Fault Refusal :=
  (s.readByte (s.getIndexPair rp)).finish (s.extent (.ldax rp)) fun v s => .next { s with a := v }

/-- STAX (R511). -/
def execStax (rp : IndexPair) (s : State) : Host.Outcome State Fault Refusal :=
  (s.writeByte (s.getIndexPair rp) s.a).outcome (s.extent (.stax rp))

/-- XCHG (R512). -/
def execXchg (s : State) : Host.Outcome State Fault Refusal :=
  .next ((s.setHL s.de).setDE s.hl)

end Sys2Proof.Machine
end

