-- ==== Sys2Proof/Machine/Control.lean ====
section
/-!
DEFINITION. Jumps, calls, returns, restarts and PCHL (46_control.md). A meaning starts with `pc` past the instruction,
its operand bytes fetched whether or not a condition holds (R901; assumption log 11). No flag is written.
-/
namespace Sys2Proof.Machine

/-- `pc <- a` (R900). -/
def State.jump (s : State) (a : Addr) : Host.Outcome State Fault Refusal := .next { s with pc := a }

/-- `Push16(pc); pc <- a` (R910, R930). -/
def State.callTo (s : State) (a : Addr) : Host.Outcome State Fault Refusal :=
  (s.push16 s.pc).finish s.pushExtent fun _ s => s.jump a

/-- `pc <- Pop16()` (R920). -/
def State.ret (s : State) : Host.Outcome State Fault Refusal := s.pop16.finish s.retExtent fun v s => s.jump v

/-- `if Cond: pc <- a` (R901). -/
def State.jumpIf (s : State) (k : Cond) (a : Addr) : Host.Outcome State Fault Refusal :=
  if k.holds s.f then s.jump a else .next s

/-- `if Cond: Push16(pc); pc <- a` (R911). -/
def State.callIf (s : State) (k : Cond) (a : Addr) : Host.Outcome State Fault Refusal :=
  if k.holds s.f then s.callTo a else .next s

/-- `if Cond: pc <- Pop16()` (R921). -/
def State.retIf (s : State) (k : Cond) : Host.Outcome State Fault Refusal :=
  if k.holds s.f then s.ret else .next s

/-- JMP (R900). -/
def execJmp (a16 : Addr) (s : State) : Host.Outcome State Fault Refusal := s.jump a16

/-- JNZ: jump if not zero (Z = 0) (R901). -/
def execJnz (a16 : Addr) (s : State) : Host.Outcome State Fault Refusal := s.jumpIf .nz a16

/-- JZ: jump if zero (Z = 1) (R902). -/
def execJz (a16 : Addr) (s : State) : Host.Outcome State Fault Refusal := s.jumpIf .z a16

/-- JNC: jump if no carry (CY = 0) (R903). -/
def execJnc (a16 : Addr) (s : State) : Host.Outcome State Fault Refusal := s.jumpIf .nc a16

/-- JC: jump if carry (CY = 1) (R904). -/
def execJc (a16 : Addr) (s : State) : Host.Outcome State Fault Refusal := s.jumpIf .c a16

/-- JPO: jump if parity odd (P = 0) (R905). -/
def execJpo (a16 : Addr) (s : State) : Host.Outcome State Fault Refusal := s.jumpIf .po a16

/-- JPE: jump if parity even (P = 1) (R906). -/
def execJpe (a16 : Addr) (s : State) : Host.Outcome State Fault Refusal := s.jumpIf .pe a16

/-- JP: jump if plus (S = 0) (R907). -/
def execJp (a16 : Addr) (s : State) : Host.Outcome State Fault Refusal := s.jumpIf .p a16

/-- JM: jump if minus (S = 1) (R908). -/
def execJm (a16 : Addr) (s : State) : Host.Outcome State Fault Refusal := s.jumpIf .m a16

/-- CALL (R910). -/
def execCall (a16 : Addr) (s : State) : Host.Outcome State Fault Refusal := s.callTo a16

/-- CNZ: call if not zero (Z = 0) (R911). -/
def execCnz (a16 : Addr) (s : State) : Host.Outcome State Fault Refusal := s.callIf .nz a16

/-- CZ: call if zero (Z = 1) (R912). -/
def execCz (a16 : Addr) (s : State) : Host.Outcome State Fault Refusal := s.callIf .z a16

/-- CNC: call if no carry (CY = 0) (R913). -/
def execCnc (a16 : Addr) (s : State) : Host.Outcome State Fault Refusal := s.callIf .nc a16

/-- CC: call if carry (CY = 1) (R914). -/
def execCc (a16 : Addr) (s : State) : Host.Outcome State Fault Refusal := s.callIf .c a16

/-- CPO: call if parity odd (P = 0) (R915). -/
def execCpo (a16 : Addr) (s : State) : Host.Outcome State Fault Refusal := s.callIf .po a16

/-- CPE: call if parity even (P = 1) (R916). -/
def execCpe (a16 : Addr) (s : State) : Host.Outcome State Fault Refusal := s.callIf .pe a16

/-- CP: call if plus (S = 0) (R917). -/
def execCp (a16 : Addr) (s : State) : Host.Outcome State Fault Refusal := s.callIf .p a16

/-- CM: call if minus (S = 1) (R918). -/
def execCm (a16 : Addr) (s : State) : Host.Outcome State Fault Refusal := s.callIf .m a16

/-- RET (R920). -/
def execRet (s : State) : Host.Outcome State Fault Refusal := s.ret

/-- RNZ: return if not zero (Z = 0) (R921). -/
def execRnz (s : State) : Host.Outcome State Fault Refusal := s.retIf .nz

/-- RZ: return if zero (Z = 1) (R922). -/
def execRz (s : State) : Host.Outcome State Fault Refusal := s.retIf .z

/-- RNC: return if no carry (CY = 0) (R923). -/
def execRnc (s : State) : Host.Outcome State Fault Refusal := s.retIf .nc

/-- RC: return if carry (CY = 1) (R924). -/
def execRc (s : State) : Host.Outcome State Fault Refusal := s.retIf .c

/-- RPO: return if parity odd (P = 0) (R925). -/
def execRpo (s : State) : Host.Outcome State Fault Refusal := s.retIf .po

/-- RPE: return if parity even (P = 1) (R926). -/
def execRpe (s : State) : Host.Outcome State Fault Refusal := s.retIf .pe

/-- RP: return if plus (S = 0) (R927). -/
def execRp (s : State) : Host.Outcome State Fault Refusal := s.retIf .p

/-- RM: return if minus (S = 1) (R928). -/
def execRm (s : State) : Host.Outcome State Fault Refusal := s.retIf .m

/-- RST (R930): the target is `n * 8` (R310). -/
def execRst (n : BitVec 3) (s : State) : Host.Outcome State Fault Refusal := s.callTo (n.setWidth 16 * 8)

/-- PCHL (R931). -/
def execPchl (s : State) : Host.Outcome State Fault Refusal := s.jump s.hl

end Sys2Proof.Machine
end

