-- ==== Sys2Proof/Machine/IoSystem.lean ====
section
/-!
DEFINITION. Port I/O, the interrupt-enable flag, halt, no-op and the undocumented opcodes (47_io_system.md). No flag
is written. A meaning starts with `pc` past the instruction (assumption log 11).
-/
namespace Sys2Proof.Machine

/-- IN (R1000): A takes the byte the host supplies, a free value (assumption log 7). -/
def execIn (p8 : Byte) (s : State) : Host.Outcome State Fault Refusal :=
  .next { s with
    a := Config.hostIn s.inDraws p8
    inDraws := s.inDraws + 1
    ports := s.ports ++ [.asked p8] }

/-- OUT (R1001): the host's event, and the bank-select operations. -/
def execOut (p8 : Byte) (s : State) : Host.Outcome State Fault Refusal :=
  .next { s.bankSelect p8 s.a with ports := s.ports ++ [.sent p8 s.a] }

/-- EI (R1002). -/
def execEi (s : State) : Host.Outcome State Fault Refusal := .next { s with ie := true }

/-- DI (R1003). -/
def execDi (s : State) : Host.Outcome State Fault Refusal := .next { s with ie := false }

/-- HLT (R1004). -/
def execHlt (s : State) : Host.Outcome State Fault Refusal := .next { s with stop := true }

/-- NOP (R1005). -/
def execNop (s : State) : Host.Outcome State Fault Refusal := .next s

/-- An undocumented opcode as the silicon of the 8080 runs it (R1006, `UNDOC_POLICY = alias`); the operand bytes are
fetched here. -/
def State.undocAsAliased (s : State) (op : Byte) : Host.Outcome State Fault Refusal :=
  if op = 0xCB then s.fetch16.finish (s.undocExtent op) fun a s => s.jump a
  else if op = 0xD9 then s.ret
  else if op = 0xDD ∨ op = 0xED ∨ op = 0xFD then s.fetch16.finish (s.undocExtent op) fun a s => s.callTo a
  else .next s

/-- UNDOC (R1006), under each `UNDOC_POLICY`. -/
def execUndoc (op : Byte) (s : State) : Host.Outcome State Fault Refusal :=
  match s.cfg.undocPolicy with
  | .fault => (raise .illegalOpcode s : Res Unit).outcome (s.extent (.undoc op))
  | .nop => .next s
  | .siliconAlias => s.undocAsAliased op

end Sys2Proof.Machine
end

