-- ==== Sys2Proof/Machine/Logical.lean ====
section
/-!
DEFINITION. Logical, compare and flag instructions (43_logical_compare.md). A meaning starts with `pc` past the
instruction (assumption log 11).
-/
namespace Sys2Proof.Machine

/-- `LogicAND(v)`: AC is bit 3 of `A_old | v` (R715). -/
def State.logicAnd (s : State) (v : Byte) : State :=
  { s with a := s.a &&& v, f := logicFlags (s.a &&& v) ((s.a ||| v).getLsbD 3) s.f }

/-- `LogicXOR(v)` (R715). -/
def State.logicXor (s : State) (v : Byte) : State :=
  { s with a := s.a ^^^ v, f := logicFlags (s.a ^^^ v) false s.f }

/-- `LogicOR(v)` (R715). -/
def State.logicOr (s : State) (v : Byte) : State :=
  { s with a := s.a ||| v, f := logicFlags (s.a ||| v) false s.f }

/-- `Compare(v)`: A is not written (R716). -/
def State.compare (s : State) (v : Byte) : State :=
  { s with f := sumFlags (sub8 s.cfg.subCarry s.a v true) s.f }

/-- ANA (R700, R701). -/
def execAna (src : Operand) (s : State) : Host.Outcome State Fault Refusal :=
  (s.readOperand src).finish (s.extent (.ana src)) fun v s => .next (s.logicAnd v)

/-- XRA (R702, R703). -/
def execXra (src : Operand) (s : State) : Host.Outcome State Fault Refusal :=
  (s.readOperand src).finish (s.extent (.xra src)) fun v s => .next (s.logicXor v)

/-- ORA (R704, R705). -/
def execOra (src : Operand) (s : State) : Host.Outcome State Fault Refusal :=
  (s.readOperand src).finish (s.extent (.ora src)) fun v s => .next (s.logicOr v)

/-- CMP (R706, R707). -/
def execCmp (src : Operand) (s : State) : Host.Outcome State Fault Refusal :=
  (s.readOperand src).finish (s.extent (.cmp src)) fun v s => .next (s.compare v)

/-- ANI (R708). -/
def execAni (d8 : Byte) (s : State) : Host.Outcome State Fault Refusal := .next (s.logicAnd d8)

/-- XRI (R709). -/
def execXri (d8 : Byte) (s : State) : Host.Outcome State Fault Refusal := .next (s.logicXor d8)

/-- ORI (R710). -/
def execOri (d8 : Byte) (s : State) : Host.Outcome State Fault Refusal := .next (s.logicOr d8)

/-- CPI (R711). -/
def execCpi (d8 : Byte) (s : State) : Host.Outcome State Fault Refusal := .next (s.compare d8)

/-- CMA (R712). -/
def execCma (s : State) : Host.Outcome State Fault Refusal := .next { s with a := s.a ^^^ 0xFF }

/-- CMC (R713). -/
def execCmc (s : State) : Host.Outcome State Fault Refusal := .next { s with f := setCY (!flagCY s.f) s.f }

/-- STC (R714). -/
def execStc (s : State) : Host.Outcome State Fault Refusal := .next { s with f := setCY true s.f }

end Sys2Proof.Machine
end

