-- ==== Sys2Proof/Machine/Rotate.lean ====
section
/-!
DEFINITION. The accumulator rotates (44_rotate.md): A and Carry only. A meaning starts with `pc` past the instruction
(assumption log 11).
-/
namespace Sys2Proof.Machine

/-- `A[6:0] : c`, bit 0 taken from `c` (R800, R802). -/
def rotateIn0 (a : Byte) (c : Bool) : Byte := a.extractLsb' 0 7 ++ BitVec.ofBool c

/-- `c : A[7:1]`, bit 7 taken from `c` (R801, R803). -/
def rotateIn7 (a : Byte) (c : Bool) : Byte := BitVec.ofBool c ++ a.extractLsb' 1 7

/-- RLC (R800). -/
def execRlc (s : State) : Host.Outcome State Fault Refusal :=
  .next { s with a := rotateIn0 s.a (s.a.getLsbD 7), f := setCY (s.a.getLsbD 7) s.f }

/-- RRC (R801). -/
def execRrc (s : State) : Host.Outcome State Fault Refusal :=
  .next { s with a := rotateIn7 s.a (s.a.getLsbD 0), f := setCY (s.a.getLsbD 0) s.f }

/-- RAL (R802). -/
def execRal (s : State) : Host.Outcome State Fault Refusal :=
  .next { s with a := rotateIn0 s.a (flagCY s.f), f := setCY (s.a.getLsbD 7) s.f }

/-- RAR (R803). -/
def execRar (s : State) : Host.Outcome State Fault Refusal :=
  .next { s with a := rotateIn7 s.a (flagCY s.f), f := setCY (s.a.getLsbD 0) s.f }

end Sys2Proof.Machine
end

