-- ==== Sys2Proof/Machine/Stack.lean ====
section
/-!
DEFINITION. Stack instructions (45_stack.md). No flag is written but by POP PSW, which writes all eight bits of FLAGS.
A meaning starts with `pc` past the instruction (assumption log 11).
-/
namespace Sys2Proof.Machine

/-- PUSH (R850, R851). -/
def execPush (rp : StackPair) (s : State) : Host.Outcome State Fault Refusal :=
  (s.push16 (s.getStackPair rp)).outcome (s.extent (.push rp))

/-- POP (R852, R853). -/
def execPop (rp : StackPair) (s : State) : Host.Outcome State Fault Refusal :=
  s.pop16.finish (s.extent (.pop rp)) fun v s => .next (s.setStackPair rp v)

/-- XTHL (R854): both reads, then both writes, `sp` unchanged. -/
def execXthl (s : State) : Host.Outcome State Fault Refusal :=
  (s.readWord s.sp).finish (s.extent .xthl) fun v t =>
    (t.writeWord t.sp t.hl).finish (s.extent .xthl) fun _ u => .next (u.setHL v)

/-- SPHL (R855). -/
def execSphl (s : State) : Host.Outcome State Fault Refusal := .next { s with sp := s.hl }

end Sys2Proof.Machine
end

