-- ==== Sys2Proof/Machine/Fetch.lean ====
section
/-!
DEFINITION. The fetch of an instruction and the frame of a step (40_engine.md R400 to R402, R412), and placing an
instruction where the next step fetches it.
-/
namespace Sys2Proof.Machine

/-- The opcode fetch, the decode, and the operand fetches that the opcode asks for (R400, R401). -/
def State.fetchInstr (s : State) : Res Instr :=
  s.fetch8.andThen fun op s =>
    match decodeOp op with
    | .bare i => .ok i s
    | .imm8 k => s.fetch8.andThen fun d s => .ok (k d) s
    | .imm16 k => s.fetch16.andThen fun v s => .ok (k v) s

/-- The operand words a 16-bit operand fetch that fails could have been reading: any, or, where the low byte was read,
those with that low byte (R402). -/
def State.operandWords (s : State) : List Addr :=
  match s.fetch8 with
  | .ok l _ => (List.range 256).map fun h => join (BitVec.ofNat 8 h) l
  | .raised _ _ => everyAddr

/-- What an instruction could have written or read whose operand fetch fails, by its opcode's row (R411). `pc` is past the
opcode. Only the addresses it accesses can depend on the operand. -/
def State.rowExtent (s : State) (r : Row) : Extent :=
  match r with
  | .bare i => s.extent i
  | .imm8 k => s.extent (k 0)
  | .imm16 k =>
    let may := fun (f : Extent → List Addr) => everyAddr.filter fun a =>
      s.operandWords.any fun v => (f (s.extent (k v))).contains a
    { s.extent (k 0) with reads := [s.pc, s.pc + 1] ++ may Extent.reads, stores := may Extent.stores }

/-- What could have been written by an instruction whose fetch fails: anything, where it is the opcode's, since no
opcode is known then. -/
def State.fetchExtent (s : State) : Extent :=
  match s.fetch8 with
  | .ok op t => t.rowExtent (decodeOp op)
  | .raised _ _ => Extent.everything

/-- A step: only when `stop = 0` (R400), one instruction from its opcode fetch to its last write. -/
def State.stepWith (run : Instr → State → Host.Outcome State Fault Refusal) (s : State) :
    Host.Outcome State Fault Refusal :=
  if s.stop then .refused .runEnded else s.fetchInstr.finish s.fetchExtent run

/-- Put the three bytes of the word `w` at `pc`, `pc + 1` and `pc + 2`, and let the machine take a step. -/
def State.placeWord (s : State) (w : Nat) : State :=
  let s1 := s.poke s.pc (BitVec.ofNat 8 w)
  let s2 := s1.poke (s.pc + 1) (BitVec.ofNat 8 (w / 256))
  let s3 := s2.poke (s.pc + 2) (BitVec.ofNat 8 (w / 65536))
  { s3 with stop := false }

end Sys2Proof.Machine
end

