-- ==== Sys2Proof/Machine/Step.lean ====
section
/-!
DEFINITION. One step of the machine (40_engine.md R400).
-/
namespace Sys2Proof.Machine

/-- One step: fetch, decode, execute (R400, R412). -/
def step (s : State) : Host.Outcome State Fault Refusal := s.stepWith exec

/-- The state with a table word's instruction where the next step fetches it, the bits from `nbits` on zeros.
Assumption log 17. -/
def State.withFetchWord (s : State) (nbits w : Nat) : State := s.placeWord (w % 2 ^ nbits)

end Sys2Proof.Machine
end

