-- ==== Sys2Proof/Machine/Launch.lean ====
section
/-!
DEFINITION. The launch of a run (70_reset_and_hazards.md R1200, 60_exceptions.md R1140): the parameters are checked,
and the reset state is built from them, the initial image and the draws of the reset.
-/
namespace Sys2Proof.Machine

/-- The values a reset draws under `RESET_REGS = arbitrary` (R104, R109, R113), and the unspecified bytes of the empty
lines (R125). -/
structure Draws where
  b : Byte
  c : Byte
  d : Byte
  e : Byte
  h : Byte
  l : Byte
  f : Byte
  a : Byte
  sp : Addr
  lineData : Nat → Vector Byte lineSize

/-- What the host gives at launch (R1140). `image` may list its cells in any order. -/
structure LaunchInput where
  cfg : Config
  image : List Host.Cell
  draws : Draws

/-- A register slot's reset value under `RESET_REGS` (R104). -/
def resetValue {w : Nat} (k : ResetRegs) (v : BitVec w) : BitVec w :=
  match k with
  | .arbitrary => v
  | .zero => 0#w

/-- The reset state (R1200, R1201). -/
def launchState (x : LaunchInput) : State where
  b := resetValue x.cfg.resetRegs x.draws.b
  c := resetValue x.cfg.resetRegs x.draws.c
  d := resetValue x.cfg.resetRegs x.draws.d
  e := resetValue x.cfg.resetRegs x.draws.e
  h := resetValue x.cfg.resetRegs x.draws.h
  l := resetValue x.cfg.resetRegs x.draws.l
  f := resetValue x.cfg.resetRegs x.draws.f
  a := resetValue x.cfg.resetRegs x.draws.a
  pc := 0
  sp := resetValue x.cfg.resetRegs x.draws.sp
  ie := false
  stop := false
  fatal := false
  bank := Vector.replicate nblk 0
  mmuBlock := 0
  mem :=
    { lines := (List.range x.cfg.nLines).map fun i => { tag := none, dirty := false, data := x.draws.lineData i }
      image := Memory.ofCells x.image
      calls := [] }
  ports := []
  inDraws := 0
  cfg := x.cfg

/-- The launch: a configuration that breaks R12 is refused (R1200). -/
def launch (x : LaunchInput) : Host.Outcome State Fault Refusal :=
  if x.cfg.valid then .next (launchState x) else .refused .badConfiguration

/-- The launch `State.reset` stands for: `Config.standard`, nothing listed in the image, every draw zero. -/
def standardLaunch : LaunchInput where
  cfg := Config.standard
  image := []
  draws :=
    { b := 0, c := 0, d := 0, e := 0, h := 0, l := 0, f := 0, a := 0, sp := 0
      lineData := fun _ => Line.empty.data }

end Sys2Proof.Machine
end

