-- ==== Sys2Proof/Machine/RunLoop.lean ====
section
/-!
DEFINITION. The host's run loop and how a run's end is classified (40_engine.md R414, 60_exceptions.md R1121, R1141).
-/
namespace Sys2Proof.Machine

/-- How a run stands (R414). -/
inductive RunStatus where
  /-- Case (a): the last step requested the stop, which only HLT does. -/
  | halted (s : State)
  /-- Case (b): the host requested the stop between two steps. -/
  | stoppedByHost (s : State)
  /-- Case (c): the last step's outcome was a fault, which carries the state it leaves. -/
  | faulted (r : Fault)
  /-- The model gave no step. -/
  | refused (r : Refusal)
  /-- The run goes on past the polls given. -/
  | running (s : State)
deriving Repr

/-- The final state of a run that has ended, which the host reads (R1140); for a run that goes on, the state so far. -/
def RunStatus.final : RunStatus → Option State
  | .halted s | .stoppedByHost s | .running s => some s
  | .faulted r => some r.state
  | .refused _ => none

/-- The run loop: `stop` is checked before each step, and after each step the host may request a stop (`polls`, one
for each step). A stop the last step requested is classified before the host's own (R1121). -/
def runLoop : List Bool → State → RunStatus
  | [], s => if s.stop then .stoppedByHost s else .running s
  | hostStops :: polls, s =>
    if s.stop then .stoppedByHost s
    else
      match step s with
      | .fault r => .faulted r
      | .refused r => .refused r
      | .next t =>
        if t.stop then .halted t
        else if hostStops then .stoppedByHost t.hostStop
        else runLoop polls t

end Sys2Proof.Machine
end

