-- ==== Sys2Proof/Safety.lean ====
section
/-!
DEFINITION. The terms claims use: the invariant of the machine, the launch premise on the storage, what an access may
change, which accesses an instruction makes and which of them fail, what an instruction keeps, how FLAGS is written, and when
two states differ only in their caches.
-/
namespace Sys2Proof.Machine

/-! ## The invariant -/

/-- The memory system's invariant. In a state that breaks it no run is: two lines with one tag, or a clean line whose
bytes are not those of the image. -/
structure MemSys.Ok (m : MemSys) : Prop where
  /-- The image is in canonical form. -/
  imageWf : Memory.wf m.image = true
  /-- There is a line (R12: `N_LINES ≥ 1`). -/
  nonempty : m.lines ≠ []
  /-- "tags among resident lines are pairwise distinct" (R124). -/
  distinct : (m.lines.filterMap fun x => x.tag).Nodup
  /-- A clean resident line holds what the image holds (R232, R234, R238). -/
  clean : ∀ x ∈ m.lines, ∀ n, x.tag = some n → x.dirty = false → x.data = (blockOf m.image n).data

/-- A storage block of the core's range (R222). -/
def inCore (k : Config) (n : Nat) : Prop :=
  k.storageOffset ≤ n ∧ n < k.storageOffset + k.banks * 65536 / lineSize

/-- The machine's invariant: it holds after every launch and every step keeps it. -/
structure State.Inv (s : State) : Prop where
  mem : s.mem.Ok
  /-- There are `N_LINES` lines (R124). -/
  lineCount : s.mem.lines.length = s.cfg.nLines
  /-- Every resident line holds a block of the core's range (R222). -/
  tags : ∀ x ∈ s.mem.lines, ∀ n, x.tag = some n → inCore s.cfg n
  /-- The parameters meet R12. -/
  config : s.cfg.valid = true
  /-- Every Bank Map entry names a bank (R118). -/
  banks : ∀ i : BitVec 4, s.bank[i.toNat]'i.isLt < s.cfg.banks
  /-- "setting it also sets stop" (R117). -/
  signals : s.fatal = true → s.stop = true

/-- The launch premise of R237 and R1210: every block of the core's range has a correct checksum in the image. -/
def State.Sound (s : State) : Prop := ∀ n, inCore s.cfg n → (blockOf s.mem.image n).sound = true

/-! ## What an access changes -/

/-- No byte of the logical memory differs (R236). -/
def SameContent (m m' : MemSys) : Prop := ∀ n j, m'.logical n j = m.logical n j

/-- The storage block and byte a guest address names (R220). -/
def State.loc (s : State) (a : Addr) : Nat × Fin lineSize := (s.blk a, off a)

/-- A logical memory with a byte stored at a guest address; above `MAX_ADDR` nothing is stored (R211). -/
def State.stored (s : State) (a : Addr) (v : Byte) (L : Nat → Fin lineSize → Byte) : Nat → Fin lineSize → Byte :=
  fun n j => if s.unmapped a = false ∧ (n, j) = s.loc a then v else L n j

/-- A logical memory with a word stored, low byte at the lower address (R201). -/
def State.storedWord (s : State) (a v : Addr) (L : Nat → Fin lineSize → Byte) : Nat → Fin lineSize → Byte :=
  s.stored (a + 1) (hi v) (s.stored a (lo v) L)

/-- `m` is the memory system after a byte was stored at a guest address. -/
def StoredAt (s : State) (a : Addr) (v : Byte) (m : MemSys) : Prop :=
  ∀ n j, m.logical n j = s.stored a v s.mem.logical n j

/-- `m` is the memory system after a word was stored at a guest address. -/
def StoredWordAt (s : State) (a v : Addr) (m : MemSys) : Prop :=
  ∀ n j, m.logical n j = s.storedWord a v s.mem.logical n j

/-- The instruction is the one byte `op`, and a step where that byte is at `pc` is the instruction's meaning with `pc`
past it and no logical byte changed (R400 to R402). -/
def RunsOneByte (i : Instr) (op : Byte) : Prop :=
  encode i = [op] ∧
  ∀ s : State, s.Inv → s.Sound → s.stop = false → s.guestByte s.pc = op →
    ∃ m, SameContent s.mem m ∧ step s = exec i { s with pc := s.pc + 1, mem := m }

/-- What reading an operand may do to the memory system: nothing for a register; for M no logical byte changes. -/
def OperandRead (s : State) (o : Operand) (m : MemSys) : Prop :=
  SameContent s.mem m ∧ (o ≠ .m → m = s.mem)

/-- Reading the operand completes: always for a register; for M where the storage is sound. -/
def State.ReadyFor (s : State) (o : Operand) : Prop := o = .m → s.Inv ∧ s.Sound

/-- An access to this guest address loads a line whose checksum is wrong (R234, R1100). -/
def State.Failing (s : State) (a : Addr) : Prop :=
  s.unmapped a = false ∧ s.mem.lookup (s.blk a) = none ∧ (blockOf s.mem.image (s.blk a)).sound = false

/-! ## Sequences of accesses (R250) -/

/-- What the rest of the machine can ask of the memory: a byte read, a byte written, and an `OUT` that may change the
Bank Map. -/
inductive Access where
  | read (a : Addr)
  | write (a : Addr) (v : Byte)
  | select (p v : Byte)

/-- The accesses one after another, and the bytes read. -/
def State.runAccesses : State → List Access → Res (List Byte)
  | s, [] => .ok [] s
  | s, .read a :: t =>
    (s.readByte a).andThen fun v u => (u.runAccesses t).andThen fun vs u => .ok (v :: vs) u
  | s, .write a v :: t => (s.writeByte a v).andThen fun _ u => u.runAccesses t
  | s, .select p v :: t => (s.bankSelect p v).runAccesses t

/-- The bytes the reads of the sequence give under R250, from a memory without a cache: `L` is the byte last written at
each place of the storage, or the initial one. Only the Bank Map of `s` is looked at. -/
def State.expectedReads : State → (Nat → Fin lineSize → Byte) → List Access → List Byte
  | _, _, [] => []
  | s, L, .read a :: t =>
    (if s.unmapped a then 0xFF else L (s.loc a).1 (s.loc a).2) :: s.expectedReads L t
  | s, L, .write a v :: t => s.expectedReads (s.stored a v L) t
  | s, L, .select p v :: t => (s.bankSelect p v).expectedReads L t

/-- Requests for these blocks one after another; `none` where one fails its integrity check. -/
def MemSys.requestAll : MemSys → List Nat → Option MemSys
  | m, [] => some m
  | m, n :: t =>
    match m.resolve n with
    | .ready _ u => u.requestAll t
    | .bad _ => none

/-! ## Which flag a condition tests, and what an instruction accesses -/

/-- The FLAGS bit a conditional instruction tests, and the value that makes it take effect (R305). -/
def condition : Instr → Option (Nat × Bool)
  | .jnz _ | .cnz _ | .rnz => some (6, false)
  | .jz _ | .cz _ | .rz => some (6, true)
  | .jnc _ | .cnc _ | .rnc => some (0, false)
  | .jc _ | .cc _ | .rc => some (0, true)
  | .jpo _ | .cpo _ | .rpo => some (2, false)
  | .jpe _ | .cpe _ | .rpe => some (2, true)
  | .jp _ | .cp _ | .rp => some (7, false)
  | .jm _ | .cm _ | .rm => some (7, true)
  | .mov _ _ | .mvi _ _ | .lxi _ _ | .lda _ | .sta _ | .lhld _ | .shld _ | .ldax _ | .stax _ | .xchg | .add _
  | .adc _ | .adi _ | .aci _ | .sub _ | .sbb _ | .sui _ | .sbi _ | .inr _ | .dcr _ | .inx _ | .dcx _ | .dad _ | .daa
  | .ana _ | .xra _ | .ora _ | .cmp _ | .ani _ | .xri _ | .ori _ | .cpi _ | .cma | .cmc | .stc | .rlc | .rrc | .ral
  | .rar | .push _ | .pop _ | .xthl | .sphl | .jmp _ | .call _ | .ret | .rst _ | .pchl | .inp _ | .outp _ | .ei
  | .di | .hlt | .nop | .undoc _ => none

/-- A conditional instruction takes effect in this state; any other instruction always does. -/
def State.takes (s : State) (i : Instr) : Bool :=
  match condition i with
  | some (k, v) => s.f.getLsbD k == v
  | none => true

/-- The two reads of a word, low address first (R16). -/
def readsWord (a : Addr) : List Access := [.read a, .read (a + 1)]

/-- The two writes of a word, low address first (R16). -/
def writesWord (a v : Addr) : List Access := [.write a (lo v), .write (a + 1) (hi v)]

/-- The access of reading an operand: one for M, none for a register (R403). -/
def readsOperand (s : State) (o : Operand) : List Access :=
  match o with
  | .reg _ => []
  | .m => [.read s.hl]

/-- The access of writing an operand (R403). -/
def writesOperand (s : State) (o : Operand) (v : Byte) : List Access :=
  match o with
  | .reg _ => []
  | .m => [.write s.hl v]

/-- The accesses of an opcode that runs as an aliased instruction (R1006): RET's two reads, the operand fetch of JMP, or
the operand fetch and the push of CALL. -/
def undocAccesses (s : State) (op : Byte) : List Access :=
  match s.cfg.undocPolicy with
  | .fault => []
  | .nop => []
  | .siliconAlias =>
    if op = 0xCB then readsWord s.pc
    else if op = 0xD9 then readsWord s.sp
    else if op = 0xDD ∨ op = 0xED ∨ op = 0xFD then readsWord s.pc ++ writesWord (s.sp - 2) (s.pc + 2)
    else []

/-- The memory accesses of an instruction beyond its fetch, in order, with the bytes it writes (R205, R401). `pc` is
past the instruction. -/
def accessesOf (s : State) (i : Instr) : List Access :=
  match i with
  | .mov dst src => readsOperand s src ++ writesOperand s dst (s.operandByte src)
  | .mvi dst d8 => writesOperand s dst d8
  | .add o | .adc o | .sub o | .sbb o | .ana o | .xra o | .ora o | .cmp o => readsOperand s o
  | .inr o => readsOperand s o ++ writesOperand s o (s.operandByte o + 1)
  | .dcr o => readsOperand s o ++ writesOperand s o (s.operandByte o - 1)
  | .lda a => [.read a]
  | .ldax p => [.read (s.getIndexPair p)]
  | .sta a => [.write a s.a]
  | .stax p => [.write (s.getIndexPair p) s.a]
  | .lhld a => readsWord a
  | .shld a => writesWord a s.hl
  | .pop _ => readsWord s.sp
  | .push p => writesWord (s.sp - 2) (s.getStackPair p)
  | .xthl => readsWord s.sp ++ writesWord s.sp s.hl
  | .ret | .rnz | .rz | .rnc | .rc | .rpo | .rpe | .rp | .rm => if s.takes i then readsWord s.sp else []
  | .call _ | .rst _ | .cnz _ | .cz _ | .cnc _ | .cc _ | .cpo _ | .cpe _ | .cp _ | .cm _ =>
    if s.takes i then writesWord (s.sp - 2) s.pc else []
  | .undoc op => undocAccesses s op
  | .lxi _ _ | .xchg | .adi _ | .aci _ | .sui _ | .sbi _ | .inx _ | .dcx _ | .dad _ | .daa | .ani _ | .xri _
  | .ori _ | .cpi _ | .cma | .cmc | .stc | .rlc | .rrc | .ral | .rar | .sphl | .jmp _ | .jnz _ | .jz _ | .jnc _
  | .jc _ | .jpo _ | .jpe _ | .jp _ | .jm _ | .pchl | .inp _ | .outp _ | .ei | .di | .hlt | .nop => []

/-- The reads of an instruction's fetch: the opcode, and the operand bytes it asks for (R205, R300, R401). -/
def fetchAccesses (s : State) : List Access :=
  (List.range (instrLength (s.guestByte s.pc))).map fun k => .read (s.pc + BitVec.ofNat 16 k)

/-- The store of an access. -/
def Access.store : Access → Option (Addr × Byte)
  | .write a v => some (a, v)
  | .read _ => none
  | .select _ _ => none

/-- The bytes an instruction stores and where, in the order it stores them (R205). -/
def storeOf (s : State) (i : Instr) : List (Addr × Byte) := (accessesOf s i).filterMap Access.store

/-- A logical memory after these stores. -/
def State.storedAll (s : State) (w : List (Addr × Byte)) (L : Nat → Fin lineSize → Byte) :
    Nat → Fin lineSize → Byte :=
  w.foldl (fun L p => s.stored p.1 p.2 L) L

/-! ## Failing accesses, and what an instruction keeps -/

/-- The access loads a line whose checksum is wrong (R234, R1100). -/
def State.FailingAt (s : State) : Access → Prop
  | .read a => s.Failing a
  | .write a _ => s.Failing a
  | .select _ _ => False

/-- One of these accesses loads a line whose checksum is wrong, after those before it have been made (R1120). -/
def State.FailsIn (s : State) (xs : List Access) : Prop :=
  ∃ done x rest vs u, xs = done ++ x :: rest ∧ s.runAccesses done = .ok vs u ∧ u.FailingAt x

/-- The backend's buffers after these calls: each block's is the last one written to it (R240). -/
def buffersAfter (L : Nat → Buffer) : List BackendCall → Nat → Buffer
  | [] => L
  | .readBlock _ :: t => buffersAfter L t
  | .writeBlock n x :: t => buffersAfter (fun k => if k = n then x else L k) t

/-- From `m` to `m'` the core made backend calls, and the image is what they made of it (R126, R240). -/
def WrittenBack (m m' : MemSys) : Prop :=
  ∃ calls, m'.calls = m.calls ++ calls ∧ ∀ n, blockOf m'.image n = buffersAfter (blockOf m.image) calls n

/-- The line `x` holds the number `n` and the bytes of a block whose load failed its check (R234, D21), and the core made
the calls `after` since that load. -/
structure MemSys.FailedLoad (m : MemSys) (x : Line) (n : Nat) (after : List BackendCall) : Prop where
  line : x ∈ m.lines
  tag : x.tag = some n
  data : x.data = (blockOf m.image n).data
  calls : ∃ before, m.calls = before ++ .readBlock n :: after
  unsound : (blockOf m.image n).sound = false

/-- What an integrity failure of an instruction with this extent, in the state `s`, leaves of the line whose load failed:
it stands (D21), and where no access of the instruction is to another block it is the MRU line and its load the last
backend call. -/
def MemSys.KeepsFailed (m : MemSys) (w : Extent) (s : State) : Prop :=
  ∃ x n after, m.FailedLoad x n after ∧
    ((∀ a ∈ w.reads ++ w.stores, s.unmapped a = false → s.blk a = n) → after = [] ∧ m.lines.getLast? = some x)

/-- What lies outside an instruction's extent is as before, but for `pc` and the cache's lines: registers, FLAGS bits,
`sp`, `ie` and every logical byte (R411); and the image has changed by the core's `writeBlock` calls only. -/
structure Kept (w : Extent) (s t : State) : Prop where
  regs : ∀ r, r ∉ w.regs → t.getReg r = s.getReg r
  flags : ∀ k < 8, w.flags.getLsbD k = false → t.f.getLsbD k = s.f.getLsbD k
  sp : w.sp = false → t.sp = s.sp
  ie : w.ie = false → t.ie = s.ie
  bytes : ∀ n j, (∀ a ∈ w.stores, s.loc a ≠ (n, j)) → t.mem.logical n j = s.mem.logical n j
  image : WrittenBack s.mem t.mem

/-- The parts of the state that only the host's action inside an instruction, or the launch, writes. -/
def SameHostSide (s t : State) : Prop :=
  t.cfg = s.cfg ∧ t.bank = s.bank ∧ t.mmuBlock = s.mmuBlock ∧ t.ports = s.ports ∧ t.inDraws = s.inDraws

/-! ## FLAGS -/

/-- The flags an instruction writes and what it writes; `none` is a flag it leaves alone (R409). -/
structure FlagWrite where
  s  : Option Bool := none
  z  : Option Bool := none
  ac : Option Bool := none
  p  : Option Bool := none
  cy : Option Bool := none

/-- FLAGS after the write: each flag at its bit (R110), the unused bits 5, 3 and 1 kept (R111). -/
def FlagWrite.gives (w : FlagWrite) (old new : Byte) : Prop :=
  new.getLsbD 7 = w.s.getD (old.getLsbD 7) ∧ new.getLsbD 6 = w.z.getD (old.getLsbD 6) ∧
  new.getLsbD 4 = w.ac.getD (old.getLsbD 4) ∧ new.getLsbD 2 = w.p.getD (old.getLsbD 2) ∧
  new.getLsbD 0 = w.cy.getD (old.getLsbD 0) ∧
  new.getLsbD 5 = old.getLsbD 5 ∧ new.getLsbD 3 = old.getLsbD 3 ∧ new.getLsbD 1 = old.getLsbD 1

/-- The number of 1 bits is even (R406), as the XOR of the bits. -/
def evenOnes (r : Byte) : Bool :=
  !(r.getLsbD 0 ^^ r.getLsbD 1 ^^ r.getLsbD 2 ^^ r.getLsbD 3 ^^ r.getLsbD 4 ^^ r.getLsbD 5 ^^ r.getLsbD 6 ^^ r.getLsbD 7)

/-- Sign, Zero and Parity of a result (R404), with the other two flags as given. -/
def resultFlags (r : Byte) (ac cy : Option Bool) : FlagWrite where
  s := some (decide (128 ≤ r.toNat))
  z := some (decide (r.toNat = 0))
  ac := ac
  p := some (evenOnes r)
  cy := cy

/-- What the add family writes for `a + v + cin` (R407), in exact arithmetic. -/
def addFlags (a v : Byte) (cin : Nat) : FlagWrite :=
  resultFlags (BitVec.ofNat 8 (a.toNat + v.toNat + cin)) (some (decide (15 < a.toNat % 16 + v.toNat % 16 + cin)))
    (some (decide (255 < a.toNat + v.toNat + cin)))

/-- The byte `a - v - bin`, in exact arithmetic. -/
def subByte (a v : Byte) (bin : Nat) : Byte := BitVec.ofNat 8 (a.toNat + 512 - v.toNat - bin)

/-- What the subtract and compare family writes for `a - v - bin` (R408): AC is the carry of the low nibbles'
two's-complement sum, so it is set where they need no borrow; CY is set where the bytes need none, or, under
`SUB_CARRY = borrow`, where they need one. -/
def subFlags (k : SubCarry) (a v : Byte) (bin : Nat) : FlagWrite :=
  resultFlags (subByte a v bin) (some (decide (v.toNat % 16 + bin ≤ a.toNat % 16)))
    (some (match k with
      | .noBorrow => decide (v.toNat + bin ≤ a.toNat)
      | .borrow => decide (a.toNat < v.toNat + bin)))

/-- The borrow SBB and SBI take, under each `SBB_BORROW_IN` (R410). -/
def State.borrow (s : State) : Nat :=
  match s.cfg.sbbBorrowIn with
  | .flagIsBorrow => (s.f.getLsbD 0).toNat
  | .flagIsCarry => 1 - (s.f.getLsbD 0).toNat

/-- INR's auxiliary carry on the old byte (R620). -/
def inrAc (k : IncDecAc) (old : Byte) : Bool :=
  match k with
  | .literal0x10 => decide (old.toNat = 15)
  | .lowNibble => decide (old.toNat % 16 = 15)
  | .inrOnly => decide (old.toNat = 15)

/-- DCR's auxiliary carry on the old byte (R620). -/
def dcrAc (k : IncDecAc) (old : Byte) : Bool :=
  match k with
  | .literal0x10 => decide (old.toNat = 17)
  | .lowNibble => decide (old.toNat % 16 ≠ 0)
  | .inrOnly => false

/-- DAD's Carry, under each `DAD_CARRY` (R618): the exact sum exceeds 16 bits, or does not. -/
def dadCarries (k : DadCarry) (x v : Addr) : Bool :=
  match k with
  | .overflow => decide (65535 < x.toNat + v.toNat)
  | .inverted => decide (x.toNat + v.toNat ≤ 65535)

/-- DAA's test of the low nibble (R619). -/
def daaFixLow (a f : Byte) : Bool := decide (9 < a.toNat % 16) || f.getLsbD 4

/-- DAA's test of the high nibble (R619). -/
def daaFixHigh (a f : Byte) : Bool :=
  decide (9 < a.toNat / 16) || f.getLsbD 0 || (decide (9 ≤ a.toNat / 16) && decide (9 < a.toNat % 16))

/-- DAA's result (R619). -/
def daaByte (a f : Byte) : Byte := BitVec.ofNat 8 (a.toNat + (daaFixLow a f).toNat * 6 + (daaFixHigh a f).toNat * 96)

/-- What DAA writes (R619). Carry is never cleared: an incoming Carry makes the high correction. -/
def daaWrites (k : DaaSign) (a f : Byte) : FlagWrite :=
  { resultFlags (daaByte a f) (some (decide (15 < a.toNat % 16 + (daaFixLow a f).toNat * 6)))
      (some (daaFixHigh a f)) with
    s := match k with
      | .unchanged => none
      | .fromResult => some (decide (128 ≤ (daaByte a f).toNat)) }

/-! ## Runs -/

/-- A state some run reaches: from a launch of any configuration, image and draws, by steps. -/
inductive Reachable : State → Prop where
  | launched (x : LaunchInput) (s : State) (h : launch x = .next s) : Reachable s
  | stepped (s t : State) (hs : Reachable s) (h : step s = .next t) : Reachable t

/-- A run that ended well (R414 case (a)). -/
def RunStatus.safe : RunStatus → Bool
  | .halted s => !s.fatal
  | _ => false

/-! ## Two machines that differ only in their caches -/

/-- Every guest-visible piece of state agrees, and so does every logical byte; the lines, the image and the backend
calls may differ, and so may the number of lines (R236). -/
def SameGuestView (s t : State) : Prop :=
  t = { s with mem := t.mem, cfg := { s.cfg with nLines := t.cfg.nLines } } ∧ SameContent s.mem t.mem

end Sys2Proof.Machine
end

