-- ==== Sys2Proof/Certificates/Slice0/Obligations.lean ====
section
/-!
DEFINITION. The statements for the provers. A statement about `exec` is about an instruction whose bytes have been
fetched: `pc` is past it (assumption log 11), and `StepRunsBytesAtPc` carries it to `step`.

`s.Inv` is the machine's invariant, which `StepKeepsInvariant` and `LaunchEstablishesInvariant` give every state of a
run; `s.Sound` is the launch premise of R237, which `StepKeepsSound` keeps. They are premises only where an instruction
accesses memory.
-/
open Sys2Proof Sys2Proof.Machine

/-! ## Encoding -/

/-- The decoder gives back every well-formed instruction from its bytes, and leaves the bytes after it (R301 to R315,
R330 to R332). -/
def Obligations.DecodeEncode : Prop :=
  ∀ (i : Instr) (rest : List Byte), i.wellFormed = true → decode (encode i ++ rest) = .ok (i, rest)

/-- What the decoder gives is a well-formed instruction, and the bytes it took are that instruction's encoding: one
meaning for each byte sequence. -/
def Obligations.EncodeDecode : Prop :=
  ∀ (bytes : List Byte) (i : Instr) (rest : List Byte), decode bytes = .ok (i, rest) →
    i.wellFormed = true ∧ encode i ++ rest = bytes

/-- The decoder is total (R332): every opcode byte with its operand bytes, whatever they are, decodes, to an instruction
of the length the opcode alone fixes, 1, 2 or 3 bytes (R300); without them it is refused by name. The 12 values of R330
decode as undocumented, and no other value does. -/
def Obligations.DecoderIsTotal : Prop :=
  ∀ (op : Byte) (rest : List Byte),
    (1 ≤ instrLength op ∧ instrLength op ≤ 3) ∧
    (instrLength op ≤ rest.length + 1 → ∃ i, decode (op :: rest) = .ok (i, rest.drop (instrLength op - 1))) ∧
    (rest.length + 1 < instrLength op → decode (op :: rest) = .error (.missingOperand op)) ∧
    ((∃ v t, decode (op :: rest) = .ok (.undoc v, t)) ↔
      op ∈ [0x08, 0x10, 0x18, 0x20, 0x28, 0x30, 0x38, 0xCB, 0xD9, 0xDD, 0xED, 0xFD])

/-- Words written out from the spec's encodings decode to the instructions they stand for: one or two for each family
(the Encoding and Example lines of the instruction rules). -/
def Obligations.SpecWordsDecode : Prop :=
  decode [0b01111000] = .ok (.mov (.reg .a) (.reg .b), []) ∧
  decode [0b00111110, 0x0F] = .ok (.mvi (.reg .a) 0x0F, []) ∧
  decode [0b00100001, 0x34, 0x12] = .ok (.lxi .hl 0x1234, []) ∧
  decode [0b10000110] = .ok (.add .m, []) ∧
  decode [0b11010110, 0x05] = .ok (.sui 0x05, []) ∧
  decode [0b10100000] = .ok (.ana (.reg .b), []) ∧
  decode [0b00001111] = .ok (.rrc, []) ∧
  decode [0b11110101] = .ok (.push .psw, []) ∧
  decode [0b11011010, 0x00, 0x30] = .ok (.jc 0x3000, []) ∧
  decode [0b11111111] = .ok (.rst 7, []) ∧
  decode [0b11010011, 0x10] = .ok (.outp 0x10, []) ∧
  decode [0b01110110] = .ok (.hlt, []) ∧
  decode [0x08] = .ok (.undoc 0x08, [])

/-! ## The step -/

/-- A step runs the instruction its fetch gives, in the state the fetch left (R400). -/
def Obligations.StepRunsDecodedInstruction : Prop :=
  ∀ (s t : State) (i : Instr), s.stop = false → s.fetchInstr = .ok i t → step s = exec i t

/-- When the bytes at `pc` decode to an instruction, the step is that instruction's meaning on the state with `pc` past
its bytes (modulo 65536) and nothing else changed but the cache, whose logical content is as before (R400 to R402,
R106, R253); that state again meets the premises of the statements about meanings. -/
def Obligations.StepRunsBytesAtPc : Prop :=
  ∀ (s : State) (i : Instr) (rest : List Byte), s.Inv → s.Sound → s.stop = false →
    decode [s.guestByte s.pc, s.guestByte (s.pc + 1), s.guestByte (s.pc + 2)] = .ok (i, rest) →
    i.wellFormed = true ∧
    ∃ m t, SameContent s.mem m ∧ t = { s with pc := BitVec.ofNat 16 (s.pc.toNat + (encode i).length), mem := m } ∧
      t.Inv ∧ t.Sound ∧ step s = exec i t

/-- There is a step exactly where `stop = 0` (R400): the step is refused, and then by that name, exactly in a stopped
state. In particular no instruction is refused. -/
def Obligations.StepRefusesOnlyWhenStopped : Prop :=
  ∀ (s : State) (r : Refusal), step s = .refused r ↔ s.stop = true ∧ r = .runEnded

/-- An instruction fetched above `MAX_ADDR` is RST 7 (R213): the return address is pushed and the run goes on at 0x0038;
and every byte fetched there, opcode or operand, is 0xFF. -/
def Obligations.FetchAboveCeilingIsRst7 : Prop :=
  ∀ s : State, s.cfg.maxAddr < s.pc →
    s.fetch8 = .ok 0xFF { s with pc := s.pc + 1 } ∧
    (s.stop = false →
      step s = exec (.rst 7) { s with pc := s.pc + 1 } ∧
      (s.Inv → s.Sound → ∃ m, StoredWordAt s (s.sp - 2) (s.pc + 1) m ∧
        step s = .next { s with pc := 0x0038, sp := s.sp - 2, mem := m }))

/-! ## The memory system -/

/-- Above `MAX_ADDR`, and only there by the comparison of R212, a read gives 0xFF and a write does nothing, with no cache
or backend activity at all (R210, R211). -/
def Obligations.CeilingAccess : Prop :=
  ∀ (s : State) (a : Addr) (v : Byte), (s.unmapped a = true ↔ s.cfg.maxAddr.toNat < a.toNat) ∧
    (s.cfg.maxAddr.toNat < a.toNat → s.readByte a = .ok 0xFF s ∧ s.writeByte a v = .ok () s)

/-- The translation of R220, in exact arithmetic: the bank block is `a / 4096`, the linear address `a + bank * 65536`,
and the storage block and byte are its quotient and remainder by 64. -/
def Obligations.TranslationFormula : Prop :=
  ∀ (s : State) (a : Addr), ∃ h : a.toNat / 4096 < nblk,
    s.blk a = (a.toNat + s.bank[a.toNat / 4096] * 65536) / 64 + s.cfg.storageOffset ∧
    (off a).val = (a.toNat + s.bank[a.toNat / 4096] * 65536) % 64

/-- Sequential consistency and the transparency of the cache (R250, R236): whatever reads, writes and Bank Map changes
follow one another, each read gives the byte last written to the same linear byte, or the initial content, or 0xFF above
`MAX_ADDR`. -/
def Obligations.MemoryIsSequential : Prop :=
  ∀ (s : State) (xs : List Access), s.Inv → s.Sound →
    ∃ t, s.runAccesses xs = .ok (s.expectedReads s.mem.logical xs) t

/-- A hit promotes the line by one step and does nothing else (R231): line `i` swaps with line `i + 1`, or stays if it
is the MRU line; no backend call, no tag, dirty bit or byte changes. -/
def Obligations.HitPromotesOneStep : Prop :=
  ∀ (m : MemSys) (n i : Nat) (x : Line), m.lines[i]? = some x → x.tag = some n →
    (∀ k y, k < i → m.lines[k]? = some y → y.tag ≠ some n) →
    (∀ y, m.lines[i + 1]? = some y →
      m.resolve n = .ready (i + 1) { m with lines := (m.lines.set i y).set (i + 1) x }) ∧
    (m.lines[i + 1]? = none → m.resolve n = .ready i m)

/-- A miss (R232 to R234): a dirty resident line 0 is written back under its own tag with the XOR checksum of its bytes,
and no other victim is; the other lines move down by one; the block asked for is read after that, and stands at the MRU
end, clean, with the backend's bytes, if its checksum is right. -/
def Obligations.MissEvictsAndLoads : Prop :=
  ∀ (m : MemSys) (n : Nat) (x : Line) (t : List Line), m.Ok → m.lines = x :: t → (∀ y ∈ m.lines, y.tag ≠ some n) →
    (blockOf m.image n).sound = true →
    ∃ image calls, m.resolve n = .ready t.length
        { lines := t ++ [{ tag := some n, dirty := false, data := (blockOf m.image n).data }]
          image := image, calls := calls ++ [.readBlock n] } ∧
      (∀ k, x.dirty = true → x.tag = some k → calls = m.calls ++ [.writeBlock k (Buffer.ofData x.data)] ∧
        (blockOf image k).data = x.data ∧
        (blockOf image k).check = x.data.toList.foldr (fun y z => y ^^^ z) 0 ∧
        ∀ j, j ≠ k → blockOf image j = blockOf m.image j) ∧
      (x.dirty = false ∨ x.tag = none → calls = m.calls ∧ image = m.image)

/-- "loading `N+1` distinct blocks sequentially evicts the first-loaded block first" (95_test_vectors.md W6): from a
cold cache, after as many distinct blocks as there are lines the lines hold them in the order of loading, and one block
more evicts the first of them. -/
def Obligations.ColdCacheEvictsFirstLoaded : Prop :=
  ∀ (m : MemSys) (b : Nat) (bs : List Nat) (n : Nat), (∀ x ∈ m.lines, x.tag = none ∧ x.dirty = false) →
    (b :: bs).length = m.lines.length → (b :: bs ++ [n]).Nodup →
    (∀ k ∈ b :: bs ++ [n], (blockOf m.image k).sound = true) →
    ∃ u v, m.requestAll (b :: bs) = some u ∧ u.lines.map (fun x => x.tag) = (b :: bs).map some ∧
      m.requestAll (b :: bs ++ [n]) = some v ∧ v.lines.map (fun x => x.tag) = (bs ++ [n]).map some ∧
      v.image = m.image

/-- The integrity check detects any change of one byte of a buffer that was right, data or checksum (R241, R1100). -/
def Obligations.OneChangedByteIsDetected : Prop :=
  ∀ (x : Buffer) (j : Fin lineSize) (v : Byte), x.sound = true →
    (v ≠ x.data[j] → Buffer.sound { x with data := x.data.set j v } = false) ∧
    (v ≠ x.check → Buffer.sound { x with check := v } = false)

/-- Images in canonical form that hold the same bytes are equal data. -/
def Obligations.CanonicalImagesEqual : Prop :=
  ∀ a b : List Host.Cell, Memory.wf a = true → Memory.wf b = true → (∀ x, Memory.read a x = Memory.read b x) → a = b

/-! ## Launch, invariants, progress -/

/-- A launch gives the reset state of R1200 and R1201, or is refused where the parameters break R12. That it is refused
too where the two bank-select ports are equal, which `Config.valid` asks for, is the model's choice (assumption log 6).
And `State.reset` is the launch of the standard configuration with zero draws, the model's choices (assumption logs 2
to 5). -/
def Obligations.LaunchGivesResetState : Prop :=
  (∀ x : LaunchInput, x.cfg.valid = false → launch x = .refused .badConfiguration) ∧
  (∀ x : LaunchInput, x.cfg.valid = true → ∃ s, launch x = .next s ∧
    s.pc = 0 ∧ s.ie = false ∧ s.stop = false ∧ s.fatal = false ∧
    (∀ j : BitVec 4, s.bank[j.toNat]'j.isLt = 0) ∧ s.mmuBlock = 0 ∧
    s.mem.lines.length = x.cfg.nLines ∧ (∀ y ∈ s.mem.lines, y.tag = none ∧ y.dirty = false) ∧
    s.mem.image = Memory.ofCells x.image ∧ s.mem.calls = [] ∧ s.cfg = x.cfg ∧
    (x.cfg.resetRegs = .zero → (∀ r, s.getReg r = 0) ∧ s.f = 0 ∧ s.sp = 0) ∧
    (x.cfg.resetRegs = .arbitrary →
      s.b = x.draws.b ∧ s.c = x.draws.c ∧ s.d = x.draws.d ∧ s.e = x.draws.e ∧ s.h = x.draws.h ∧ s.l = x.draws.l ∧
      s.a = x.draws.a ∧ s.f = x.draws.f ∧ s.sp = x.draws.sp)) ∧
  launch standardLaunch = .next State.reset

/-- The machine right after reset meets the invariant, and its storage is sound (assumption log 5). -/
def Obligations.ResetMeetsInvariant : Prop := State.reset.Inv ∧ State.reset.Sound

/-- Every launch meets the invariant, whatever the parameters, the image and the draws. -/
def Obligations.LaunchEstablishesInvariant : Prop :=
  ∀ (x : LaunchInput) (s : State), launch x = .next s → s.Inv

/-- Every step keeps the invariant: the image stays canonical, resident tags stay distinct and in the core's range,
clean lines stay equal to the backend's bytes, there are still `N_LINES` lines, every Bank Map entry still names a bank,
and `fatal` is never set without `stop` (R117, R118, R124, R222, R238). -/
def Obligations.StepKeepsInvariant : Prop :=
  ∀ s t : State, s.Inv → step s = .next t → t.Inv

/-- Every step keeps the premise of R237: what the core writes back carries a correct checksum. -/
def Obligations.StepKeepsSound : Prop :=
  ∀ s t : State, s.Inv → s.Sound → step s = .next t → t.Sound

/-- Where the storage is sound every step that exists gives a next state, but for an undocumented opcode under
`UNDOC_POLICY = fault`, which sets `stop` and changes nothing else that a program could see but `pc` (R237, R332,
R1006, R1101, R1102). -/
def Obligations.SoundMachineProgresses : Prop :=
  ∀ s : State, s.Inv → s.Sound → s.stop = false →
    (∃ t, step s = .next t) ∨
    (s.cfg.undocPolicy = .fault ∧ s.guestByte s.pc ∈ undocOpcodes ∧
      ∃ pc m, SameContent s.mem m ∧ step s = .fault (.illegalOpcode { s with pc := pc, stop := true, mem := m }))

/-- No program can see the cache (R236, R129): two machines that differ only in their cache lines, their number, and
what has reached the backend give the same outcome, and next states that again differ only there. So do the states a
fault leaves, but for `pc`, which is unspecified (R1101). -/
def Obligations.CacheIsInvisible : Prop :=
  ∀ s t : State, s.Inv → t.Inv → s.Sound → t.Sound → SameGuestView s t →
    (∀ u, step s = .next u → ∃ v, step t = .next v ∧ SameGuestView u v) ∧
    (∀ r, step s = .fault r → ∃ u v, r = .illegalOpcode u ∧ step t = .fault (.illegalOpcode v) ∧
      SameGuestView { u with pc := v.pc } v) ∧
    (∀ r, step s = .refused r → step t = .refused r)

/-- A step touches only the storage its Bank Map names: the logical content of a block no guest address translates to is
unchanged, so banks that are not mapped keep their bytes (R220, R222), and no block outside the core's range changes in
the backend (R222, R240). -/
def Obligations.OtherBlocksUntouched : Prop :=
  ∀ (s t : State) (n : Nat), s.Inv → step s = .next t →
    ((∀ a : Addr, s.blk a ≠ n) → ∀ j, t.mem.logical n j = s.mem.logical n j) ∧
    (¬ inCore s.cfg n → blockOf t.mem.image n = blockOf s.mem.image n)

/-- How a run ends (R414, R1121), in terms of the steps it took, `k + 1` of them, with no stop requested after the first
`k`: halted, where the last step set `stop`, with the state it left; faulted, where the last step faulted, with that
fault, whose state has `stop` set, and `fatal` set exactly where it is the integrity failure; stopped by the host after
the last step (R1141), where the state the steps left did not have `stop` set and nothing in it changes but `stop`. A
run never ends refused, and one that has not ended is where its steps have taken it. -/
def Obligations.RunEndsAreClassified : Prop :=
  ∀ (polls : List Bool) (s : State), s.Inv → s.stop = false →
    (∀ t, runLoop polls s = .halted t → t.stop = true ∧ t.fatal = false ∧
      ∃ k < polls.length, (∀ j < k, polls[j]? = some false) ∧ Host.Core.run Sys2Proof.core (k + 1) s = .next t) ∧
    (∀ r, runLoop polls s = .faulted r →
      (∃ k < polls.length, (∀ j < k, polls[j]? = some false) ∧ Host.Core.run Sys2Proof.core (k + 1) s = .fault r) ∧
      ((∃ t, r = .memoryIntegrity t ∧ t.stop = true ∧ t.fatal = true) ∨
        ∃ t, r = .illegalOpcode t ∧ t.stop = true ∧ t.fatal = false)) ∧
    (∀ t, runLoop polls s = .stoppedByHost t → t.fatal = false ∧
      ∃ (k : Nat) (u : State), (∀ j < k, polls[j]? = some false) ∧ polls[k]? = some true ∧
        Host.Core.run Sys2Proof.core (k + 1) s = .next u ∧ u.stop = false ∧ t = { u with stop := true }) ∧
    (∀ r, runLoop polls s ≠ .refused r) ∧
    (∀ t, runLoop polls s = .running t → t.stop = false ∧ (∀ b ∈ polls, b = false) ∧
      Host.Core.run Sys2Proof.core polls.length s = .next t)

/-! ## Rules of the whole machine -/

/-- Who writes what: no step changes a parameter (R11); only EI and DI write `ie` (R115); only OUT writes the Bank Map
and `mmuBlock` (R118); nothing that completes writes `fatal` (R117); only HLT writes `stop` (R116). -/
def Obligations.ControlStateWriters : Prop :=
  ∀ (i : Instr) (s t : State), exec i s = .next t →
    t.cfg = s.cfg ∧ t.fatal = s.fatal ∧
    (i ≠ .ei → i ≠ .di → t.ie = s.ie) ∧
    (i ≠ .hlt → t.stop = s.stop) ∧
    ((∀ p, i ≠ .outp p) → t.bank = s.bank ∧ t.mmuBlock = s.mmuBlock)

/-- An instruction writes only the FLAGS bits the index R112 gives it; in particular only POP PSW writes an unused bit
(R111, R409). -/
def Obligations.FlagsWrittenAsIndexed : Prop :=
  ∀ (i : Instr) (s t : State), exec i s = .next t →
    ∀ k < 8, (flagMask s.cfg.daaSign i).getLsbD k = false → t.f.getLsbD k = s.f.getLsbD k

/-- An instruction stores the bytes `storeOf` names and no others (R205, R236): the logical memory is exactly the one
with those bytes stored, and, for every instruction but OUT, whose bank switch changes what a guest address names, each
guest address outside them reads as before. -/
def Obligations.StoresAndNothingElse : Prop :=
  ∀ (i : Instr) (s t : State), s.Inv → i.wellFormed = true → exec i s = .next t →
    (∀ n j, t.mem.logical n j = s.storedAll (storeOf s i) s.mem.logical n j) ∧
    ((∀ p, i ≠ .outp p) → ∀ b : Addr,
      (∀ w ∈ storeOf s i, w.1 ≠ b) → t.guestByte b = s.guestByte b) ∧
    (∀ w ∈ storeOf s i, t.guestByte w.1 = if s.unmapped w.1 then 0xFF else w.2)

/-- The exceptions are the two of R1103, with the signals as their rules set them: an integrity failure only from an
instruction that accesses memory (R1100), with both signals set; an illegal opcode only from an undocumented opcode
under `UNDOC_POLICY = fault`, with `stop` set and nothing else changed but `pc` (R1101). No instruction is refused, and
one that makes no access and is not such an opcode answers a next state. -/
def Obligations.FaultsAreTheTwoReasons : Prop :=
  ∀ (i : Instr) (s : State),
    (∀ r, exec i s = .fault r →
      (∃ t, r = .memoryIntegrity t ∧ t.stop = true ∧ t.fatal = true ∧ accessesOf s i ≠ []) ∨
      (∃ pc, r = .illegalOpcode { s with pc := pc, stop := true } ∧ s.cfg.undocPolicy = .fault ∧ ∃ op, i = .undoc op)) ∧
    (∀ r, exec i s ≠ .refused r) ∧
    (accessesOf s i = [] → (s.cfg.undocPolicy = .fault → ∀ op, i ≠ .undoc op) → ∃ t, exec i s = .next t)

/-- A bad checksum faults, at every access and at no other place (R234, R235, R1100, R1120): an instruction's outcome is
the integrity failure exactly where one of its accesses, the first, second, third or fourth, those before it done,
loads a line with a wrong checksum; a step's exactly where one of its fetches does, the opcode's or an operand byte's,
or else an access of the instruction fetched. Both signals are then set. -/
def Obligations.FailedLoadFaults : Prop :=
  ∀ s : State, s.Inv →
    (∀ i : Instr, (∃ t, exec i s = .fault (.memoryIntegrity t)) ↔ s.FailsIn (accessesOf s i)) ∧
    (s.stop = false → ((∃ t, step s = .fault (.memoryIntegrity t)) ↔
      s.FailsIn (fetchAccesses s) ∨ ∃ i u, s.fetchInstr = .ok i u ∧ u.FailsIn (accessesOf u i))) ∧
    (∀ t, step s = .fault (.memoryIntegrity t) → t.stop = true ∧ t.fatal = true)

/-- "no register, flag, memory or cache state other than what the opcode fetch did changes, except that `pc` is
unspecified" (R1101): where the byte fetched is an undocumented opcode under `UNDOC_POLICY = fault`, the step is the
illegal-opcode fault, before any operand fetch or data access, in the state the opcode fetch left with `stop` set and
`pc` free; and there is no such fault at another opcode or under another policy. -/
def Obligations.IllegalOpcodeFault : Prop :=
  ∀ s : State,
    (∀ (op : Byte) (t : State), s.stop = false → s.fetch8 = .ok op t → op ∈ undocOpcodes → s.cfg.undocPolicy = .fault →
      ∃ pc, step s = .fault (.illegalOpcode { t with pc := pc, stop := true })) ∧
    (∀ t, step s = .fault (.illegalOpcode t) →
      s.cfg.undocPolicy = .fault ∧ ∃ op u, s.fetch8 = .ok op u ∧ op ∈ undocOpcodes)

/-- What an integrity failure leaves alone: every register, FLAGS bit and byte of memory outside the instruction's
extent, or, where a fetch fails, outside that of the opcode's row; and the Bank Map, the parameters and what was sent to
the host. R411 and I4 list no places, and call the cache lines the instruction could have written unspecified too: that
the places are those of `State.extent`, and that every other register and logical byte stands, is the model's choice
(assumption logs 9 and 12, DEDUCED; 12 is unsafe). -/
def Obligations.IntegrityFaultFrame : Prop :=
  ∀ s t : State, s.Inv →
    (∀ i : Instr, exec i s = .fault (.memoryIntegrity t) → Kept (s.extent i) s t ∧ SameHostSide s t) ∧
    (∀ r u, s.fetchInstr = .raised r u → step s = .fault (.memoryIntegrity t) → Kept s.fetchExtent s t) ∧
    (step s = .fault (.memoryIntegrity t) → SameHostSide s t ∧
      ∀ n, (∀ a : Addr, s.blk a ≠ n) → ∀ j, t.mem.logical n j = s.mem.logical n j)

/-- "The failed line keeps the new tag and its loaded bytes" (92_eei_decisions.md D21): after an integrity failure a line
holds the number and the bytes of the block whose load failed (R234), and that block's checksum in the image is as wrong
as it was. Where the instruction had no access to another block, that line is the MRU line and its load the last backend
call; where it had, that it may have gone on to it is the model's reading (assumption log 12). -/
def Obligations.FailedLineStands : Prop :=
  ∀ s t : State, s.Inv →
    (step s = .fault (.memoryIntegrity t) → ∃ x n after, t.mem.FailedLoad x n after) ∧
    (∀ i, exec i s = .fault (.memoryIntegrity t) → t.mem.KeepsFailed (s.extent i) s)

/-- The image changes by the core's `writeBlock` calls only (R126, R240), in a step that completes and in one that ends in
either fault: each block's buffer is the last one the calls made in the step wrote to it,
or the one it had. -/
def Obligations.ImageIsLastWritten : Prop :=
  ∀ s t : State, s.Inv → (step s = .next t ∨ ∃ r, step s = .fault r ∧ r.state = t) → WrittenBack s.mem t.mem

/-- The extent of an instruction, which bounds what a fault in it leaves unspecified (R411), is no less than what the
instruction writes where it completes (R112, R205): everything outside it is then as before, and the image has changed
by the core's `writeBlock` calls only (R126). And it names every address the instruction accesses (R205). -/
def Obligations.ExtentCoversWrites : Prop :=
  ∀ (i : Instr) (s : State),
    (∀ t, s.Inv → exec i s = .next t → Kept (s.extent i) s t) ∧
    (∀ a, .read a ∈ accessesOf s i → a ∈ (s.extent i).reads) ∧
    (∀ a v, .write a v ∈ accessesOf s i → a ∈ (s.extent i).stores)

/-! ## Registers and data moves -/

/-- The register file and its pairs (R100, R103): a register reads what was written and no other changes; a pair is its
high register times 256 plus its low one, and reads what was written. -/
def Obligations.RegisterFileReadsBack : Prop :=
  ∀ s : State,
    (∀ r q v, (s.setReg r v).getReg q = if q = r then v else s.getReg q) ∧
    (∀ r v, (s.setReg r v).f = s.f ∧ (s.setReg r v).sp = s.sp ∧ (s.setReg r v).pc = s.pc) ∧
    (∀ p v, (s.setPair p v).getPair p = v) ∧ (∀ p v, (s.setStackPair p v).getStackPair p = v) ∧
    s.bc.toNat = s.b.toNat * 256 + s.c.toNat ∧ s.de.toNat = s.d.toNat * 256 + s.e.toNat ∧
    s.hl.toNat = s.h.toNat * 256 + s.l.toNat ∧ s.psw.toNat = s.a.toNat * 256 + s.f.toNat

/-- MOV and MVI, every form (R500 to R504): the destination takes the source's byte and nothing else changes, no flag
and no other register; `MOV M,M` is no instruction. -/
def Obligations.MoveByte : Prop :=
  ∀ s : State,
    (∀ r q, exec (.mov (.reg r) (.reg q)) s = .next (s.setReg r (s.getReg q))) ∧
    (∀ r d8, exec (.mvi (.reg r) d8) s = .next (s.setReg r d8)) ∧
    (s.Inv → s.Sound →
      (∀ r, ∃ m, SameContent s.mem m ∧
        exec (.mov (.reg r) .m) s = .next ({ s with mem := m }.setReg r (s.guestByte s.hl))) ∧
      (∀ r, ∃ m, StoredAt s s.hl (s.getReg r) m ∧ exec (.mov .m (.reg r)) s = .next { s with mem := m }) ∧
      (∀ d8, ∃ m, StoredAt s s.hl d8 m ∧ exec (.mvi .m d8) s = .next { s with mem := m }))

/-- LXI, XCHG, SPHL and PCHL (R505, R512, R855, R931): a 16-bit value moves, its high byte to the high register, and
nothing else changes. -/
def Obligations.MoveWord : Prop :=
  ∀ s : State,
    (∀ v, exec (.lxi .bc v) s = .next { s with b := v.extractLsb' 8 8, c := v.extractLsb' 0 8 }) ∧
    (∀ v, exec (.lxi .de v) s = .next { s with d := v.extractLsb' 8 8, e := v.extractLsb' 0 8 }) ∧
    (∀ v, exec (.lxi .hl v) s = .next { s with h := v.extractLsb' 8 8, l := v.extractLsb' 0 8 }) ∧
    (∀ v, exec (.lxi .sp v) s = .next { s with sp := v }) ∧
    exec .xchg s = .next { s with h := s.d, l := s.e, d := s.h, e := s.l } ∧
    exec .sphl s = .next { s with sp := s.h ++ s.l } ∧
    exec .pchl s = .next { s with pc := s.h ++ s.l }

/-- LDA, LDAX, STA and STAX (R506, R507, R510, R511): A takes the byte at the address, or the byte at the address takes
A; nothing else changes. -/
def Obligations.AccumulatorLoadsAndStores : Prop :=
  ∀ s : State, s.Inv → s.Sound →
    (∀ a, ∃ m, SameContent s.mem m ∧ exec (.lda a) s = .next { s with a := s.guestByte a, mem := m }) ∧
    (∃ m, SameContent s.mem m ∧ exec (.ldax .bc) s = .next { s with a := s.guestByte (s.b ++ s.c), mem := m }) ∧
    (∃ m, SameContent s.mem m ∧ exec (.ldax .de) s = .next { s with a := s.guestByte (s.d ++ s.e), mem := m }) ∧
    (∀ a, ∃ m, StoredAt s a s.a m ∧ exec (.sta a) s = .next { s with mem := m }) ∧
    (∃ m, StoredAt s (s.b ++ s.c) s.a m ∧ exec (.stax .bc) s = .next { s with mem := m }) ∧
    (∃ m, StoredAt s (s.d ++ s.e) s.a m ∧ exec (.stax .de) s = .next { s with mem := m })

/-- LHLD and SHLD (R508, R509): L is the byte at the address and H the byte at the next one, modulo 65536. -/
def Obligations.HlLoadsAndStores : Prop :=
  ∀ (s : State) (a : Addr), s.Inv → s.Sound →
    (∃ m, SameContent s.mem m ∧
      exec (.lhld a) s = .next { s with l := s.guestByte a, h := s.guestByte (a + 1), mem := m }) ∧
    (∃ m, (∀ n j, m.logical n j = s.stored (a + 1) s.h (s.stored a s.l s.mem.logical) n j) ∧
      exec (.shld a) s = .next { s with mem := m })

/-! ## Arithmetic -/

/-- ADD, ADC, ADI and ACI, every operand (R600 to R605, R407): A is the exact sum modulo 256, all five flags are those
of the sum, the unused FLAGS bits and everything else are unchanged. ADC with Carry clear is ADD. -/
def Obligations.AddFamily : Prop :=
  ∀ s : State,
    (∀ d8, ∃ f, exec (.adi d8) s = .next { s with a := BitVec.ofNat 8 (s.a.toNat + d8.toNat), f := f } ∧
      (addFlags s.a d8 0).gives s.f f) ∧
    (∀ d8, ∃ f, exec (.aci d8) s =
        .next { s with a := BitVec.ofNat 8 (s.a.toNat + d8.toNat + (s.f.getLsbD 0).toNat), f := f } ∧
      (addFlags s.a d8 (s.f.getLsbD 0).toNat).gives s.f f) ∧
    (∀ src, s.ReadyFor src → ∃ m f, OperandRead s src m ∧
      exec (.add src) s =
        .next { s with a := BitVec.ofNat 8 (s.a.toNat + (s.operandByte src).toNat), f := f, mem := m } ∧
      (addFlags s.a (s.operandByte src) 0).gives s.f f) ∧
    (∀ src, s.ReadyFor src → ∃ m f, OperandRead s src m ∧
      exec (.adc src) s =
        .next { s with
          a := BitVec.ofNat 8 (s.a.toNat + (s.operandByte src).toNat + (s.f.getLsbD 0).toNat), f := f, mem := m } ∧
      (addFlags s.a (s.operandByte src) (s.f.getLsbD 0).toNat).gives s.f f)

/-- SUB, SBB, SUI and SBI, every operand, `SUB_CARRY` and `SBB_BORROW_IN` (R606 to R611, R408, R410): A is the exact
difference modulo 256, less the incoming borrow for SBB and SBI; Carry means no borrow, or a borrow under
`SUB_CARRY = borrow`. -/
def Obligations.SubtractFamily : Prop :=
  ∀ s : State,
    (∀ d8, ∃ f, exec (.sui d8) s = .next { s with a := subByte s.a d8 0, f := f } ∧
      (subFlags s.cfg.subCarry s.a d8 0).gives s.f f) ∧
    (∀ d8, ∃ f, exec (.sbi d8) s = .next { s with a := subByte s.a d8 s.borrow, f := f } ∧
      (subFlags s.cfg.subCarry s.a d8 s.borrow).gives s.f f) ∧
    (∀ src, s.ReadyFor src → ∃ m f, OperandRead s src m ∧
      exec (.sub src) s = .next { s with a := subByte s.a (s.operandByte src) 0, f := f, mem := m } ∧
      (subFlags s.cfg.subCarry s.a (s.operandByte src) 0).gives s.f f) ∧
    (∀ src, s.ReadyFor src → ∃ m f, OperandRead s src m ∧
      exec (.sbb src) s = .next { s with a := subByte s.a (s.operandByte src) s.borrow, f := f, mem := m } ∧
      (subFlags s.cfg.subCarry s.a (s.operandByte src) s.borrow).gives s.f f)

/-- INR and DCR, every destination and `INCDEC_AC` (R612 to R615, R620): the byte wraps, Sign, Zero and Parity are the
result's, AC is by the policy, Carry is unchanged; for M the byte is stored where it was read, or dropped above
`MAX_ADDR`. -/
def Obligations.IncrementDecrement : Prop :=
  ∀ s : State,
    (∀ r, ∃ f, exec (.inr (.reg r)) s =
        .next ({ s with f := f }.setReg r (BitVec.ofNat 8 ((s.getReg r).toNat + 1))) ∧
      (resultFlags (BitVec.ofNat 8 ((s.getReg r).toNat + 1)) (some (inrAc s.cfg.incDecAc (s.getReg r))) none).gives
        s.f f) ∧
    (∀ r, ∃ f, exec (.dcr (.reg r)) s =
        .next ({ s with f := f }.setReg r (BitVec.ofNat 8 ((s.getReg r).toNat + 255))) ∧
      (resultFlags (BitVec.ofNat 8 ((s.getReg r).toNat + 255)) (some (dcrAc s.cfg.incDecAc (s.getReg r))) none).gives
        s.f f) ∧
    (s.Inv → s.Sound →
      (∃ m f, StoredAt s s.hl (BitVec.ofNat 8 ((s.guestByte s.hl).toNat + 1)) m ∧
        exec (.inr .m) s = .next { s with f := f, mem := m } ∧
        (resultFlags (BitVec.ofNat 8 ((s.guestByte s.hl).toNat + 1))
          (some (inrAc s.cfg.incDecAc (s.guestByte s.hl))) none).gives s.f f) ∧
      (∃ m f, StoredAt s s.hl (BitVec.ofNat 8 ((s.guestByte s.hl).toNat + 255)) m ∧
        exec (.dcr .m) s = .next { s with f := f, mem := m } ∧
        (resultFlags (BitVec.ofNat 8 ((s.guestByte s.hl).toNat + 255))
          (some (dcrAc s.cfg.incDecAc (s.guestByte s.hl))) none).gives s.f f))

/-- INX, DCX and DAD, every pair and `DAD_CARRY` (R616 to R618): the 16-bit value wraps; INX and DCX write no flag; DAD
writes Carry only, set where the exact sum exceeds 16 bits, or where it does not under `DAD_CARRY = inverted`. -/
def Obligations.PairArithmetic : Prop :=
  ∀ (s : State) (p : Pair),
    exec (.inx p) s = .next (s.setPair p (BitVec.ofNat 16 ((s.getPair p).toNat + 1))) ∧
    exec (.dcx p) s = .next (s.setPair p (BitVec.ofNat 16 ((s.getPair p).toNat + 65535))) ∧
    ∃ f, exec (.dad p) s = .next ({ s with f := f }.setPair .hl (BitVec.ofNat 16 (s.hl.toNat + (s.getPair p).toNat))) ∧
      FlagWrite.gives { cy := some (dadCarries s.cfg.dadCarry s.hl (s.getPair p)) } s.f f

/-- DAA, every `DAA_SIGN` (R619): the correction is one byte addition; Zero, Parity, AC and Carry are written, Sign only
under `DAA_SIGN = from_result`; and a packed BCD byte with AC and Carry clear is left as it is (95_test_vectors.md
W3). -/
def Obligations.DecimalAdjust : Prop :=
  ∀ s : State,
    (∃ f, exec .daa s = .next { s with a := daaByte s.a s.f, f := f } ∧ (daaWrites s.cfg.daaSign s.a s.f).gives s.f f) ∧
    (s.a.toNat % 16 ≤ 9 → s.a.toNat / 16 ≤ 9 → s.f.getLsbD 4 = false → s.f.getLsbD 0 = false →
      ∃ f, exec .daa s = .next { s with a := s.a, f := f } ∧ f.getLsbD 0 = false ∧ f.getLsbD 4 = false)

/-! ## Logic, compare, Carry, rotates -/

/-- ANA, ANI, XRA, XRI, ORA and ORI, every operand (R700 to R705, R708 to R710, R715): A is the bitwise result, Sign,
Zero and Parity are its, Carry is cleared, AC is bit 3 of `A | v` for AND and cleared for the others. -/
def Obligations.LogicFamily : Prop :=
  ∀ s : State,
    (∀ d8, ∃ f, exec (.ani d8) s = .next { s with a := s.a &&& d8, f := f } ∧
      (resultFlags (s.a &&& d8) (some (s.a.getLsbD 3 || d8.getLsbD 3)) (some false)).gives s.f f) ∧
    (∀ d8, ∃ f, exec (.xri d8) s = .next { s with a := s.a ^^^ d8, f := f } ∧
      (resultFlags (s.a ^^^ d8) (some false) (some false)).gives s.f f) ∧
    (∀ d8, ∃ f, exec (.ori d8) s = .next { s with a := s.a ||| d8, f := f } ∧
      (resultFlags (s.a ||| d8) (some false) (some false)).gives s.f f) ∧
    (∀ src, s.ReadyFor src → ∃ m f, OperandRead s src m ∧
      exec (.ana src) s = .next { s with a := s.a &&& s.operandByte src, f := f, mem := m } ∧
      (resultFlags (s.a &&& s.operandByte src) (some (s.a.getLsbD 3 || (s.operandByte src).getLsbD 3))
        (some false)).gives s.f f) ∧
    (∀ src, s.ReadyFor src → ∃ m f, OperandRead s src m ∧
      exec (.xra src) s = .next { s with a := s.a ^^^ s.operandByte src, f := f, mem := m } ∧
      (resultFlags (s.a ^^^ s.operandByte src) (some false) (some false)).gives s.f f) ∧
    (∀ src, s.ReadyFor src → ∃ m f, OperandRead s src m ∧
      exec (.ora src) s = .next { s with a := s.a ||| s.operandByte src, f := f, mem := m } ∧
      (resultFlags (s.a ||| s.operandByte src) (some false) (some false)).gives s.f f)

/-- CMP and CPI, every operand and `SUB_CARRY` (R706, R707, R711, R716): the flags of the subtraction, and A and
everything else as before. The flags are those SUB and SUI leave. -/
def Obligations.CompareFamily : Prop :=
  ∀ s : State,
    (∀ d8, ∃ f, exec (.cpi d8) s = .next { s with f := f } ∧ (subFlags s.cfg.subCarry s.a d8 0).gives s.f f) ∧
    (∀ src, s.ReadyFor src → ∃ m f, OperandRead s src m ∧ exec (.cmp src) s = .next { s with f := f, mem := m } ∧
      (subFlags s.cfg.subCarry s.a (s.operandByte src) 0).gives s.f f) ∧
    (∀ src t u, exec (.sub src) s = .next t → exec (.cmp src) s = .next u → u.f = t.f ∧ u.a = s.a) ∧
    (∀ d8 t u, exec (.sui d8) s = .next t → exec (.cpi d8) s = .next u → u.f = t.f ∧ u.a = s.a)

/-- CMA, CMC and STC (R712 to R714), by their bytes at `pc` and by their meanings: A complemented and no flag written; Carry
complemented or set and no other flag written; nothing else changes. -/
def Obligations.AccumulatorComplementAndCarry : Prop :=
  (RunsOneByte .cma 0b00101111 ∧ RunsOneByte .cmc 0b00111111 ∧ RunsOneByte .stc 0b00110111) ∧
  ∀ s : State,
    exec .cma s = .next { s with a := s.a ^^^ 0xFF } ∧
    (∃ f, exec .cmc s = .next { s with f := f } ∧ FlagWrite.gives { cy := some (!s.f.getLsbD 0) } s.f f) ∧
    (∃ f, exec .stc s = .next { s with f := f } ∧ FlagWrite.gives { cy := some true } s.f f)

/-- RLC, RRC, RAL and RAR (R800 to R803), by their bytes at `pc` and by their meanings: A moves by one bit, through Carry or not, Carry
takes the bit shifted out, and nothing else changes. -/
def Obligations.Rotates : Prop :=
  (RunsOneByte .rlc 0b00000111 ∧ RunsOneByte .rrc 0b00001111 ∧ RunsOneByte .ral 0b00010111 ∧
    RunsOneByte .rar 0b00011111) ∧
  ∀ s : State,
    (∃ f, exec .rlc s = .next { s with a := BitVec.ofNat 8 (s.a.toNat * 2 + s.a.toNat / 128), f := f } ∧
      FlagWrite.gives { cy := some (s.a.getLsbD 7) } s.f f) ∧
    (∃ f, exec .rrc s = .next { s with a := BitVec.ofNat 8 (s.a.toNat / 2 + s.a.toNat % 2 * 128), f := f } ∧
      FlagWrite.gives { cy := some (s.a.getLsbD 0) } s.f f) ∧
    (∃ f, exec .ral s = .next { s with a := BitVec.ofNat 8 (s.a.toNat * 2 + (s.f.getLsbD 0).toNat), f := f } ∧
      FlagWrite.gives { cy := some (s.a.getLsbD 7) } s.f f) ∧
    (∃ f, exec .rar s = .next { s with a := BitVec.ofNat 8 (s.a.toNat / 2 + (s.f.getLsbD 0).toNat * 128), f := f } ∧
      FlagWrite.gives { cy := some (s.a.getLsbD 0) } s.f f)

/-! ## Stack -/

/-- PUSH and POP of each pair (R850 to R853, R420, R421): `sp` moves by two, modulo 65536, the low byte is at the lower
address; POP PSW writes all eight FLAGS bits; nothing else changes. -/
def Obligations.PushPop : Prop :=
  ∀ s : State, s.Inv → s.Sound →
    (∃ m, StoredWordAt s (s.sp - 2) (s.b ++ s.c) m ∧ exec (.push .bc) s = .next { s with sp := s.sp - 2, mem := m }) ∧
    (∃ m, StoredWordAt s (s.sp - 2) (s.d ++ s.e) m ∧ exec (.push .de) s = .next { s with sp := s.sp - 2, mem := m }) ∧
    (∃ m, StoredWordAt s (s.sp - 2) (s.h ++ s.l) m ∧ exec (.push .hl) s = .next { s with sp := s.sp - 2, mem := m }) ∧
    (∃ m, StoredWordAt s (s.sp - 2) (s.a ++ s.f) m ∧ exec (.push .psw) s = .next { s with sp := s.sp - 2, mem := m }) ∧
    (∃ m, SameContent s.mem m ∧ exec (.pop .bc) s =
      .next { s with c := s.guestByte s.sp, b := s.guestByte (s.sp + 1), sp := s.sp + 2, mem := m }) ∧
    (∃ m, SameContent s.mem m ∧ exec (.pop .de) s =
      .next { s with e := s.guestByte s.sp, d := s.guestByte (s.sp + 1), sp := s.sp + 2, mem := m }) ∧
    (∃ m, SameContent s.mem m ∧ exec (.pop .hl) s =
      .next { s with l := s.guestByte s.sp, h := s.guestByte (s.sp + 1), sp := s.sp + 2, mem := m }) ∧
    (∃ m, SameContent s.mem m ∧ exec (.pop .psw) s =
      .next { s with f := s.guestByte s.sp, a := s.guestByte (s.sp + 1), sp := s.sp + 2, mem := m })

/-- "unused bits unconstrained but must round-trip through push/pop" (R111): PUSH PSW, any change of A and FLAGS, then
POP PSW gives back A, all eight bits of FLAGS and `sp`, where the two stack bytes are mapped. -/
def Obligations.PswRoundTrip : Prop :=
  ∀ (s t u : State) (a f : Byte), s.Inv → s.Sound →
    s.unmapped (s.sp - 2) = false → s.unmapped (s.sp - 1) = false →
    exec (.push .psw) s = .next t → exec (.pop .psw) { t with a := a, f := f } = .next u →
    u.a = s.a ∧ u.f = s.f ∧ u.sp = s.sp

/-- XTHL (R854): HL and the word at `sp` change places; `sp`, FLAGS and everything else are unchanged. -/
def Obligations.ExchangeStackTop : Prop :=
  ∀ s : State, s.Inv → s.Sound →
    ∃ m, StoredWordAt s s.sp (s.h ++ s.l) m ∧
      exec .xthl s = .next { s with l := s.guestByte s.sp, h := s.guestByte (s.sp + 1), mem := m }

/-! ## Control flow -/

/-- JMP and the eight conditional jumps (R900 to R908): the target is taken where the condition's FLAGS bit has the
condition's value, and else `pc` stays past the operand; nothing else changes. -/
def Obligations.Jumps : Prop :=
  ∀ (s : State) (a : Addr),
    exec (.jmp a) s = .next { s with pc := a } ∧
    exec (.jnz a) s = .next { s with pc := if s.f.getLsbD 6 then s.pc else a } ∧
    exec (.jz a) s = .next { s with pc := if s.f.getLsbD 6 then a else s.pc } ∧
    exec (.jnc a) s = .next { s with pc := if s.f.getLsbD 0 then s.pc else a } ∧
    exec (.jc a) s = .next { s with pc := if s.f.getLsbD 0 then a else s.pc } ∧
    exec (.jpo a) s = .next { s with pc := if s.f.getLsbD 2 then s.pc else a } ∧
    exec (.jpe a) s = .next { s with pc := if s.f.getLsbD 2 then a else s.pc } ∧
    exec (.jp a) s = .next { s with pc := if s.f.getLsbD 7 then s.pc else a } ∧
    exec (.jm a) s = .next { s with pc := if s.f.getLsbD 7 then a else s.pc }

/-- CALL, RST and the eight conditional calls (R910 to R918, R930): a call pushes the address past the instruction, low
byte at the lower address, and goes to its target; one whose condition does not hold changes nothing, not even the
cache. -/
def Obligations.CallsAndRestarts : Prop :=
  ∀ s : State,
    (s.Inv → s.Sound → ∃ m, StoredWordAt s (s.sp - 2) s.pc m ∧
      (∀ a, exec (.call a) s = .next { s with pc := a, sp := s.sp - 2, mem := m }) ∧
      (∀ n : BitVec 3, exec (.rst n) s =
        .next { s with pc := BitVec.ofNat 16 (n.toNat * 8), sp := s.sp - 2, mem := m }) ∧
      (∀ a, s.f.getLsbD 6 = false → exec (.cnz a) s = .next { s with pc := a, sp := s.sp - 2, mem := m }) ∧
      (∀ a, s.f.getLsbD 6 = true → exec (.cz a) s = .next { s with pc := a, sp := s.sp - 2, mem := m }) ∧
      (∀ a, s.f.getLsbD 0 = false → exec (.cnc a) s = .next { s with pc := a, sp := s.sp - 2, mem := m }) ∧
      (∀ a, s.f.getLsbD 0 = true → exec (.cc a) s = .next { s with pc := a, sp := s.sp - 2, mem := m }) ∧
      (∀ a, s.f.getLsbD 2 = false → exec (.cpo a) s = .next { s with pc := a, sp := s.sp - 2, mem := m }) ∧
      (∀ a, s.f.getLsbD 2 = true → exec (.cpe a) s = .next { s with pc := a, sp := s.sp - 2, mem := m }) ∧
      (∀ a, s.f.getLsbD 7 = false → exec (.cp a) s = .next { s with pc := a, sp := s.sp - 2, mem := m }) ∧
      (∀ a, s.f.getLsbD 7 = true → exec (.cm a) s = .next { s with pc := a, sp := s.sp - 2, mem := m })) ∧
    (∀ a, (s.f.getLsbD 6 = true → exec (.cnz a) s = .next s) ∧ (s.f.getLsbD 6 = false → exec (.cz a) s = .next s) ∧
      (s.f.getLsbD 0 = true → exec (.cnc a) s = .next s) ∧ (s.f.getLsbD 0 = false → exec (.cc a) s = .next s) ∧
      (s.f.getLsbD 2 = true → exec (.cpo a) s = .next s) ∧ (s.f.getLsbD 2 = false → exec (.cpe a) s = .next s) ∧
      (s.f.getLsbD 7 = true → exec (.cp a) s = .next s) ∧ (s.f.getLsbD 7 = false → exec (.cm a) s = .next s))

/-- RET and the eight conditional returns (R920 to R928): `pc` is the word at `sp` and `sp` moves up by two; one whose
condition does not hold changes nothing. -/
def Obligations.Returns : Prop :=
  ∀ s : State,
    (s.Inv → s.Sound → ∃ m, SameContent s.mem m ∧
      ∀ i ∈ [(Instr.ret, true), (.rnz, !s.f.getLsbD 6), (.rz, s.f.getLsbD 6), (.rnc, !s.f.getLsbD 0),
          (.rc, s.f.getLsbD 0), (.rpo, !s.f.getLsbD 2), (.rpe, s.f.getLsbD 2), (.rp, !s.f.getLsbD 7),
          (.rm, s.f.getLsbD 7)],
        i.2 = true → exec i.1 s =
          .next { s with pc := s.guestByte (s.sp + 1) ++ s.guestByte s.sp, sp := s.sp + 2, mem := m }) ∧
    (s.f.getLsbD 6 = true → exec .rnz s = .next s) ∧ (s.f.getLsbD 6 = false → exec .rz s = .next s) ∧
    (s.f.getLsbD 0 = true → exec .rnc s = .next s) ∧ (s.f.getLsbD 0 = false → exec .rc s = .next s) ∧
    (s.f.getLsbD 2 = true → exec .rpo s = .next s) ∧ (s.f.getLsbD 2 = false → exec .rpe s = .next s) ∧
    (s.f.getLsbD 7 = true → exec .rp s = .next s) ∧ (s.f.getLsbD 7 = false → exec .rm s = .next s)

/-- "`CALL a` followed at `a` by `RET` returns with `pc` and `sp` as before the call" (R910, 95_test_vectors.md W9),
where the two stack bytes are mapped. -/
def Obligations.CallThenReturn : Prop :=
  ∀ (s : State) (a : Addr), s.Inv → s.Sound → s.unmapped (s.sp - 2) = false → s.unmapped (s.sp - 1) = false →
    ∃ t m, exec (.call a) s = .next t ∧ exec .ret t = .next { s with mem := m }

/-! ## Ports and the system instructions -/

/-- IN and OUT (R1000, R1001, R225, R1131): IN gives A the host's byte, the model's free value (assumption log 7); OUT
sends A to the port, and to the two bank-select ports selects the block and the bank. A bank number the machine does not
have leaves the Bank Map as it is, which is the model's choice (assumption log 8). No other state changes. -/
def Obligations.PortInputOutput : Prop :=
  ∀ (s : State) (p : Byte),
    exec (.inp p) s = .next { s with
      a := Config.hostIn s.inDraws p, inDraws := s.inDraws + 1, ports := s.ports ++ [.asked p] } ∧
    (p ≠ s.cfg.portMmuBlock → p ≠ s.cfg.portMmuBank →
      exec (.outp p) s = .next { s with ports := s.ports ++ [.sent p s.a] }) ∧
    (p = s.cfg.portMmuBlock → p ≠ s.cfg.portMmuBank →
      exec (.outp p) s = .next { s with
        mmuBlock := BitVec.ofNat 4 (s.a.toNat % 16), ports := s.ports ++ [.sent p s.a] }) ∧
    (p ≠ s.cfg.portMmuBlock → p = s.cfg.portMmuBank → s.a.toNat < s.cfg.banks →
      ∃ bank : Vector Nat nblk, exec (.outp p) s = .next { s with bank := bank, ports := s.ports ++ [.sent p s.a] } ∧
        ∀ k : BitVec 4, bank[k.toNat]'k.isLt = if k = s.mmuBlock then s.a.toNat else s.bank[k.toNat]'k.isLt) ∧
    (p ≠ s.cfg.portMmuBlock → p = s.cfg.portMmuBank → s.cfg.banks ≤ s.a.toNat →
      exec (.outp p) s = .next { s with ports := s.ports ++ [.sent p s.a] })

/-- EI, DI, HLT and NOP (R1002 to R1005), by their bytes at `pc` and by their meanings: each writes its one bit, or nothing, and
nothing else changes. -/
def Obligations.InterruptFlagHaltNop : Prop :=
  (RunsOneByte .ei 0b11111011 ∧ RunsOneByte .di 0b11110011 ∧ RunsOneByte .hlt 0b01110110 ∧
    RunsOneByte .nop 0b00000000) ∧
  ∀ s : State,
    exec .ei s = .next { s with ie := true } ∧ exec .di s = .next { s with ie := false } ∧
    exec .hlt s = .next { s with stop := true } ∧ exec .nop s = .next s

/-- An undocumented opcode under each `UNDOC_POLICY` (R1006, R1101): the illegal-opcode fault, which sets `stop` and
leaves everything else but `pc`; no operation; or the aliased instruction, whose operand bytes are the next two. -/
def Obligations.UndocumentedOpcode : Prop :=
  ∀ (s : State) (op : Byte), op ∈ undocOpcodes →
    (s.cfg.undocPolicy = .fault →
      ∃ pc, exec (.undoc op) s = .fault (.illegalOpcode { s with pc := pc, stop := true })) ∧
    (s.cfg.undocPolicy = .nop → exec (.undoc op) s = .next s) ∧
    (s.cfg.undocPolicy = .siliconAlias →
      (op ∈ [0x08, 0x10, 0x18, 0x20, 0x28, 0x30, 0x38] → exec (.undoc op) s = .next s) ∧
      (op = 0xD9 → exec (.undoc op) s = exec .ret s) ∧
      (s.Inv → s.Sound →
        (op = 0xCB → ∃ m, SameContent s.mem m ∧ exec (.undoc op) s =
          .next { s with pc := s.guestByte (s.pc + 1) ++ s.guestByte s.pc, mem := m }) ∧
        (op ∈ [0xDD, 0xED, 0xFD] → ∃ m, StoredWordAt s (s.sp - 2) (s.pc + 2) m ∧ exec (.undoc op) s =
          .next { s with
            pc := s.guestByte (s.pc + 1) ++ s.guestByte s.pc, sp := s.sp - 2, mem := m })))
end

