-- ==== Sys2Proof/Laws/Bits.lean ====
section
/-!
SUPPORT. Laws of the byte and word helpers and of the FLAGS bits: what each flag computation leaves at each bit.
-/
namespace Sys2Proof.Machine

theorem join_bit (h l : Byte) (i : Nat) :
    (join h l).getLsbD i = if i < 8 then l.getLsbD i else h.getLsbD (i - 8) := by
  have := @BitVec.getLsbD_append 8 8 i h l
  simpa [join, cond_eq_ite] using this

theorem hi_bit (v : Addr) (i : Nat) (h : i < 8) : (hi v).getLsbD i = v.getLsbD (8 + i) := by
  simp [hi, h]

theorem lo_bit (v : Addr) (i : Nat) (h : i < 8) : (lo v).getLsbD i = v.getLsbD i := by
  simp [lo, h]

@[simp] theorem hi_join (h l : Byte) : hi (join h l) = h := by
  apply BitVec.eq_of_getLsbD_eq
  intro i hlt
  rw [hi_bit _ _ hlt, join_bit, if_neg (by omega), Nat.add_sub_cancel_left]

@[simp] theorem lo_join (h l : Byte) : lo (join h l) = l := by
  apply BitVec.eq_of_getLsbD_eq
  intro i hlt
  rw [lo_bit _ _ hlt, join_bit, if_pos hlt]

@[simp] theorem join_hi_lo (v : Addr) : join (hi v) (lo v) = v := by
  apply BitVec.eq_of_getLsbD_eq
  intro i hlt
  rw [join_bit]
  split
  · exact lo_bit _ _ ‹_›
  · rw [hi_bit _ _ (by omega)]
    congr 1
    omega

theorem join_toNat (h l : Byte) : (join h l).toNat = h.toNat * 256 + l.toNat := by
  have := l.isLt
  simp only [join, BitVec.toNat_append]
  rw [← Nat.shiftLeft_add_eq_or_of_lt l.isLt, Nat.shiftLeft_eq]

theorem hi_toNat (v : Addr) : (hi v).toNat = v.toNat / 256 := by
  have := v.isLt
  simp only [hi, BitVec.extractLsb'_toNat, Nat.shiftRight_eq_div_pow]
  omega

theorem lo_toNat (v : Addr) : (lo v).toNat = v.toNat % 256 := by
  simp [lo, BitVec.extractLsb'_toNat]

/-- A flag write changes its bit and no other (R409). -/
theorem flagPut_bit (f : Byte) (i : Nat) (v : Bool) (j : Nat) (hi : i < 8) (hj : j < 8) :
    (flagPut f i v).getLsbD j = if i = j then v else f.getLsbD j := by
  unfold flagPut
  by_cases h : i = j
  · subst h
    cases v <;> simp [hi]
  · have : ¬ (j - i = 0 ∧ i ≤ j) := by omega
    cases v <;> by_cases h2 : j < i <;> simp [h, h2, hj] <;> omega

end Sys2Proof.Machine
end

