-- ==== Sys2Proof/Laws/Memory.lean ====
section
/-!
SUPPORT. Laws of the canonical lists of cells: a write keeps the canonical form, a read after a write.
-/
namespace Sys2Proof.Machine

theorem Memory.read_above (t : List Host.Cell) : ∀ x y, Memory.wf t = true → Memory.above x t = true → y ≤ x →
    Memory.read t y = Memory.unlisted := by
  induction t with
  | nil => intros; rfl
  | cons c t ih =>
    obtain ⟨k, v⟩ := c
    intro x y hw ha hy
    simp only [Memory.wf, Memory.above, Bool.and_eq_true, decide_eq_true_eq] at hw ha
    have : y ≠ k := by omega
    simp only [Memory.read, if_neg this]
    exact ih k y hw.2 hw.1.2 (by omega)

theorem Memory.read_consCell (x y : Nat) (v : Byte) (t : List Host.Cell) (hw : Memory.wf t = true)
    (ha : Memory.above x t = true) :
    Memory.read (Memory.consCell x v t) y = if y = x then v else Memory.read t y := by
  unfold Memory.consCell
  split
  · next h =>
    subst h
    split
    · next h => subst h; exact Memory.read_above t _ _ hw ha (Nat.le_refl _)
    · rfl
  · rfl

theorem Memory.above_le {x y : Nat} (h : x ≤ y) : ∀ {t : List Host.Cell}, Memory.above y t = true →
    Memory.above x t = true
  | [], _ => rfl
  | (k, _) :: _, ha => by
    simp only [Memory.above, decide_eq_true_eq] at *
    omega

theorem Memory.wf_consCell (x : Nat) (v : Byte) (t : List Host.Cell) (hw : Memory.wf t = true)
    (ha : Memory.above x t = true) : Memory.wf (Memory.consCell x v t) = true := by
  unfold Memory.consCell
  split
  · exact hw
  · next h => simp [Memory.wf, h, hw, ha]

theorem Memory.above_consCell {x y : Nat} {v : Byte} {t : List Host.Cell} (h : y < x)
    (ha : Memory.above x t = true) : Memory.above y (Memory.consCell x v t) = true := by
  unfold Memory.consCell
  split
  · exact Memory.above_le (by omega) ha
  · simpa [Memory.above] using h

theorem Memory.above_write {y x : Nat} {v : Byte} (h : y < x) : ∀ {t : List Host.Cell},
    Memory.above y t = true → Memory.wf t = true → Memory.above y (Memory.write t x v) = true
  | [], _, _ => by
    simp only [Memory.write, Memory.consCell]
    split
    · rfl
    · simpa [Memory.above] using h
  | (k, w) :: t, ha, hw => by
    simp only [Memory.wf, Bool.and_eq_true] at hw
    simp only [Memory.write]
    split
    · next hx => exact Memory.above_consCell h (by simpa [Memory.above] using hx)
    · split
      · next hx => subst hx; exact Memory.above_consCell h hw.1.2
      · simpa [Memory.above] using ha

/-- A write keeps the canonical form. -/
theorem Memory.wf_write (x : Nat) (v : Byte) : ∀ t : List Host.Cell, Memory.wf t = true →
    Memory.wf (Memory.write t x v) = true
  | [], _ => Memory.wf_consCell x v [] rfl rfl
  | (k, w) :: t, hw => by
    have hw' := hw
    simp only [Memory.wf, Bool.and_eq_true] at hw
    simp only [Memory.write]
    split
    · next h => exact Memory.wf_consCell x v _ hw' (by simpa [Memory.above] using h)
    · split
      · next h => subst h; exact Memory.wf_consCell _ v _ hw.2 hw.1.2
      · next h1 h2 =>
        simp only [Memory.wf, Bool.and_eq_true]
        exact ⟨⟨hw.1.1, Memory.above_write (by omega) hw.1.2 hw.2⟩, Memory.wf_write x v t hw.2⟩

/-- A read after a write gives the byte written there, and every other address as it was. -/
theorem Memory.read_write (x y : Nat) (v : Byte) : ∀ t : List Host.Cell, Memory.wf t = true →
    Memory.read (Memory.write t x v) y = if y = x then v else Memory.read t y
  | [], _ => Memory.read_consCell x y v [] rfl rfl
  | (k, w) :: t, hw => by
    have hw' := hw
    simp only [Memory.wf, Bool.and_eq_true] at hw
    simp only [Memory.write]
    split
    · next h => exact Memory.read_consCell x y v _ hw' (by simpa [Memory.above] using h)
    · split
      · next h =>
        subst h
        rw [Memory.read_consCell _ y v _ hw.2 hw.1.2]
        simp only [Memory.read]
        split <;> rfl
      · next h1 h2 =>
        simp only [Memory.read]
        split
        · next h3 => rw [if_neg (by omega)]
        · exact Memory.read_write x y v t hw.2

theorem Memory.wf_writeList : ∀ (vs : List Byte) (x : Nat) (t : List Host.Cell), Memory.wf t = true →
    Memory.wf (Memory.writeList t x vs) = true
  | [], _, _, h => h
  | v :: vs, x, t, h => Memory.wf_writeList vs (x + 1) _ (Memory.wf_write x v t h)

/-- A read after a write of consecutive bytes. -/
theorem Memory.read_writeList (y : Nat) : ∀ (vs : List Byte) (x : Nat) (t : List Host.Cell), Memory.wf t = true →
    Memory.read (Memory.writeList t x vs) y =
      if h : x ≤ y ∧ y - x < vs.length then vs[y - x]'h.2 else Memory.read t y
  | [], x, t, _ => by simp [Memory.writeList]
  | v :: vs, x, t, hw => by
    rw [Memory.writeList, Memory.read_writeList y vs (x + 1) _ (Memory.wf_write x v t hw), Memory.read_write x y v t hw]
    by_cases h : y = x
    · subst h; simp
    · by_cases h2 : x + 1 ≤ y ∧ y - (x + 1) < vs.length
      · have e : y - x = (y - (x + 1)) + 1 := by omega
        have h3 : x ≤ y ∧ y - x < (v :: vs).length := by simp; omega
        rw [dif_pos h2, dif_pos h3]
        simp [e]
      · have h3 : ¬ (x ≤ y ∧ y - x < (v :: vs).length) := by simp; omega
        rw [dif_neg h2, dif_neg h3, if_neg h]

theorem Memory.wf_foldl_write : ∀ (cells : List Host.Cell) (t : List Host.Cell), Memory.wf t = true →
    Memory.wf (cells.foldl (fun m x => Memory.write m x.1 x.2) t) = true
  | [], _, h => h
  | c :: cells, t, h => Memory.wf_foldl_write cells _ (Memory.wf_write c.1 c.2 t h)

/-- A launch image is in canonical form. -/
theorem Memory.wf_ofCells (cells : List Host.Cell) : Memory.wf (Memory.ofCells cells) = true :=
  Memory.wf_foldl_write cells [] rfl

end Sys2Proof.Machine
end

