-- ==== Sys2Proof/Laws/Cache.lean ====
section
/-!
SUPPORT. Laws of the Storage Backend and the Cache Subsystem: what a flush, a promotion, a load and a whole request do
to the lines, the image and the logical content.
-/
namespace Sys2Proof.Machine

/-! ## Blocks of the image -/

@[simp] theorem blockOf_data (image : List Host.Cell) (n j : Nat) (h : j < lineSize) :
    (blockOf image n).data[j] = Memory.read image (cellKey n j) := by
  simp [blockOf]

theorem cellKey_inj {n n' j j' : Nat} (h : j ≤ lineSize) (h' : j' ≤ lineSize)
    (e : cellKey n j = cellKey n' j') : n = n' ∧ j = j' := by
  simp only [cellKey, lineSize] at *
  omega

theorem wf_putBlock {image : List Host.Cell} (hw : Memory.wf image = true) (n : Nat) (x : Buffer) :
    Memory.wf (putBlock image n x) = true := Memory.wf_writeList _ _ _ hw

theorem read_putBlock {image : List Host.Cell} (hw : Memory.wf image = true) (n : Nat) (x : Buffer) (k j : Nat)
    (hj : j ≤ lineSize) : Memory.read (putBlock image n x) (cellKey k j) =
      if k = n then (if h : j < lineSize then x.data[j] else x.check) else Memory.read image (cellKey k j) := by
  rw [putBlock, Memory.read_writeList _ _ _ _ hw]
  simp only [lineSize] at hj
  by_cases hk : k = n
  · subst hk
    have h1 : cellKey k 0 ≤ cellKey k j ∧ cellKey k j - cellKey k 0 < (x.data.toList ++ [x.check]).length := by
      simp only [cellKey, lineSize, List.length_append, Vector.length_toList, List.length_singleton]; omega
    rw [dif_pos h1, if_pos rfl]
    have e : cellKey k j - cellKey k 0 = j := by simp only [cellKey, lineSize]; omega
    simp only [e]
    by_cases h : j < lineSize
    · rw [dif_pos h, List.getElem_append_left (by simpa using h)]
      simp
    · rw [dif_neg h, List.getElem_append_right (by simpa using h)]
      simp
  · have h1 : ¬ (cellKey n 0 ≤ cellKey k j ∧ cellKey k j - cellKey n 0 < (x.data.toList ++ [x.check]).length) := by
      simp only [cellKey, lineSize, List.length_append, Vector.length_toList, List.length_singleton]; omega
    rw [dif_neg h1, if_neg hk]

/-- A block read back after a write of one: the buffer written, and every other block as it was (R240). -/
theorem blockOf_putBlock {image : List Host.Cell} (hw : Memory.wf image = true) (n : Nat) (x : Buffer) (k : Nat) :
    blockOf (putBlock image n x) k = if k = n then x else blockOf image k := by
  have hd : ∀ j (h : j < lineSize), (blockOf (putBlock image n x) k).data[j] =
      (if k = n then x else blockOf image k).data[j] := by
    intro j h
    rw [blockOf_data _ _ _ h, read_putBlock hw n x k j (Nat.le_of_lt h)]
    split
    · simp
    · rw [blockOf_data _ _ _ h]
  have hc : (blockOf (putBlock image n x) k).check = (if k = n then x else blockOf image k).check := by
    show Memory.read _ _ = _
    rw [read_putBlock hw n x k lineSize (Nat.le_refl _)]
    split
    · rw [dif_neg (Nat.lt_irrefl _)]
    · rfl
  have hd' : (blockOf (putBlock image n x) k).data = (if k = n then x else blockOf image k).data := Vector.ext hd
  revert hd' hc
  generalize blockOf (putBlock image n x) k = u
  generalize (if k = n then x else blockOf image k) = w
  cases u; cases w
  intro hc hd
  simp_all

@[simp] theorem sound_ofData (d : Vector Byte lineSize) : (Buffer.ofData d).sound = true := by
  simp [Buffer.sound, Buffer.ofData]

/-! ## Lines -/

theorem Line.holds_iff (x : Line) (n : Nat) : x.holds n = true ↔ x.tag = some n := by
  simp [Line.holds]

theorem swapUp_perm : ∀ (i : Nat) (ls : List Line), (swapUp i ls).Perm ls
  | 0, [] => .refl _
  | 0, [_] => .refl _
  | 0, x :: y :: t => .swap x y t
  | _ + 1, [] => .refl _
  | i + 1, x :: t => (swapUp_perm i t).cons x

@[simp] theorem swapUp_length (i : Nat) (ls : List Line) : (swapUp i ls).length = ls.length :=
  (swapUp_perm i ls).length_eq

/-- A promotion leaves the matched line at the index it answers (R231). -/
theorem swapUp_getElem? : ∀ (i : Nat) (ls : List Line), i < ls.length →
    (swapUp i ls)[if i + 1 < ls.length then i + 1 else i]? = ls[i]?
  | 0, [], h => absurd h (by simp)
  | 0, [_], _ => rfl
  | 0, _ :: _ :: _, _ => by simp [swapUp]
  | _ + 1, [], h => absurd h (by simp)
  | i + 1, x :: t, h => by
    have hi : i < t.length := by simpa using h
    have ih := swapUp_getElem? i t hi
    simp only [swapUp, List.length_cons, List.getElem?_cons_succ]
    by_cases h2 : i + 1 < t.length
    · rw [if_pos h2] at ih
      rw [if_pos (by omega)]
      simpa using ih
    · rw [if_neg h2] at ih
      rw [if_neg (by omega)]
      simpa using ih

/-- The tags of a list of lines. -/
theorem mem_tags {ls : List Line} {n : Nat} : n ∈ ls.filterMap (fun x => x.tag) ↔ ∃ x ∈ ls, x.tag = some n := by
  simp

/-- Two lines with one tag are one line, where the tags are distinct. -/
theorem eq_of_tag : ∀ {ls : List Line}, (ls.filterMap fun x => x.tag).Nodup → ∀ {x y : Line} {n : Nat},
    x ∈ ls → y ∈ ls → x.tag = some n → y.tag = some n → x = y
  | [], _, _, _, _, hx, _, _, _ => absurd hx (by simp)
  | z :: t, hd, x, y, n, hx, hy, hxn, hyn => by
    have key : ∀ {w : Line}, z.tag = some n → w ∈ t → w.tag = some n → False := by
      intro w hz hw hwn
      rw [List.filterMap_cons_some (f := fun x : Line => x.tag) hz] at hd
      exact (List.nodup_cons.1 hd).1 (mem_tags.2 ⟨w, hw, hwn⟩)
    have hd' : (t.filterMap fun x => x.tag).Nodup := by
      cases hz : z.tag with
      | none => rwa [List.filterMap_cons_none (f := fun x : Line => x.tag) hz] at hd
      | some k => rw [List.filterMap_cons_some (f := fun x : Line => x.tag) hz] at hd; exact (List.nodup_cons.1 hd).2
    rcases List.mem_cons.1 hx with rfl | hx' <;> rcases List.mem_cons.1 hy with rfl | hy'
    · rfl
    · exact (key hxn hy' hyn).elim
    · exact (key hyn hx' hxn).elim
    · exact eq_of_tag hd' hx' hy' hxn hyn

/-- The logical content of a block a line holds (R236). -/
theorem logical_of_mem {m : MemSys} (hd : (m.lines.filterMap fun x => x.tag).Nodup) {x : Line} {n : Nat}
    (hx : x ∈ m.lines) (hn : x.tag = some n) (j : Fin lineSize) : m.logical n j = x.data[j] := by
  unfold MemSys.logical
  cases h : m.lines.find? (fun y => y.holds n) with
  | none =>
    have := List.find?_eq_none.1 h x hx
    exact absurd ((Line.holds_iff x n).2 hn) this
  | some y =>
    have h1 := List.mem_of_find?_eq_some h
    have h2 := (Line.holds_iff y n).1 (List.find?_some (p := fun y : Line => y.holds n) h)
    rw [eq_of_tag hd h1 hx h2 hn]

/-- The logical content of a block no line holds (R236). -/
theorem logical_of_absent {m : MemSys} {n : Nat} (h : ∀ x ∈ m.lines, x.tag ≠ some n) (j : Fin lineSize) :
    m.logical n j = (blockOf m.image n).data[j] := by
  unfold MemSys.logical
  rw [List.find?_eq_none.2 fun x hx hh => h x hx ((Line.holds_iff x n).1 hh)]

theorem lookup_none {m : MemSys} {n : Nat} : m.lookup n = none ↔ ∀ x ∈ m.lines, x.tag ≠ some n := by
  simp [MemSys.lookup, List.findIdx?_eq_none_iff, Line.holds]

theorem lookup_some {m : MemSys} {n i : Nat} (h : m.lookup n = some i) :
    ∃ hi : i < m.lines.length, m.lines[i].tag = some n := by
  obtain ⟨hi, h1, _⟩ := List.findIdx?_eq_some_iff_getElem.1 h
  exact ⟨hi, (Line.holds_iff _ _).1 h1⟩

/-! ## A request -/

/-- A permutation of the lines keeps the invariant and every logical byte. -/
theorem MemSys.Ok.perm {m : MemSys} (hm : m.Ok) {ls : List Line} (hp : ls.Perm m.lines) :
    ({ m with lines := ls } : MemSys).Ok ∧ SameContent m { m with lines := ls } := by
  have hd : (ls.filterMap fun x => x.tag).Nodup := ((hp.filterMap _).nodup_iff).2 hm.distinct
  refine ⟨⟨hm.imageWf, ?_, hd, fun x hx => hm.clean x (hp.mem_iff.1 hx)⟩, ?_⟩
  · intro h
    have := hp.length_eq
    simp only at h
    rw [h] at this
    exact hm.nonempty (List.length_eq_zero_iff.1 (by simpa using this.symm))
  · intro n j
    by_cases h : ∃ x ∈ m.lines, x.tag = some n
    · obtain ⟨x, hx, hn⟩ := h
      rw [logical_of_mem hm.distinct hx hn, logical_of_mem (m := { m with lines := ls }) hd (hp.mem_iff.2 hx) hn]
    · have h1 : ∀ x ∈ m.lines, x.tag ≠ some n := fun x hx hn => h ⟨x, hx, hn⟩
      rw [logical_of_absent h1, logical_of_absent (m := { m with lines := ls }) fun x hx => h1 x (hp.mem_iff.1 hx)]

@[simp] theorem flushVictim_lines (m : MemSys) : m.flushVictim.lines = m.lines := by
  unfold MemSys.flushVictim
  split
  · rfl
  · split <;> rfl

/-- The image after the write-back of the victim `x` (R232). -/
theorem flushVictim_image {m : MemSys} (hw : Memory.wf m.image = true) {x : Line} {t : List Line}
    (hl : m.lines = x :: t) : Memory.wf m.flushVictim.image = true ∧ ∀ k, blockOf m.flushVictim.image k =
      if x.tag = some k ∧ x.dirty = true then Buffer.ofData x.data else blockOf m.image k := by
  unfold MemSys.flushVictim
  simp only [hl]
  cases ht : x.tag with
  | none => exact ⟨hw, fun k => by simp⟩
  | some v =>
    cases hd : x.dirty with
    | false => exact ⟨hw, fun k => by simp⟩
    | true =>
      refine ⟨wf_putBlock hw _ _, fun k => ?_⟩
      show blockOf (putBlock m.image v _) k = _
      rw [blockOf_putBlock hw]
      by_cases h : k = v
      · subst h; simp
      · have : ¬ v = k := fun e => h e.symm
        simp [h, this]

theorem modify_concat {α : Type} (t : List α) (x : α) (f : α → α) :
    (t ++ [x]).modify ((t ++ [x]).length - 1) f = t ++ [f x] := by
  simp only [List.length_append, List.length_singleton, Nat.add_sub_cancel]
  induction t with
  | nil => rfl
  | cons y t ih => simp [List.modify_succ_cons, ih]

/-- A miss on block `n` with the victim `x`: the load's answer (R232 to R234). -/
theorem miss_eq (m : MemSys) {x : Line} {t : List Line} (hl : m.lines = x :: t) (n : Nat) :
    m.flushVictim.shift.load n =
      let buf := blockOf m.flushVictim.image n
      if buf.sound then
        .ready t.length
          { lines := t ++ [{ tag := some n, dirty := false, data := buf.data }]
            image := m.flushVictim.image
            calls := m.flushVictim.calls ++ [.readBlock n] }
      else
        .bad
          { lines := t ++ [{ tag := some n, dirty := x.dirty, data := buf.data }]
            image := m.flushVictim.image
            calls := m.flushVictim.calls ++ [.readBlock n] } := by
  have hs : m.flushVictim.shift.lines = t ++ [x] := by simp [MemSys.shift, hl]
  have hlen : m.flushVictim.shift.lines.length - 1 = t.length := by simp [hs]
  simp only [MemSys.load, MemSys.readBlock]
  have e1 : ∀ f : Line → Line, m.flushVictim.shift.lines.modify (m.flushVictim.shift.lines.length - 1) f =
      t ++ [f x] := by
    intro f; rw [hs, modify_concat]
  simp only [e1]
  have e2 : ∀ (y : Line) (f : Line → Line), (t ++ [y]).modify (m.flushVictim.shift.lines.length - 1) f =
      t ++ [f y] := by
    intro y f
    have := modify_concat t y f
    rw [hlen]
    simpa using this
  simp only [e2]
  rw [hlen]
  rfl

/-- Everything a request does, whether or not its load fails (R230 to R236). -/
structure Resolves (m : MemSys) (n i : Nat) (m' : MemSys) : Prop where
  ok : m'.Ok
  content : SameContent m m'
  length : m'.lines.length = m.lines.length
  index : i < m'.lines.length
  tag : ∃ h : i < m'.lines.length, (m'.lines[i]).tag = some n
  /-- The resident blocks are old ones, or the block asked for. -/
  tags : ∀ x ∈ m'.lines, ∀ k, x.tag = some k → k = n ∨ ∃ y ∈ m.lines, y.tag = some k
  /-- A block's correct checksum stays correct. -/
  sound : ∀ k, (blockOf m.image k).sound = true → (blockOf m'.image k).sound = true
  /-- Only a block that was resident is written back. -/
  outside : ∀ k, (∀ x ∈ m.lines, x.tag ≠ some k) → blockOf m'.image k = blockOf m.image k

theorem resolve_hit {m : MemSys} (hm : m.Ok) {n i : Nat} (h : m.lookup n = some i) :
    m.resolve n = .ready (m.promote i).1 (m.promote i).2 ∧ Resolves m n (m.promote i).1 (m.promote i).2 := by
  obtain ⟨hi, ht⟩ := lookup_some h
  have hp := hm.perm (swapUp_perm i m.lines)
  have hlen : (swapUp i m.lines).length = m.lines.length := swapUp_length i m.lines
  have hidx : (if i + 1 < m.lines.length then i + 1 else i) < (swapUp i m.lines).length := by
    rw [hlen]; split <;> omega
  refine ⟨by simp [MemSys.resolve, h], ⟨hp.1, hp.2, hlen, hidx, ⟨hidx, ?_⟩, ?_, fun k hk => hk, fun k _ => rfl⟩⟩
  · have e := swapUp_getElem? i m.lines hi
    rw [List.getElem?_eq_getElem hidx, List.getElem?_eq_getElem hi, Option.some.injEq] at e
    show ((swapUp i m.lines)[if i + 1 < m.lines.length then i + 1 else i]).tag = some n
    rw [e, ht]
  · intro x hx k hk
    exact .inr ⟨x, (swapUp_perm i m.lines).mem_iff.1 hx, hk⟩

/-- The tags of the lines behind a victim are not its own, and are distinct. -/
theorem tail_tags {x : Line} {t : List Line} (h : ((x :: t).filterMap fun x => x.tag).Nodup) :
    (t.filterMap fun x => x.tag).Nodup ∧ ∀ y ∈ t, ∀ k, y.tag = some k → x.tag ≠ some k := by
  refine ⟨?_, fun y hy k hyk hxk => ?_⟩
  · cases hz : x.tag with
    | none => rwa [List.filterMap_cons_none (f := fun x : Line => x.tag) hz] at h
    | some k => rw [List.filterMap_cons_some (f := fun x : Line => x.tag) hz] at h; exact (List.nodup_cons.1 h).2
  · rw [List.filterMap_cons_some (f := fun x : Line => x.tag) hxk] at h
    exact (List.nodup_cons.1 h).1 (mem_tags.2 ⟨y, hy, hyk⟩)

/-- What a miss leaves, whether its check succeeds or fails: distinct tags, and every logical byte (R232 to R236). -/
theorem miss_content {m : MemSys} (hm : m.Ok) {x : Line} {t : List Line} (hl : m.lines = x :: t) {n : Nat}
    (hno : ∀ y ∈ m.lines, y.tag ≠ some n) {new : Line} (hnt : new.tag = some n)
    (hnd : new.data = (blockOf m.flushVictim.image n).data) {m' : MemSys} (hls : m'.lines = t ++ [new])
    (hi : m'.image = m.flushVictim.image) : (m'.lines.filterMap fun x => x.tag).Nodup ∧ SameContent m m' := by
  have himg := (flushVictim_image hm.imageWf hl).2
  have himg' : ∀ k, x.tag ≠ some k → blockOf m.flushVictim.image k = blockOf m.image k := by
    intro k hk; rw [himg, if_neg (fun e => hk e.1)]
  have hd := hm.distinct
  rw [hl] at hd
  have hd' : (m'.lines.filterMap fun x => x.tag).Nodup := by
    rw [hls, List.filterMap_append, List.nodup_append]
    refine ⟨(tail_tags hd).1, by simp [hnt], ?_⟩
    intro a ha b hb e
    obtain ⟨y, hy, hya⟩ := mem_tags.1 ha
    have : b = n := by simpa [hnt, List.filterMap] using hb
    exact hno y (by simp [hl, hy]) (by rw [hya, e, this])
  refine ⟨hd', fun k j => ?_⟩
  by_cases hkn : k = n
  · subst hkn
    rw [logical_of_absent hno, logical_of_mem hd' (x := new) (by simp [hls]) hnt, hnd,
      himg' k (hno x (by simp [hl]))]
  · by_cases hy : ∃ y ∈ t, y.tag = some k
    · obtain ⟨y, hy, hyk⟩ := hy
      rw [logical_of_mem hm.distinct (x := y) (by simp [hl, hy]) hyk,
        logical_of_mem hd' (x := y) (by simp [hls, hy]) hyk]
    · have habs : ∀ y ∈ m'.lines, y.tag ≠ some k := by
        intro y hyl hyk
        rw [hls] at hyl
        rcases List.mem_append.1 hyl with h1 | h1
        · exact hy ⟨y, h1, hyk⟩
        · obtain rfl : y = new := by simpa using h1
          exact hkn (Option.some.inj (hyk.symm.trans hnt))
      rw [logical_of_absent habs, hi]
      by_cases hxk : x.tag = some k
      · rw [logical_of_mem hm.distinct (x := x) (by simp [hl]) hxk, himg]
        cases hdx : x.dirty with
        | true => simp [hxk, Buffer.ofData]
        | false => rw [if_neg (by simp), hm.clean x (by simp [hl]) k hxk hdx]
      · rw [himg' k hxk, logical_of_absent]
        intro y hyl hyk
        rw [hl] at hyl
        rcases List.mem_cons.1 hyl with rfl | h1
        · exact hxk hyk
        · exact hy ⟨y, h1, hyk⟩

theorem MemSys.Ok.cons {m : MemSys} (hm : m.Ok) : ∃ x t, m.lines = x :: t := by
  cases hl : m.lines with
  | nil => exact absurd hl hm.nonempty
  | cons x t => exact ⟨x, t, rfl⟩

/-- What a miss does, whether its check succeeds or fails. -/
theorem miss_resolves {m : MemSys} (hm : m.Ok) {x : Line} {t : List Line} (hl : m.lines = x :: t) {n : Nat}
    (hno : ∀ y ∈ m.lines, y.tag ≠ some n) {new : Line} (hnt : new.tag = some n)
    (hnd : new.data = (blockOf m.flushVictim.image n).data) {m' : MemSys} (hls : m'.lines = t ++ [new])
    (hi : m'.image = m.flushVictim.image) : Resolves m n t.length m' := by
  obtain ⟨hwf, himg⟩ := flushVictim_image hm.imageWf hl
  have himg' : ∀ k, x.tag ≠ some k → blockOf m'.image k = blockOf m.image k := by
    intro k hk; rw [hi, himg, if_neg (fun e => hk e.1)]
  have hxt := (tail_tags (by rw [← hl]; exact hm.distinct)).2
  obtain ⟨hd', hc⟩ := miss_content hm hl hno hnt hnd hls hi
  refine ⟨⟨hi ▸ hwf, by simp [hls], hd', ?_⟩, hc, by simp [hls, hl], by simp [hls],
    ⟨by simp [hls], by simp [hls, hnt]⟩, ?_, ?_, ?_⟩
  · intro y hy k hyk hyd
    rw [hls] at hy
    rcases List.mem_append.1 hy with hy | hy
    · rw [himg' k (hxt y hy k hyk)]
      exact hm.clean y (by simp [hl, hy]) k hyk hyd
    · obtain rfl : y = new := by simpa using hy
      obtain rfl : n = k := Option.some.inj (hnt.symm.trans hyk)
      rw [hnd, hi]
  · intro y hy k hyk
    rw [hls] at hy
    rcases List.mem_append.1 hy with h1 | h1
    · exact .inr ⟨y, by simp [hl, h1], hyk⟩
    · obtain rfl : y = new := by simpa using h1
      exact .inl (Option.some.inj (hyk.symm.trans hnt))
  · intro k hk
    rw [hi, himg]
    split
    · exact sound_ofData _
    · exact hk
  · exact fun k hk => himg' k (hk x (by simp [hl]))

theorem resolve_miss {m : MemSys} (hm : m.Ok) {n : Nat} (h : m.lookup n = none)
    (hs : (blockOf m.image n).sound = true) : ∃ i m', m.resolve n = .ready i m' ∧ Resolves m n i m' := by
  obtain ⟨x, t, hl⟩ := hm.cons
  have hno := lookup_none.1 h
  have hbn : blockOf m.flushVictim.image n = blockOf m.image n := by
    rw [(flushVictim_image hm.imageWf hl).2, if_neg (fun e => hno x (by simp [hl]) e.1)]
  let new : Line := { tag := some n, dirty := false, data := (blockOf m.flushVictim.image n).data }
  let m' : MemSys :=
    { lines := t ++ [new], image := m.flushVictim.image, calls := m.flushVictim.calls ++ [.readBlock n] }
  have hres : m.resolve n = .ready t.length m' := by
    simp only [MemSys.resolve, h]
    rw [miss_eq m hl n]
    simp only [hbn, hs, if_true]
    simp [m', new, hbn]
  exact ⟨t.length, m', hres, miss_resolves hm hl hno (new := new) (m' := m') rfl rfl rfl rfl⟩

/-! ## Backend calls -/

theorem WrittenBack.refl (m : MemSys) : WrittenBack m m := ⟨[], by simp, fun _ => rfl⟩

/-- The calls and the image alone matter. -/
theorem WrittenBack.of_eq {m m' : MemSys} (hi : m'.image = m.image) (hc : m'.calls = m.calls) : WrittenBack m m' :=
  ⟨[], by simp [hc], fun n => by rw [hi]; rfl⟩

theorem buffersAfter_append (xs ys : List BackendCall) (L : Nat → Buffer) :
    buffersAfter L (xs ++ ys) = buffersAfter (buffersAfter L xs) ys := by
  induction xs generalizing L with
  | nil => rfl
  | cons x xs ih => cases x <;> exact ih _

theorem WrittenBack.trans {m m' m'' : MemSys} (h : WrittenBack m m') (k : WrittenBack m' m'') : WrittenBack m m'' := by
  obtain ⟨xs, h1, h2⟩ := h
  obtain ⟨ys, k1, k2⟩ := k
  refine ⟨xs ++ ys, by simp [k1, h1], fun n => ?_⟩
  rw [k2, buffersAfter_append, funext h2]

/-- The write-back of a victim is a `writeBlock`, and nothing else changes the image (R232). -/
theorem flushVictim_written {m : MemSys} (hw : Memory.wf m.image = true) : WrittenBack m m.flushVictim := by
  unfold MemSys.flushVictim
  split
  · exact .refl m
  · split
    · exact ⟨[_], rfl, fun n => blockOf_putBlock hw _ _ n⟩
    · exact .refl m

/-- A request changes the image by the write-back of its victim only, whether it succeeds or fails (R231 to R234). -/
theorem resolve_written {m : MemSys} (hm : m.Ok) {n : Nat} {m' : MemSys}
    (h : m.resolve n = .bad m' ∨ ∃ i, m.resolve n = .ready i m') : WrittenBack m m' := by
  obtain ⟨x, t, hl⟩ := hm.cons
  have key : ∀ {ls : List Line}, WrittenBack m
      { lines := ls, image := m.flushVictim.image, calls := m.flushVictim.calls ++ [.readBlock n] } := fun {ls} =>
    (flushVictim_written hm.imageWf).trans ⟨[.readBlock n], rfl, fun _ => rfl⟩
  unfold MemSys.resolve at h
  split at h
  · rcases h with h | ⟨_, h⟩
    · cases h
    · cases h; exact .of_eq rfl rfl
  · rw [miss_eq m hl n] at h
    simp only at h
    split at h
    · rcases h with h | ⟨_, h⟩
      · cases h
      · cases h; exact key
    · rcases h with h | ⟨_, h⟩
      · cases h; exact key
      · cases h

/-- What a request that fails its check has done: it ends in the failed load (R232 to R236). -/
theorem resolve_bad {m : MemSys} (hm : m.Ok) {n : Nat} {m' : MemSys} (h : m.resolve n = .bad m') :
    Resolves m n (m'.lines.length - 1) m' ∧ ∃ x, m'.lines.getLast? = some x ∧ m'.FailedLoad x n [] := by
  obtain ⟨x, t, hl⟩ := hm.cons
  unfold MemSys.resolve at h
  split at h
  · cases h
  · next hn =>
    rw [miss_eq m hl n] at h
    simp only at h
    split at h
    · cases h
    · next hs =>
      cases h
      refine ⟨?_, _, List.getLast?_concat, ⟨by simp, rfl, rfl, ⟨_, rfl⟩, Bool.eq_false_iff.2 hs⟩⟩
      let new : Line := { tag := some n, dirty := x.dirty, data := (blockOf m.flushVictim.image n).data }
      let bad : MemSys :=
        { lines := t ++ [new], image := m.flushVictim.image, calls := m.flushVictim.calls ++ [.readBlock n] }
      have hlen : (t ++ [new]).length - 1 = t.length := by simp
      have hr := miss_resolves hm hl (lookup_none.1 hn) (new := new) (m' := bad) rfl rfl rfl rfl
      rw [← hlen] at hr
      exact hr

/-- A request fails exactly where the block is not resident and its checksum in the image is wrong (R234, R237). -/
theorem resolve_bad_iff {m : MemSys} (hm : m.Ok) (n : Nat) :
    (∃ m', m.resolve n = .bad m') ↔ m.lookup n = none ∧ (blockOf m.image n).sound = false := by
  constructor
  · rintro ⟨m', h⟩
    cases hl : m.lookup n with
    | some i => rw [(resolve_hit hm hl).1] at h; cases h
    | none =>
      refine ⟨rfl, ?_⟩
      cases hs : (blockOf m.image n).sound with
      | false => rfl
      | true =>
        obtain ⟨i, m'', h', _⟩ := resolve_miss hm hl hs
        rw [h'] at h; cases h
  · rintro ⟨hl, hs⟩
    obtain ⟨x, t, hx⟩ := hm.cons
    have hbn : blockOf m.flushVictim.image n = blockOf m.image n := by
      rw [(flushVictim_image hm.imageWf hx).2, if_neg]
      exact fun e => lookup_none.1 hl x (by simp [hx]) e.1
    simp only [MemSys.resolve, hl]
    rw [miss_eq m hx n]
    simp [hbn, hs]

/-- What a request that succeeds has done. -/
theorem resolve_ready {m : MemSys} (hm : m.Ok) {n i : Nat} {m' : MemSys} (h : m.resolve n = .ready i m') :
    Resolves m n i m' := by
  cases hl : m.lookup n with
  | some k =>
    have := resolve_hit hm hl
    rw [this.1] at h
    cases h
    exact this.2
  | none =>
    cases hs : (blockOf m.image n).sound with
    | true =>
      obtain ⟨i', m'', h', hr⟩ := resolve_miss hm hl hs
      rw [h'] at h
      cases h
      exact hr
    | false =>
      obtain ⟨m'', hb⟩ := (resolve_bad_iff hm n).2 ⟨hl, hs⟩
      rw [hb] at h; cases h

/-- A request on a block with a correct checksum succeeds (R237). -/
theorem resolve_sound {m : MemSys} (hm : m.Ok) {n : Nat} (hs : (blockOf m.image n).sound = true) :
    ∃ i m', m.resolve n = .ready i m' ∧ Resolves m n i m' := by
  cases hl : m.lookup n with
  | some k => exact ⟨_, _, resolve_hit hm hl⟩
  | none => exact resolve_miss hm hl hs

/-- The byte a request finds is the logical content (R236). -/
theorem byteAt_resolved {m : MemSys} {n i : Nat} {m' : MemSys} (h : Resolves m n i m') (j : Fin lineSize) :
    m'.byteAt i j = m.logical n j := by
  obtain ⟨hi, ht⟩ := h.tag
  rw [← h.content n j, logical_of_mem h.ok.distinct (List.getElem_mem hi) ht]
  simp [MemSys.byteAt, List.getD_eq_getElem?_getD, List.getElem?_eq_getElem hi]

/-- A byte set in the line of a request changes that logical byte and no other (R236). -/
theorem setByteAt_resolved {m : MemSys} {n i : Nat} {m' : MemSys} (h : Resolves m n i m') (j : Fin lineSize)
    (v : Byte) : (m'.setByteAt i j v).Ok ∧
      ∀ k l, (m'.setByteAt i j v).logical k l = if (k, l) = (n, j) then v else m.logical k l := by
  obtain ⟨hi, ht⟩ := h.tag
  let x := m'.lines[i]
  let y : Line := { x with data := x.data.set j v, dirty := true }
  have hls : (m'.setByteAt i j v).lines = m'.lines.set i y := by
    simp [MemSys.setByteAt, List.modify_eq_set_getElem?, List.getElem?_eq_getElem hi, y, x]
  have htags : (m'.setByteAt i j v).lines.filterMap (fun x => x.tag) = m'.lines.filterMap (fun x => x.tag) := by
    have hm : ∀ ls : List Line, ls.filterMap (fun x => x.tag) = (ls.map fun x => x.tag).filterMap id := by
      intro ls; simp [List.filterMap_map]
    rw [hm, hm, hls]
    congr 1
    apply List.ext_getElem (by simp)
    intro k h1 h2
    simp only [List.getElem_map, List.getElem_set]
    split
    · next e => subst e; rfl
    · rfl
  have hd : ((m'.setByteAt i j v).lines.filterMap fun x => x.tag).Nodup := by rw [htags]; exact h.ok.distinct
  have hmem : ∀ z ∈ m'.lines.set i y, z = y ∨ (z ∈ m'.lines ∧ z.tag ≠ some n) := by
    intro z hz
    obtain ⟨k, hk, rfl⟩ := List.getElem_of_mem hz
    rw [List.getElem_set]
    split
    · exact .inl rfl
    · next e =>
      have hk' : k < m'.lines.length := by simpa using hk
      refine .inr ⟨List.getElem_mem hk', fun hn => ?_⟩
      have h1 : n ∈ ((m'.lines.eraseIdx i).filterMap fun x => x.tag) :=
        mem_tags.2 ⟨m'.lines[k], List.mem_eraseIdx_iff_getElem.2 ⟨k, hk', fun e' => e e'.symm, rfl⟩, hn⟩
      have h2 : (m'.lines.filterMap fun x => x.tag).Perm (((m'.lines[i] :: m'.lines.eraseIdx i)).filterMap fun x => x.tag) :=
        (List.getElem_cons_eraseIdx_perm hi).symm.filterMap _
      have h3 := h2.nodup_iff.1 h.ok.distinct
      rw [List.filterMap_cons_some (f := fun x : Line => x.tag) ht] at h3
      exact (List.nodup_cons.1 h3).1 h1
  have hy : y ∈ m'.lines.set i y := List.mem_iff_getElem.2 ⟨i, by simpa using hi, by simp⟩
  have hyt : y.tag = some n := ht
  refine ⟨⟨h.ok.imageWf, ?_, hd, ?_⟩, ?_⟩
  · rw [hls]
    intro e
    have := congrArg List.length e
    simp at this
    exact h.ok.nonempty this
  · intro z hz k hzk hzd
    rw [hls] at hz
    rcases hmem z hz with rfl | ⟨hz', _⟩
    · simp [y] at hzd
    · exact h.ok.clean z hz' k hzk hzd
  · intro k l
    by_cases hkn : k = n
    · subst hkn
      rw [logical_of_mem hd (x := y) (by rw [hls]; exact hy) hyt, ← h.content k l,
        logical_of_mem h.ok.distinct (List.getElem_mem hi) ht]
      show (x.data.set j v)[l.val] = _
      by_cases hl : l = j
      · subst hl; simp
      · have : j.val ≠ l.val := fun e => hl (Fin.ext e.symm)
        simp [Vector.getElem_set_ne, this, hl, x]
    · have hne : ¬ ((k, l) = (n, j)) := fun e => hkn (Prod.mk.inj e).1
      rw [if_neg hne, ← h.content k l]
      by_cases hz : ∃ z ∈ m'.lines, z.tag = some k
      · obtain ⟨z, hz, hzk⟩ := hz
        have hz' : z ∈ (m'.setByteAt i j v).lines := by
          rw [hls]
          obtain ⟨p, hp, rfl⟩ := List.getElem_of_mem hz
          have hpi : i ≠ p := by
            intro e; subst e
            rw [ht] at hzk
            exact hkn (Option.some.inj hzk).symm
          exact List.mem_iff_getElem.2 ⟨p, by simpa using hp, by simp [hpi]⟩
        rw [logical_of_mem hd hz' hzk, logical_of_mem h.ok.distinct hz hzk]
      · have h1 : ∀ z ∈ m'.lines, z.tag ≠ some k := fun z hz' e => hz ⟨z, hz', e⟩
        rw [logical_of_absent h1, logical_of_absent]
        · rfl
        · intro z hzl hzk
          rw [hls] at hzl
          rcases hmem z hzl with rfl | ⟨hz', _⟩
          · exact hkn (Option.some.inj (hyt.symm.trans hzk)).symm
          · exact h1 z hz' hzk

/-- What a request has done, whether or not its load failed. -/
theorem resolve_place {m : MemSys} (hm : m.Ok) (n : Nat) :
    Resolves m n (m.resolve n).place.1 (m.resolve n).place.2 ∧ WrittenBack m (m.resolve n).place.2 := by
  cases h : m.resolve n with
  | ready i m' => exact ⟨resolve_ready hm h, resolve_written hm (.inr ⟨i, h⟩)⟩
  | bad m' => exact ⟨(resolve_bad hm h).1, resolve_written hm (.inl h)⟩

theorem setByteAt_tags (m : MemSys) (i : Nat) (j : Fin lineSize) (v : Byte) :
    (m.setByteAt i j v).lines.map (fun x => x.tag) = m.lines.map fun x => x.tag := by
  apply List.ext_getElem (by simp [MemSys.setByteAt])
  intro k h1 h2
  simp only [MemSys.setByteAt, List.getElem_map, List.getElem_modify]
  split <;> rfl

/-- What an access that takes no notice of a failed load does: no logical byte but a stored one changes, the resident
blocks are old ones or its own, and the image changes by write-backs of resident blocks only. -/
theorem accessAnyway_spec {m : MemSys} (hm : m.Ok) (n : Nat) (w : Option (Fin lineSize × Byte)) :
    (m.accessAnyway n w).Ok ∧
      (∀ i l, (∀ j v, w = some (j, v) → (i, l) ≠ (n, j)) → (m.accessAnyway n w).logical i l = m.logical i l) ∧
      (∀ y ∈ (m.accessAnyway n w).lines, ∀ k, y.tag = some k → k = n ∨ ∃ z ∈ m.lines, z.tag = some k) ∧
      (∀ k, (∀ y ∈ m.lines, y.tag ≠ some k) → blockOf (m.accessAnyway n w).image k = blockOf m.image k) ∧
      WrittenBack m (m.accessAnyway n w) := by
  obtain ⟨hr, hw⟩ := resolve_place hm n
  cases w with
  | none => exact ⟨hr.ok, fun i l _ => hr.content i l, hr.tags, hr.outside, hw⟩
  | some p =>
    obtain ⟨h1, h2⟩ := setByteAt_resolved hr p.1 p.2
    refine ⟨h1, fun i l h => (h2 i l).trans (if_neg (h p.1 p.2 rfl)), fun y hy k e => ?_, hr.outside, hw⟩
    obtain ⟨z, hz, e'⟩ := List.mem_map.1 ((setByteAt_tags _ _ p.1 p.2) ▸ List.mem_map.2 ⟨y, hy, e⟩)
    exact hr.tags z hz k e'

/-! ## A failed line and the lines beside it -/

/-- A line that stands last, whose block no other line holds: the logical content is its bytes there, and elsewhere that
of the other lines. -/
theorem logical_beside {m : MemSys} {ls : List Line} {x : Line} (hl : m.lines = ls ++ [x])
    (hd : (m.lines.filterMap fun x => x.tag).Nodup) (k : Nat) (j : Fin lineSize) :
    m.logical k j = if x.tag = some k then x.data[j] else ({ m with lines := ls } : MemSys).logical k j := by
  split
  · next h => exact logical_of_mem hd (by simp [hl]) h j
  · next h =>
    have hx : x.holds k = false := Bool.eq_false_iff.2 fun e => h ((Line.holds_iff x k).1 e)
    unfold MemSys.logical
    rw [hl, List.find?_append]
    cases ls.find? (fun y => y.holds k) <;> simp [hx]

/-- What an access that goes on after a failed load keeps: the memory system stays as good, no logical byte but a stored
one changes, the image changes by write-backs only, and the failed line stands last. -/
structure GoneOn (m : MemSys) (n : Nat) (w : Option (Fin lineSize × Byte)) (x : Line) (k : Nat)
    (after : List BackendCall) (m' : MemSys) : Prop where
  ok : m'.Ok
  content : ∀ i l, (∀ j v, w = some (j, v) → (i, l) ≠ (n, j)) → m'.logical i l = m.logical i l
  written : WrittenBack m m'
  last : m'.lines.getLast? = some x
  failed : ∃ more, m'.FailedLoad x k (after ++ more)

/-- The failed line stands last among lines whose image and calls go on from those of `m`. -/
theorem FailedLoad.beside {m : MemSys} {x : Line} {k : Nat} {after : List BackendCall} (hf : m.FailedLoad x k after)
    {ls : List Line} {image : List Host.Cell} {calls more : List BackendCall} (hb : blockOf image k = blockOf m.image k)
    (hc : calls = m.calls ++ more) :
    ({ lines := ls ++ [x], image := image, calls := calls } : MemSys).FailedLoad x k (after ++ more) := by
  obtain ⟨before, h⟩ := hf.calls
  exact ⟨by simp, hf.tag, hf.data.trans (congrArg Buffer.data hb.symm), ⟨before, by simp [hc, h]⟩,
    (congrArg Buffer.sound hb).trans hf.unsound⟩

section
variable {m : MemSys} (hm : m.Ok) {x : Line} (hl : m.lines.getLast? = some x) {k : Nat} {after : List BackendCall}
  (hf : m.FailedLoad x k after) {n : Nat}
include hm hl hf

theorem GoneOn.refl (n : Nat) (w : Option (Fin lineSize × Byte)) : GoneOn m n w x k after m :=
  ⟨hm, fun _ _ _ => rfl, .refl m, hl, [], by simpa using hf⟩

theorem accessThrough_spec (he : m.lines = [x]) (hx : x.holds n = false) (w : Option (Fin lineSize × Byte)) :
    GoneOn m n w x k after (m.accessThrough x n w) := by
  have hkn : k ≠ n := by
    rintro rfl
    rw [(Line.holds_iff x k).2 hf.tag] at hx
    cases hx
  cases w with
  | none =>
    have e : m.accessThrough x n none = { m with calls := m.calls ++ [.readBlock n, .readBlock k] } := by
      simp [MemSys.accessThrough, MemSys.readBlock, hf.tag]
    rw [e]
    refine ⟨⟨hm.imageWf, hm.nonempty, hm.distinct, hm.clean⟩, fun _ _ _ => rfl, ⟨_, rfl, fun _ => rfl⟩, hl,
      [.readBlock n, .readBlock k], ?_⟩
    have := FailedLoad.beside hf (ls := []) (more := [.readBlock n, .readBlock k]) (rfl : blockOf m.image k = _) rfl
    rw [he]
    exact this
  | some p =>
    obtain ⟨j, v⟩ := p
    obtain ⟨d, hdat⟩ : ∃ d, d = (blockOf m.image n).data.set j v := ⟨_, rfl⟩
    have e : m.accessThrough x n (some (j, v)) =
        { lines := [] ++ [x]
          image := putBlock m.image n (Buffer.ofData d)
          calls := m.calls ++ [.readBlock n, .writeBlock n (Buffer.ofData d), .readBlock k] } := by
      simp [MemSys.accessThrough, MemSys.readBlock, MemSys.writeBlock, hf.tag, hdat, he]
    have himg : ∀ i, blockOf (putBlock m.image n (Buffer.ofData d)) i =
        if i = n then Buffer.ofData d else blockOf m.image i := fun i => blockOf_putBlock hm.imageWf n _ i
    have hk : blockOf (putBlock m.image n (Buffer.ofData d)) k = blockOf m.image k := (himg k).trans (if_neg hkn)
    have hw : Memory.wf (putBlock m.image n (Buffer.ofData d)) = true := wf_putBlock hm.imageWf _ _
    rw [e]
    generalize putBlock m.image n (Buffer.ofData d) = image at himg hk hw
    have hd : (([] ++ [x] : List Line).filterMap fun x => x.tag).Nodup := by rw [List.nil_append, ← he]; exact hm.distinct
    refine ⟨⟨hw, by simp, hd, fun z hz i hzi _ => ?_⟩, fun i l hil => ?_, ⟨_, rfl, himg⟩, by simp,
      _, FailedLoad.beside hf hk rfl⟩
    · obtain rfl : z = x := by simpa using hz
      obtain rfl : k = i := Option.some.inj (hf.tag.symm.trans hzi)
      rw [hk, hf.data]
    · rw [logical_beside (ls := []) rfl hd, logical_beside (ls := []) he hm.distinct]
      split
      · rfl
      · rw [logical_of_absent (by simp), logical_of_absent (by simp)]
        simp only
        rw [himg]
        split
        · next e =>
          subst e
          have hjl : j.val ≠ l.val := fun e => hil j v rfl (by rw [Fin.ext e])
          show d[l.val] = (blockOf m.image i).data[l.val]
          subst hdat
          exact Vector.getElem_set_ne _ _ hjl
        · rfl

theorem accessBeside_spec (n : Nat) (w : Option (Fin lineSize × Byte)) (go : Bool) :
    GoneOn m n w x k after (m.accessBeside n w go) := by
  unfold MemSys.accessBeside
  rw [hl]
  simp only
  split
  · exact .refl hm hl hf n w
  · next hx =>
    have hl' : m.lines = m.lines.dropLast ++ [x] := by
      obtain ⟨ls, e⟩ := List.getLast?_eq_some_iff.1 hl
      rw [e]; simp
    split
    · split
      · next he =>
        exact accessThrough_spec hm hl hf (by rw [hl', List.isEmpty_iff.1 he]; rfl) (Bool.eq_false_iff.2 hx) w
      · next he =>
        have hkn : k ≠ n := by
          rintro rfl
          exact hx ((Line.holds_iff x k).2 hf.tag)
        let o : MemSys := { m with lines := m.lines.dropLast }
        have hd := hm.distinct
        rw [hl', List.filterMap_append, List.nodup_append] at hd
        have hko : ∀ y ∈ o.lines, y.tag ≠ some k := fun y hy e =>
          hd.2.2 k (mem_tags.2 ⟨y, hy, e⟩) k (by simp [hf.tag]) rfl
        have ho : o.Ok := ⟨hm.imageWf, fun e => he (List.isEmpty_iff.2 e), hd.1,
          fun y hy => hm.clean y (List.mem_of_mem_dropLast hy)⟩
        obtain ⟨hrok, hrc, hrt, hrb, more, hc1, hc2⟩ := accessAnyway_spec ho n w
        let r := o.accessAnyway n w
        have hkr : ∀ y ∈ r.lines, y.tag ≠ some k := by
          intro y hy e
          rcases hrt y hy k e with e | ⟨z, hz, e⟩
          · exact hkn e
          · exact hko z hz e
        have hb : blockOf r.image k = blockOf m.image k := hrb k hko
        have hd' : ((r.lines ++ [x]).filterMap fun x => x.tag).Nodup := by
          rw [List.filterMap_append, List.nodup_append]
          refine ⟨hrok.distinct, by simp [hf.tag], ?_⟩
          intro a ha b hb e
          obtain ⟨y, hy, hya⟩ := mem_tags.1 ha
          have : b = k := by simpa [hf.tag, List.filterMap] using hb
          exact hkr y hy (by rw [hya, e, this])
        have hcl : ∀ y ∈ r.lines ++ [x], ∀ i, y.tag = some i → y.dirty = false → y.data = (blockOf r.image i).data := by
          intro y hy i hyi hyd
          rcases List.mem_append.1 hy with hy | hy
          · exact hrok.clean y hy i hyi hyd
          · obtain rfl : y = x := by simpa using hy
            obtain rfl : k = i := Option.some.inj (hf.tag.symm.trans hyi)
            rw [hb, hf.data]
        refine ⟨⟨hrok.imageWf, by simp, hd', hcl⟩, fun i l hil => ?_, ⟨more, hc1, hc2⟩, List.getLast?_concat,
          more, FailedLoad.beside hf hb hc1⟩
        rw [logical_beside (m := { r with lines := r.lines ++ [x] }) rfl hd', logical_beside hl' hm.distinct]
        split
        · rfl
        · exact hrc i l hil
    · exact .refl hm hl hf n w

end

/-! ## Placing a byte from outside -/

/-- Placing a byte keeps the image canonical. -/
theorem wf_pokeImage {image : List Host.Cell} (hw : Memory.wf image = true) (n : Nat) (j : Fin lineSize) (v : Byte) :
    Memory.wf (pokeImage image n j v) = true := Memory.wf_write _ _ _ (Memory.wf_write _ _ _ hw)

/-- Placing a byte changes that byte of the block's data and no other. -/
theorem data_pokeImage {image : List Host.Cell} (hw : Memory.wf image = true) (n : Nat) (j : Fin lineSize) (v : Byte)
    (k : Nat) (l : Fin lineSize) :
    (blockOf (pokeImage image n j v) k).data[l] = if (k, l) = (n, j) then v else (blockOf image k).data[l] := by
  have hl := l.isLt
  have hj := j.isLt
  have h1 : cellKey k l.val ≠ cellKey n lineSize := fun e => by
    have := (cellKey_inj (by omega) (Nat.le_refl _) e).2; omega
  have h2 : cellKey k l.val = cellKey n j.val ↔ (k, l) = (n, j) := by
    constructor
    · intro e
      obtain ⟨rfl, e2⟩ := cellKey_inj (by omega) (by omega) e
      rw [Fin.ext e2]
    · intro e; cases e; rfl
  show (blockOf _ k).data[l.val] = if (k, l) = (n, j) then v else (blockOf image k).data[l.val]
  rw [blockOf_data _ _ _ hl, blockOf_data _ _ _ hl, pokeImage, Memory.read_write _ _ _ _ (Memory.wf_write _ _ _ hw),
    if_neg h1, Memory.read_write _ _ _ _ hw]
  simp only [h2]

/-- Placing a byte changes that logical byte and no other. -/
theorem logical_poke {m : MemSys} (hw : Memory.wf m.image = true) (n : Nat) (j : Fin lineSize) (v : Byte) (k : Nat)
    (l : Fin lineSize) : (m.poke n j v).logical k l = if (k, l) = (n, j) then v else m.logical k l := by
  let put : Line → Line := fun x => if x.holds n then { x with data := x.data.set j v } else x
  have hf : (fun x : Line => x.holds k) ∘ put = fun x => x.holds k := by
    funext x
    show (put x).holds k = x.holds k
    simp only [put]
    split <;> rfl
  have hm : (m.poke n j v).lines.find? (fun x => x.holds k) = (m.lines.find? fun x => x.holds k).map put := by
    rw [show (m.poke n j v).lines = m.lines.map put from rfl, List.find?_map, hf]
  unfold MemSys.logical
  rw [hm]
  cases h : m.lines.find? (fun x => x.holds k) with
  | none => exact data_pokeImage hw n j v k l
  | some x =>
    have hx : x.tag = some k := (Line.holds_iff x k).1 (List.find?_some (p := fun x : Line => x.holds k) h)
    by_cases hkn : k = n
    · subst hkn
      have hh : x.holds k = true := (Line.holds_iff _ _).2 hx
      simp only [Option.map_some, put, hh, if_true]
      show (x.data.set j v)[l.val] = if _ then v else x.data[l.val]
      by_cases hl : l = j
      · subst hl; simp
      · rw [if_neg (by simpa using hl), Vector.getElem_set_ne]
        exact fun e => hl (Fin.ext e.symm)
    · have hh : x.holds n = false := by
        cases he : x.holds n with
        | false => rfl
        | true => exact absurd (Option.some.inj (hx.symm.trans ((Line.holds_iff _ _).1 he))) hkn
      rw [if_neg (by simp [hkn])]
      simp [put, hh]

end Sys2Proof.Machine
end

