-- ==== Sys2Proof/Laws/Ops.lean ====
section
/-!
SUPPORT. One lemma for each shared operation over the state: what it has done when it answers, that it answers where
the storage is sound, and what it raises.
-/
namespace Sys2Proof.Machine

/-! ## Results -/

@[simp] theorem Res.andThen_ok {α β : Type} (v : α) (s : State) (k : α → State → Res β) :
    (Res.ok v s).andThen k = k v s := rfl

@[simp] theorem Res.andThen_raised {α β : Type} (r : FaultReason) (s : State) (k : α → State → Res β) :
    (Res.raised r s : Res α).andThen k = .raised r s := rfl

@[simp] theorem Res.finish_ok {α : Type} (v : α) (s : State) (w : Extent)
    (k : α → State → Host.Outcome State Fault Refusal) : (Res.ok v s).finish w k = k v s := rfl

@[simp] theorem Res.finish_raised {α : Type} (r : FaultReason) (s : State) (w : Extent)
    (k : α → State → Host.Outcome State Fault Refusal) :
    (Res.raised r s : Res α).finish w k = .fault (Fault.ofRaised r w s) := rfl

@[simp] theorem Res.outcome_ok (s : State) (w : Extent) : (Res.ok () s).outcome w = .next s := rfl

@[simp] theorem Res.outcome_raised (r : FaultReason) (s : State) (w : Extent) :
    (Res.raised r s : Res Unit).outcome w = .fault (Fault.ofRaised r w s) := rfl

/-- A sequence answers exactly where both its parts do. -/
theorem Res.andThen_eq_ok {α β : Type} {x : Res α} {k : α → State → Res β} {v : β} {t : State} :
    x.andThen k = .ok v t ↔ ∃ a u, x = .ok a u ∧ k a u = .ok v t := by
  cases x <;> simp

/-- A sequence raises what its first part raises, or else what its second part raises. -/
theorem Res.andThen_eq_raised {α β : Type} {x : Res α} {k : α → State → Res β} {r : FaultReason} {t : State} :
    x.andThen k = .raised r t ↔ x = .raised r t ∨ ∃ a u, x = .ok a u ∧ k a u = .raised r t := by
  cases x <;> simp

/-- The last operation of a step gives a next state exactly where it answers and the rest gives one. -/
theorem Res.finish_eq_next {α : Type} {x : Res α} {w : Extent} {k : α → State → Host.Outcome State Fault Refusal}
    {t : State} : x.finish w k = .next t ↔ ∃ a u, x = .ok a u ∧ k a u = .next t := by
  cases x <;> simp

theorem Res.outcome_eq_next {x : Res Unit} {w : Extent} {t : State} : x.outcome w = .next t ↔ x = .ok () t := by
  cases x with
  | ok v s => cases v; simp
  | raised r s => simp

/-! ## The invariant and the premise depend on the memory system, the Bank Map, the parameters and the signals -/

theorem State.Inv.congr {s t : State} (h : s.Inv) (hm : t.mem = s.mem) (hc : t.cfg = s.cfg) (hb : t.bank = s.bank)
    (hs : t.fatal = true → t.stop = true) : t.Inv := by
  refine ⟨hm ▸ h.mem, ?_, ?_, hc ▸ h.config, ?_, hs⟩
  · rw [hm, hc]; exact h.lineCount
  · rw [hm, hc]; exact h.tags
  · intro i
    have := h.banks i
    simpa [hb, hc] using this

theorem State.Sound.congr {s t : State} (h : s.Sound) (hm : t.mem = s.mem) (hc : t.cfg = s.cfg) : t.Sound := by
  intro n hn
  rw [hm]
  exact h n (hc ▸ hn)

/-! ## Translation -/

theorem off_val (a : Addr) : (off a).val = a.toNat % lineSize :=
  Nat.and_two_pow_sub_one_eq_mod a.toNat 6

theorem blk_congr {s t : State} (hb : t.bank = s.bank) (hc : t.cfg.storageOffset = s.cfg.storageOffset) (a : Addr) :
    t.blk a = s.blk a := by
  simp [State.blk, State.lin, State.bankOf, hb, hc]

theorem stored_congr {s t : State} (hb : t.bank = s.bank) (hc : t.cfg = s.cfg) (a : Addr) (v : Byte) :
    t.stored a v = s.stored a v := by
  unfold State.stored State.loc State.unmapped
  rw [blk_congr hb (by rw [hc]), hc]

/-- A mapped guest address names a block of the core's range (R222). -/
theorem blk_inCore {s : State} (h : s.Inv) (a : Addr) : inCore s.cfg (s.blk a) := by
  have hb : s.bankOf a < s.cfg.banks := h.banks (bankIndex a)
  have ha := a.isLt
  simp only [inCore, State.blk, State.lin, lineSize] at *
  constructor
  · omega
  · have : a.toNat + s.bankOf a * 65536 < s.cfg.banks * 65536 := by
      have : (s.bankOf a + 1) * 65536 ≤ s.cfg.banks * 65536 := Nat.mul_le_mul_right _ hb
      omega
    omega

/-- Distinct guest addresses name distinct bytes, whatever the Bank Maps (R223). -/
theorem loc_inj {s t : State} (hc : t.cfg.storageOffset = s.cfg.storageOffset) {a b : Addr}
    (h : s.loc a = t.loc b) : a = b := by
  have h1 : s.blk a = t.blk b := congrArg Prod.fst h
  have h2 : (off a).val = (off b).val := congrArg (fun p => p.2.val) h
  rw [off_val, off_val] at h2
  simp only [State.blk, State.lin, lineSize, hc] at h1 h2
  apply BitVec.eq_of_toNat_eq
  have ha := a.isLt
  have hb := b.isLt
  omega

/-! ## What an operation leaves alone, in every state -/

theorem cacheResolve_rest {s t : State} {a : Addr} {i : Nat} (h : s.cacheResolve a = .ok i t) :
    t = { s with mem := t.mem } := by
  unfold State.cacheResolve at h
  split at h
  · cases h; rfl
  · cases h

theorem readByte_rest {s t : State} {a : Addr} {v : Byte} (h : s.readByte a = .ok v t) :
    t = { s with mem := t.mem } := by
  unfold State.readByte at h
  split at h
  · cases h; rfl
  · obtain ⟨i, u, h1, h2⟩ := Res.andThen_eq_ok.1 h
    cases h2
    exact cacheResolve_rest h1

theorem writeByte_rest {s t : State} {a : Addr} {v : Byte} (h : s.writeByte a v = .ok () t) :
    t = { s with mem := t.mem } := by
  unfold State.writeByte at h
  split at h
  · cases h; rfl
  · obtain ⟨i, u, h1, h2⟩ := Res.andThen_eq_ok.1 h
    cases h2
    conv => lhs; rw [cacheResolve_rest h1]

theorem readWord_rest {s t : State} {a v : Addr} (h : s.readWord a = .ok v t) : t = { s with mem := t.mem } := by
  obtain ⟨l, u, h1, h2⟩ := Res.andThen_eq_ok.1 h
  obtain ⟨hb, w, h3, h4⟩ := Res.andThen_eq_ok.1 h2
  cases h4
  rw [readByte_rest h3, readByte_rest h1]

theorem writeWord_rest {s t : State} {a v : Addr} (h : s.writeWord a v = .ok () t) : t = { s with mem := t.mem } := by
  obtain ⟨⟨⟩, u, h1, h2⟩ := Res.andThen_eq_ok.1 h
  rw [writeByte_rest h2, writeByte_rest h1]

theorem fetch8_rest {s t : State} {v : Byte} (h : s.fetch8 = .ok v t) : t = { s with pc := s.pc + 1, mem := t.mem } := by
  obtain ⟨w, u, h1, h2⟩ := Res.andThen_eq_ok.1 h
  cases h2
  conv => lhs; rw [readByte_rest h1]

theorem fetch16_rest {s t : State} {v : Addr} (h : s.fetch16 = .ok v t) :
    t = { s with pc := s.pc + 2, mem := t.mem } := by
  obtain ⟨l, u, h1, h2⟩ := Res.andThen_eq_ok.1 h
  obtain ⟨hb, w, h3, h4⟩ := Res.andThen_eq_ok.1 h2
  cases h4
  rw [fetch8_rest h3, fetch8_rest h1, BitVec.add_assoc]
  rfl

theorem push16_rest {s t : State} {v : Addr} (h : s.push16 v = .ok () t) :
    t = { s with sp := s.sp - 2, mem := t.mem } := writeWord_rest h

theorem pop16_rest {s t : State} {v : Addr} (h : s.pop16 = .ok v t) :
    t = { s with sp := s.sp + 2, mem := t.mem } := by
  obtain ⟨w, u, h1, h2⟩ := Res.andThen_eq_ok.1 h
  cases h2
  conv => lhs; rw [readWord_rest h1]

theorem readOperand_rest {s t : State} {o : Operand} {v : Byte} (h : s.readOperand o = .ok v t) :
    t = { s with mem := t.mem } := by
  cases o with
  | reg r => cases h; rfl
  | m => exact readByte_rest h

/-! ## Memory accesses -/

/-- What an access has done: nothing outside the memory system, whose logical content is now `L`; the invariant and
the premise on the storage are kept, and no image block outside the core's range has changed. -/
structure Touched (s t : State) (L : Nat → Fin lineSize → Byte) : Prop where
  rest : t = { s with mem := t.mem }
  logical : ∀ n j, t.mem.logical n j = L n j
  inv : t.Inv
  sound : s.Sound → t.Sound
  outside : ∀ n, ¬ inCore s.cfg n → blockOf t.mem.image n = blockOf s.mem.image n

theorem Touched.refl {s : State} (h : s.Inv) : Touched s s s.mem.logical :=
  ⟨rfl, fun _ _ => rfl, h, id, fun _ _ => rfl⟩

theorem Touched.trans {s t u : State} {L L' : Nat → Fin lineSize → Byte} (h1 : Touched s t L) (h2 : Touched t u L') :
    Touched s u L' := by
  refine ⟨?_, h2.logical, h2.inv, h2.sound ∘ h1.sound, fun n hn => ?_⟩
  · rw [h2.rest, h1.rest]
  · rw [h2.outside n (by rw [h1.rest]; exact hn), h1.outside n hn]

theorem Touched.same {s t : State} (h : Touched s t s.mem.logical) : SameContent s.mem t.mem := h.logical

theorem Touched.logical_eq {s t : State} {L : Nat → Fin lineSize → Byte} (h : Touched s t L) : t.mem.logical = L := by
  funext n j; exact h.logical n j

theorem Touched.cfg {s t : State} {L : Nat → Fin lineSize → Byte} (h : Touched s t L) : t.cfg = s.cfg := by rw [h.rest]

theorem Touched.bank {s t : State} {L : Nat → Fin lineSize → Byte} (h : Touched s t L) : t.bank = s.bank := by
  rw [h.rest]

theorem Touched.guestByte {s t : State} (h : Touched s t s.mem.logical) (a : Addr) : t.guestByte a = s.guestByte a := by
  unfold State.guestByte State.unmapped
  rw [h.cfg, blk_congr h.bank (by rw [h.cfg]), h.logical]

theorem resolves_touched {s : State} (hs : s.Inv) {a : Addr} {i : Nat} {m : MemSys}
    (h : Resolves s.mem (s.blk a) i m) : Touched s { s with mem := m } s.mem.logical where
  rest := rfl
  logical := h.content
  inv := by
    refine ⟨h.ok, ?_, ?_, hs.config, hs.banks, hs.signals⟩
    · show m.lines.length = _
      rw [h.length]; exact hs.lineCount
    · intro x hx n hn
      rcases h.tags x hx n hn with rfl | ⟨y, hy, hyn⟩
      · exact blk_inCore hs a
      · exact hs.tags y hy n hyn
  sound hw n hn := h.sound n (hw n hn)
  outside n hn := h.outside n fun x hx hxn => hn (hs.tags x hx n hxn)

theorem cacheResolve_ok {s : State} (hs : s.Inv) {a : Addr} {i : Nat} {t : State} (h : s.cacheResolve a = .ok i t) :
    Resolves s.mem (s.blk a) i t.mem ∧ Touched s t s.mem.logical := by
  unfold State.cacheResolve at h
  cases hr : s.mem.resolve (s.blk a) with
  | bad m => rw [hr] at h; simp [raise] at h
  | ready k m =>
    rw [hr] at h
    simp only [Res.ok.injEq] at h
    obtain ⟨rfl, rfl⟩ := h
    have := resolve_ready hs.mem hr
    exact ⟨this, resolves_touched hs this⟩

theorem cacheResolve_total {s : State} (hs : s.Inv) (hw : s.Sound) (a : Addr) : ∃ i t, s.cacheResolve a = .ok i t := by
  obtain ⟨i, m, hr, _⟩ := resolve_sound hs.mem (hw _ (blk_inCore hs a))
  exact ⟨i, { s with mem := m }, by simp [State.cacheResolve, hr]⟩

/-- The integrity failure: `MemoryIntegrity`, with both signals set, exactly where the block is not resident and its
checksum is wrong (R235, R237). -/
theorem cacheResolve_raised {s : State} (hs : s.Inv) {a : Addr} {r : FaultReason} {t : State}
    (h : s.cacheResolve a = .raised r t) : r = .memoryIntegrity ∧ t.stop = true ∧ t.fatal = true ∧
      s.mem.lookup (s.blk a) = none ∧ (blockOf s.mem.image (s.blk a)).sound = false := by
  unfold State.cacheResolve at h
  cases hr : s.mem.resolve (s.blk a) with
  | ready k m => rw [hr] at h; cases h
  | bad m =>
    rw [hr] at h
    have := (resolve_bad_iff hs.mem _).1 ⟨m, hr⟩
    simp only [raise, Res.raised.injEq] at h
    obtain ⟨rfl, rfl⟩ := h
    exact ⟨rfl, rfl, rfl, this⟩

/-- `ReadByte` (R210, R236): the byte is the logical content, and only the cache has moved. -/
theorem readByte_ok {s : State} (hs : s.Inv) {a : Addr} {v : Byte} {t : State} (h : s.readByte a = .ok v t) :
    v = s.guestByte a ∧ Touched s t s.mem.logical := by
  unfold State.readByte at h
  split at h
  · next hu =>
    cases h
    exact ⟨by simp [State.guestByte, hu], Touched.refl hs⟩
  · next hu =>
    obtain ⟨i, u, h1, h2⟩ := Res.andThen_eq_ok.1 h
    cases h2
    obtain ⟨hr, ht⟩ := cacheResolve_ok hs h1
    exact ⟨by simp [State.guestByte, hu, byteAt_resolved hr], ht⟩

theorem readByte_total {s : State} (hs : s.Inv) (hw : s.Sound) (a : Addr) :
    ∃ t, s.readByte a = .ok (s.guestByte a) t ∧ Touched s t s.mem.logical := by
  have : ∃ v t, s.readByte a = .ok v t := by
    unfold State.readByte
    split
    · exact ⟨_, _, rfl⟩
    · obtain ⟨i, t, h⟩ := cacheResolve_total hs hw a
      exact ⟨_, _, by rw [h]; rfl⟩
  obtain ⟨v, t, h⟩ := this
  obtain ⟨rfl, ht⟩ := readByte_ok hs h
  exact ⟨t, h, ht⟩

/-- `WriteByte` (R211, R236): one logical byte is stored, or none above `MAX_ADDR`. -/
theorem writeByte_ok {s : State} (hs : s.Inv) {a : Addr} {v : Byte} {t : State} (h : s.writeByte a v = .ok () t) :
    Touched s t (s.stored a v s.mem.logical) := by
  unfold State.writeByte at h
  split at h
  · next hu =>
    cases h
    have : s.stored a v s.mem.logical = s.mem.logical := by
      funext n j; simp [State.stored, hu]
    rw [this]; exact Touched.refl hs
  · next hu =>
    obtain ⟨i, u, h1, h2⟩ := Res.andThen_eq_ok.1 h
    cases h2
    obtain ⟨hr, ht⟩ := cacheResolve_ok hs h1
    have hset := setByteAt_resolved hr (off a) v
    have hlen : (u.mem.setByteAt i (off a) v).lines.length = u.mem.lines.length := by
      simp [MemSys.setByteAt]
    refine ⟨?_, ?_, ⟨hset.1, ?_, ?_, ht.inv.config, ht.inv.banks, ht.inv.signals⟩, ht.sound, ht.outside⟩
    · conv => lhs; rw [ht.rest]
    · intro n j
      rw [hset.2 n j]
      simp [State.stored, hu, State.loc]
    · show (u.mem.setByteAt i (off a) v).lines.length = _
      rw [hlen]; exact ht.inv.lineCount
    · intro x hx n hn
      have hx' : x ∈ u.mem.lines.modify i (fun y => { y with data := y.data.set (off a) v, dirty := true }) := hx
      obtain ⟨k, hk, rfl⟩ := List.getElem_of_mem hx'
      rw [List.length_modify] at hk
      rw [List.getElem_modify] at hn
      refine ht.inv.tags (u.mem.lines[k]) (List.getElem_mem hk) n ?_
      split at hn <;> exact hn

theorem writeByte_total {s : State} (hs : s.Inv) (hw : s.Sound) (a : Addr) (v : Byte) :
    ∃ t, s.writeByte a v = .ok () t ∧ Touched s t (s.stored a v s.mem.logical) := by
  have : ∃ t, s.writeByte a v = .ok () t := by
    unfold State.writeByte
    split
    · exact ⟨_, rfl⟩
    · obtain ⟨i, t, h⟩ := cacheResolve_total hs hw a
      exact ⟨_, by rw [h]; rfl⟩
  obtain ⟨t, h⟩ := this
  exact ⟨t, h, writeByte_ok hs h⟩

/-- `MemRead(a, 2)` (R16, R201). -/
theorem readWord_ok {s : State} (hs : s.Inv) {a v : Addr} {t : State} (h : s.readWord a = .ok v t) :
    v = s.guestWord a ∧ Touched s t s.mem.logical := by
  obtain ⟨l, u, h1, h2⟩ := Res.andThen_eq_ok.1 h
  obtain ⟨hb, w, h3, h4⟩ := Res.andThen_eq_ok.1 h2
  cases h4
  obtain ⟨rfl, ht1⟩ := readByte_ok hs h1
  obtain ⟨rfl, ht2⟩ := readByte_ok ht1.inv h3
  refine ⟨by rw [State.guestWord, ht1.guestByte], ?_⟩
  rw [← ht1.logical_eq]
  exact (ht1.trans (ht1.logical_eq ▸ ht2))

theorem readWord_total {s : State} (hs : s.Inv) (hw : s.Sound) (a : Addr) :
    ∃ t, s.readWord a = .ok (s.guestWord a) t ∧ Touched s t s.mem.logical := by
  obtain ⟨u, h1, ht1⟩ := readByte_total hs hw a
  obtain ⟨t, h2, _⟩ := readByte_total ht1.inv (ht1.sound hw) (a + 1)
  have h : s.readWord a = .ok (join (u.guestByte (a + 1)) (s.guestByte a)) t := by
    simp only [State.readWord, h1, Res.andThen_ok, h2]
  obtain ⟨e, ht⟩ := readWord_ok hs h
  exact ⟨t, by rw [h, e], ht⟩

/-- `MemWrite(a, 2, v)` (R16, R201). -/
theorem writeWord_ok {s : State} (hs : s.Inv) {a v : Addr} {t : State} (h : s.writeWord a v = .ok () t) :
    Touched s t (s.storedWord a v s.mem.logical) := by
  obtain ⟨⟨⟩, u, h1, h2⟩ := Res.andThen_eq_ok.1 h
  have ht1 := writeByte_ok hs h1
  have ht2 := writeByte_ok ht1.inv h2
  rw [stored_congr ht1.bank ht1.cfg, ht1.logical_eq] at ht2
  exact ht1.trans ht2

theorem writeWord_total {s : State} (hs : s.Inv) (hw : s.Sound) (a v : Addr) :
    ∃ t, s.writeWord a v = .ok () t ∧ Touched s t (s.storedWord a v s.mem.logical) := by
  obtain ⟨u, h1, ht1⟩ := writeByte_total hs hw a (lo v)
  obtain ⟨t, h2, _⟩ := writeByte_total ht1.inv (ht1.sound hw) (a + 1) (hi v)
  have h : s.writeWord a v = .ok () t := by
    simp only [State.writeWord, h1, Res.andThen_ok, h2]
  exact ⟨t, h, writeWord_ok hs h⟩

/-! ## Reading what was stored (R250) -/

theorem guestByte_congr {s t : State} (hb : t.bank = s.bank) (hc : t.cfg = s.cfg) (a : Addr) :
    t.guestByte a = if s.unmapped a then 0xFF else t.mem.logical (s.blk a) (off a) := by
  unfold State.guestByte State.unmapped
  rw [hc, blk_congr hb (by rw [hc])]

theorem stored_same {s : State} {a : Addr} {v : Byte} {L : Nat → Fin lineSize → Byte} (h : s.unmapped a = false) :
    s.stored a v L (s.blk a) (off a) = v := by
  simp [State.stored, h, State.loc]

theorem stored_other {s : State} {a b : Addr} {v : Byte} {L : Nat → Fin lineSize → Byte} (h : b ≠ a) :
    s.stored a v L (s.blk b) (off b) = L (s.blk b) (off b) := by
  unfold State.stored
  rw [if_neg]
  rintro ⟨_, e⟩
  exact h (loc_inj rfl e)

theorem succ_ne (a : Addr) : a + 1 ≠ a := by
  intro e
  have h : (a.toNat + 1) % 65536 = a.toNat := congrArg BitVec.toNat e
  have := a.isLt
  omega

/-- A stored word reads back, where both its bytes are mapped. -/
theorem guestWord_stored {s t : State} {a v : Addr} (hb : t.bank = s.bank) (hc : t.cfg = s.cfg)
    (h : StoredWordAt s a v t.mem) (hl : s.unmapped a = false) (hh : s.unmapped (a + 1) = false) :
    t.guestWord a = v := by
  have e1 : t.guestByte a = lo v := by
    rw [guestByte_congr hb hc, hl, h]
    exact (stored_other (succ_ne a).symm).trans (stored_same hl)
  have e2 : t.guestByte (a + 1) = hi v := by
    rw [guestByte_congr hb hc, hh, h]
    exact stored_same hh
  rw [State.guestWord, e1, e2, join_hi_lo]

/-! ## Fetch -/

theorem fetch8_ok {s : State} (hs : s.Inv) {v : Byte} {t : State} (h : s.fetch8 = .ok v t) :
    v = s.guestByte s.pc ∧ Touched { s with pc := s.pc + 1 } t s.mem.logical := by
  obtain ⟨w, u, h1, h2⟩ := Res.andThen_eq_ok.1 h
  cases h2
  obtain ⟨rfl, ht⟩ := readByte_ok hs h1
  refine ⟨rfl, ⟨?_, ht.logical, ht.inv.congr rfl rfl rfl ht.inv.signals, ht.sound, ht.outside⟩⟩
  rw [ht.rest]

theorem fetch8_total {s : State} (hs : s.Inv) (hw : s.Sound) :
    ∃ t, s.fetch8 = .ok (s.guestByte s.pc) t ∧ Touched { s with pc := s.pc + 1 } t s.mem.logical := by
  obtain ⟨u, h1, _⟩ := readByte_total hs hw s.pc
  have h : s.fetch8 = .ok (s.guestByte s.pc) { u with pc := u.pc + 1 } := by simp [State.fetch8, h1]
  exact ⟨_, h, (fetch8_ok hs h).2⟩

theorem fetch16_ok {s : State} (hs : s.Inv) {v : Addr} {t : State} (h : s.fetch16 = .ok v t) :
    v = s.guestWord s.pc ∧ Touched { s with pc := s.pc + 2 } t s.mem.logical := by
  obtain ⟨l, u, h1, h2⟩ := Res.andThen_eq_ok.1 h
  obtain ⟨hb, w, h3, h4⟩ := Res.andThen_eq_ok.1 h2
  cases h4
  obtain ⟨rfl, ht1⟩ := fetch8_ok hs h1
  obtain ⟨rfl, ht2⟩ := fetch8_ok ht1.inv h3
  have epc : u.pc = s.pc + 1 := by rw [ht1.rest]
  have eb : u.bank = s.bank := by rw [ht1.rest]
  have ec : u.cfg = s.cfg := by rw [ht1.rest]
  refine ⟨?_, ⟨?_, ?_, ht2.inv, ?_, ?_⟩⟩
  · rw [State.guestWord, epc]
    congr 1
    unfold State.guestByte State.unmapped
    rw [ec, blk_congr eb (by rw [ec]), ht1.logical]
  · rw [ht2.rest, ht1.rest, BitVec.add_assoc]
    rfl
  · intro n j
    rw [ht2.logical, ht1.logical]
  · exact fun hw => ht2.sound (ht1.sound hw)
  · intro n hn
    rw [ht2.outside n (by show ¬ inCore u.cfg n; rw [ec]; exact hn)]
    exact ht1.outside n hn

theorem fetch16_total {s : State} (hs : s.Inv) (hw : s.Sound) :
    ∃ t, s.fetch16 = .ok (s.guestWord s.pc) t ∧ Touched { s with pc := s.pc + 2 } t s.mem.logical := by
  obtain ⟨u, h1, ht1⟩ := fetch8_total hs hw
  obtain ⟨t, h2, _⟩ := fetch8_total ht1.inv (ht1.sound hw)
  have h : s.fetch16 = .ok (join (u.guestByte u.pc) (s.guestByte s.pc)) t := by simp [State.fetch16, h1, h2]
  obtain ⟨e, ht⟩ := fetch16_ok hs h
  exact ⟨t, by rw [h, e], ht⟩

/-! ## The stack -/

theorem push16_ok {s : State} (hs : s.Inv) {v : Addr} {t : State} (h : s.push16 v = .ok () t) :
    Touched { s with sp := s.sp - 2 } t (s.storedWord (s.sp - 2) v s.mem.logical) :=
  writeWord_ok (s := { s with sp := s.sp - 2 }) (hs.congr rfl rfl rfl hs.signals) h

theorem push16_total {s : State} (hs : s.Inv) (hw : s.Sound) (v : Addr) :
    ∃ t, s.push16 v = .ok () t ∧ Touched { s with sp := s.sp - 2 } t (s.storedWord (s.sp - 2) v s.mem.logical) :=
  writeWord_total (s := { s with sp := s.sp - 2 }) (hs.congr rfl rfl rfl hs.signals) hw (s.sp - 2) v

theorem pop16_ok {s : State} (hs : s.Inv) {v : Addr} {t : State} (h : s.pop16 = .ok v t) :
    v = s.guestWord s.sp ∧ Touched { s with sp := s.sp + 2 } t s.mem.logical := by
  obtain ⟨w, u, h1, h2⟩ := Res.andThen_eq_ok.1 h
  cases h2
  obtain ⟨rfl, ht⟩ := readWord_ok hs h1
  refine ⟨rfl, ⟨?_, ht.logical, ht.inv.congr rfl rfl rfl ht.inv.signals, ht.sound, ht.outside⟩⟩
  rw [ht.rest]

theorem pop16_total {s : State} (hs : s.Inv) (hw : s.Sound) :
    ∃ t, s.pop16 = .ok (s.guestWord s.sp) t ∧ Touched { s with sp := s.sp + 2 } t s.mem.logical := by
  obtain ⟨u, h1, _⟩ := readWord_total hs hw s.sp
  have h : s.pop16 = .ok (s.guestWord s.sp) { u with sp := u.sp + 2 } := by simp [State.pop16, h1]
  exact ⟨_, h, (pop16_ok hs h).2⟩

/-! ## Operands -/

/-- `Rd` (R403): a register is read with nothing else done, M is one byte read. -/
theorem readOperand_ok {s : State} (hs : s.Inv) {o : Operand} {v : Byte} {t : State}
    (h : s.readOperand o = .ok v t) :
    v = s.operandByte o ∧ Touched s t s.mem.logical ∧ (o ≠ .m → t = s) := by
  cases o with
  | reg r => cases h; exact ⟨rfl, Touched.refl hs, fun _ => rfl⟩
  | m =>
    obtain ⟨e, ht⟩ := readByte_ok hs h
    exact ⟨e, ht, fun hne => absurd rfl hne⟩

theorem readOperand_total {s : State} (hs : s.Inv) (hw : s.Sound) (o : Operand) :
    ∃ t, s.readOperand o = .ok (s.operandByte o) t ∧ Touched s t s.mem.logical ∧ (o ≠ .m → t = s) := by
  cases o with
  | reg r => exact ⟨s, rfl, Touched.refl hs, fun _ => rfl⟩
  | m =>
    obtain ⟨t, h, ht⟩ := readByte_total hs hw s.hl
    exact ⟨t, h, ht, fun hne => absurd rfl hne⟩

/-- `Rd` completes where `ReadyFor` says, and changes the memory system only. -/
theorem readOperand_ready {s : State} {o : Operand} (h : s.ReadyFor o) :
    ∃ t, s.readOperand o = .ok (s.operandByte o) t ∧ t = { s with mem := t.mem } ∧ OperandRead s o t.mem := by
  cases o with
  | reg r => exact ⟨s, rfl, rfl, fun _ _ => rfl, fun _ => rfl⟩
  | m =>
    obtain ⟨hi, hw⟩ := h rfl
    obtain ⟨t, ht, hr⟩ := readByte_total hi hw s.hl
    exact ⟨t, ht, hr.rest, hr.logical, fun hne => absurd rfl hne⟩

/-- `Wr` to M (R403). -/
theorem writeOperand_m (s : State) (v : Byte) : s.writeOperand .m v = s.writeByte s.hl v := rfl

/-- `Wr` to a register (R403). -/
@[simp] theorem writeOperand_reg (s : State) (r : Reg) (v : Byte) :
    s.writeOperand (.reg r) v = .ok () (s.setReg r v) := rfl

end Sys2Proof.Machine
end

