-- ==== Sys2Proof/Laws/State.lean ====
section
/-!
SUPPORT. What each named update of the state leaves in each field, so that no proof unfolds a record update.
-/
namespace Sys2Proof.Machine

/-! ## Pairs -/

@[simp] theorem State.setBC_b (s : State) (v : Addr) : (s.setBC v).b = hi v := rfl
@[simp] theorem State.setBC_c (s : State) (v : Addr) : (s.setBC v).c = lo v := rfl
@[simp] theorem State.setBC_d (s : State) (v : Addr) : (s.setBC v).d = s.d := rfl
@[simp] theorem State.setBC_e (s : State) (v : Addr) : (s.setBC v).e = s.e := rfl
@[simp] theorem State.setBC_h (s : State) (v : Addr) : (s.setBC v).h = s.h := rfl
@[simp] theorem State.setBC_l (s : State) (v : Addr) : (s.setBC v).l = s.l := rfl
@[simp] theorem State.setBC_f (s : State) (v : Addr) : (s.setBC v).f = s.f := rfl
@[simp] theorem State.setBC_a (s : State) (v : Addr) : (s.setBC v).a = s.a := rfl
@[simp] theorem State.setBC_pc (s : State) (v : Addr) : (s.setBC v).pc = s.pc := rfl
@[simp] theorem State.setBC_sp (s : State) (v : Addr) : (s.setBC v).sp = s.sp := rfl
@[simp] theorem State.setBC_ie (s : State) (v : Addr) : (s.setBC v).ie = s.ie := rfl
@[simp] theorem State.setBC_stop (s : State) (v : Addr) : (s.setBC v).stop = s.stop := rfl
@[simp] theorem State.setBC_fatal (s : State) (v : Addr) : (s.setBC v).fatal = s.fatal := rfl
@[simp] theorem State.setBC_bank (s : State) (v : Addr) : (s.setBC v).bank = s.bank := rfl
@[simp] theorem State.setBC_mmuBlock (s : State) (v : Addr) : (s.setBC v).mmuBlock = s.mmuBlock := rfl
@[simp] theorem State.setBC_mem (s : State) (v : Addr) : (s.setBC v).mem = s.mem := rfl
@[simp] theorem State.setBC_ports (s : State) (v : Addr) : (s.setBC v).ports = s.ports := rfl
@[simp] theorem State.setBC_inDraws (s : State) (v : Addr) : (s.setBC v).inDraws = s.inDraws := rfl
@[simp] theorem State.setBC_cfg (s : State) (v : Addr) : (s.setBC v).cfg = s.cfg := rfl

/-! ## DE -/

@[simp] theorem State.setDE_b (s : State) (v : Addr) : (s.setDE v).b = s.b := rfl
@[simp] theorem State.setDE_c (s : State) (v : Addr) : (s.setDE v).c = s.c := rfl
@[simp] theorem State.setDE_d (s : State) (v : Addr) : (s.setDE v).d = hi v := rfl
@[simp] theorem State.setDE_e (s : State) (v : Addr) : (s.setDE v).e = lo v := rfl
@[simp] theorem State.setDE_h (s : State) (v : Addr) : (s.setDE v).h = s.h := rfl
@[simp] theorem State.setDE_l (s : State) (v : Addr) : (s.setDE v).l = s.l := rfl
@[simp] theorem State.setDE_f (s : State) (v : Addr) : (s.setDE v).f = s.f := rfl
@[simp] theorem State.setDE_a (s : State) (v : Addr) : (s.setDE v).a = s.a := rfl
@[simp] theorem State.setDE_pc (s : State) (v : Addr) : (s.setDE v).pc = s.pc := rfl
@[simp] theorem State.setDE_sp (s : State) (v : Addr) : (s.setDE v).sp = s.sp := rfl
@[simp] theorem State.setDE_ie (s : State) (v : Addr) : (s.setDE v).ie = s.ie := rfl
@[simp] theorem State.setDE_stop (s : State) (v : Addr) : (s.setDE v).stop = s.stop := rfl
@[simp] theorem State.setDE_fatal (s : State) (v : Addr) : (s.setDE v).fatal = s.fatal := rfl
@[simp] theorem State.setDE_bank (s : State) (v : Addr) : (s.setDE v).bank = s.bank := rfl
@[simp] theorem State.setDE_mmuBlock (s : State) (v : Addr) : (s.setDE v).mmuBlock = s.mmuBlock := rfl
@[simp] theorem State.setDE_mem (s : State) (v : Addr) : (s.setDE v).mem = s.mem := rfl
@[simp] theorem State.setDE_ports (s : State) (v : Addr) : (s.setDE v).ports = s.ports := rfl
@[simp] theorem State.setDE_inDraws (s : State) (v : Addr) : (s.setDE v).inDraws = s.inDraws := rfl
@[simp] theorem State.setDE_cfg (s : State) (v : Addr) : (s.setDE v).cfg = s.cfg := rfl

/-! ## HL -/

@[simp] theorem State.setHL_b (s : State) (v : Addr) : (s.setHL v).b = s.b := rfl
@[simp] theorem State.setHL_c (s : State) (v : Addr) : (s.setHL v).c = s.c := rfl
@[simp] theorem State.setHL_d (s : State) (v : Addr) : (s.setHL v).d = s.d := rfl
@[simp] theorem State.setHL_e (s : State) (v : Addr) : (s.setHL v).e = s.e := rfl
@[simp] theorem State.setHL_h (s : State) (v : Addr) : (s.setHL v).h = hi v := rfl
@[simp] theorem State.setHL_l (s : State) (v : Addr) : (s.setHL v).l = lo v := rfl
@[simp] theorem State.setHL_f (s : State) (v : Addr) : (s.setHL v).f = s.f := rfl
@[simp] theorem State.setHL_a (s : State) (v : Addr) : (s.setHL v).a = s.a := rfl
@[simp] theorem State.setHL_pc (s : State) (v : Addr) : (s.setHL v).pc = s.pc := rfl
@[simp] theorem State.setHL_sp (s : State) (v : Addr) : (s.setHL v).sp = s.sp := rfl
@[simp] theorem State.setHL_ie (s : State) (v : Addr) : (s.setHL v).ie = s.ie := rfl
@[simp] theorem State.setHL_stop (s : State) (v : Addr) : (s.setHL v).stop = s.stop := rfl
@[simp] theorem State.setHL_fatal (s : State) (v : Addr) : (s.setHL v).fatal = s.fatal := rfl
@[simp] theorem State.setHL_bank (s : State) (v : Addr) : (s.setHL v).bank = s.bank := rfl
@[simp] theorem State.setHL_mmuBlock (s : State) (v : Addr) : (s.setHL v).mmuBlock = s.mmuBlock := rfl
@[simp] theorem State.setHL_mem (s : State) (v : Addr) : (s.setHL v).mem = s.mem := rfl
@[simp] theorem State.setHL_ports (s : State) (v : Addr) : (s.setHL v).ports = s.ports := rfl
@[simp] theorem State.setHL_inDraws (s : State) (v : Addr) : (s.setHL v).inDraws = s.inDraws := rfl
@[simp] theorem State.setHL_cfg (s : State) (v : Addr) : (s.setHL v).cfg = s.cfg := rfl

/-! ## PSW -/

@[simp] theorem State.setPSW_b (s : State) (v : Addr) : (s.setPSW v).b = s.b := rfl
@[simp] theorem State.setPSW_c (s : State) (v : Addr) : (s.setPSW v).c = s.c := rfl
@[simp] theorem State.setPSW_d (s : State) (v : Addr) : (s.setPSW v).d = s.d := rfl
@[simp] theorem State.setPSW_e (s : State) (v : Addr) : (s.setPSW v).e = s.e := rfl
@[simp] theorem State.setPSW_h (s : State) (v : Addr) : (s.setPSW v).h = s.h := rfl
@[simp] theorem State.setPSW_l (s : State) (v : Addr) : (s.setPSW v).l = s.l := rfl
@[simp] theorem State.setPSW_f (s : State) (v : Addr) : (s.setPSW v).f = lo v := rfl
@[simp] theorem State.setPSW_a (s : State) (v : Addr) : (s.setPSW v).a = hi v := rfl
@[simp] theorem State.setPSW_pc (s : State) (v : Addr) : (s.setPSW v).pc = s.pc := rfl
@[simp] theorem State.setPSW_sp (s : State) (v : Addr) : (s.setPSW v).sp = s.sp := rfl
@[simp] theorem State.setPSW_ie (s : State) (v : Addr) : (s.setPSW v).ie = s.ie := rfl
@[simp] theorem State.setPSW_stop (s : State) (v : Addr) : (s.setPSW v).stop = s.stop := rfl
@[simp] theorem State.setPSW_fatal (s : State) (v : Addr) : (s.setPSW v).fatal = s.fatal := rfl
@[simp] theorem State.setPSW_bank (s : State) (v : Addr) : (s.setPSW v).bank = s.bank := rfl
@[simp] theorem State.setPSW_mmuBlock (s : State) (v : Addr) : (s.setPSW v).mmuBlock = s.mmuBlock := rfl
@[simp] theorem State.setPSW_mem (s : State) (v : Addr) : (s.setPSW v).mem = s.mem := rfl
@[simp] theorem State.setPSW_ports (s : State) (v : Addr) : (s.setPSW v).ports = s.ports := rfl
@[simp] theorem State.setPSW_inDraws (s : State) (v : Addr) : (s.setPSW v).inDraws = s.inDraws := rfl
@[simp] theorem State.setPSW_cfg (s : State) (v : Addr) : (s.setPSW v).cfg = s.cfg := rfl

/-! ## An adder result -/

@[simp] theorem State.putSum_b (s : State) (x : Sum) : (s.putSum x).b = s.b := rfl
@[simp] theorem State.putSum_c (s : State) (x : Sum) : (s.putSum x).c = s.c := rfl
@[simp] theorem State.putSum_d (s : State) (x : Sum) : (s.putSum x).d = s.d := rfl
@[simp] theorem State.putSum_e (s : State) (x : Sum) : (s.putSum x).e = s.e := rfl
@[simp] theorem State.putSum_h (s : State) (x : Sum) : (s.putSum x).h = s.h := rfl
@[simp] theorem State.putSum_l (s : State) (x : Sum) : (s.putSum x).l = s.l := rfl
@[simp] theorem State.putSum_f (s : State) (x : Sum) : (s.putSum x).f = sumFlags x s.f := rfl
@[simp] theorem State.putSum_a (s : State) (x : Sum) : (s.putSum x).a = x.r := rfl
@[simp] theorem State.putSum_pc (s : State) (x : Sum) : (s.putSum x).pc = s.pc := rfl
@[simp] theorem State.putSum_sp (s : State) (x : Sum) : (s.putSum x).sp = s.sp := rfl
@[simp] theorem State.putSum_ie (s : State) (x : Sum) : (s.putSum x).ie = s.ie := rfl
@[simp] theorem State.putSum_stop (s : State) (x : Sum) : (s.putSum x).stop = s.stop := rfl
@[simp] theorem State.putSum_fatal (s : State) (x : Sum) : (s.putSum x).fatal = s.fatal := rfl
@[simp] theorem State.putSum_bank (s : State) (x : Sum) : (s.putSum x).bank = s.bank := rfl
@[simp] theorem State.putSum_mmuBlock (s : State) (x : Sum) : (s.putSum x).mmuBlock = s.mmuBlock := rfl
@[simp] theorem State.putSum_mem (s : State) (x : Sum) : (s.putSum x).mem = s.mem := rfl
@[simp] theorem State.putSum_ports (s : State) (x : Sum) : (s.putSum x).ports = s.ports := rfl
@[simp] theorem State.putSum_inDraws (s : State) (x : Sum) : (s.putSum x).inDraws = s.inDraws := rfl
@[simp] theorem State.putSum_cfg (s : State) (x : Sum) : (s.putSum x).cfg = s.cfg := rfl

/-! ## AND -/

@[simp] theorem State.logicAnd_b (s : State) (v : Byte) : (s.logicAnd v).b = s.b := rfl
@[simp] theorem State.logicAnd_c (s : State) (v : Byte) : (s.logicAnd v).c = s.c := rfl
@[simp] theorem State.logicAnd_d (s : State) (v : Byte) : (s.logicAnd v).d = s.d := rfl
@[simp] theorem State.logicAnd_e (s : State) (v : Byte) : (s.logicAnd v).e = s.e := rfl
@[simp] theorem State.logicAnd_h (s : State) (v : Byte) : (s.logicAnd v).h = s.h := rfl
@[simp] theorem State.logicAnd_l (s : State) (v : Byte) : (s.logicAnd v).l = s.l := rfl
@[simp] theorem State.logicAnd_f (s : State) (v : Byte) : (s.logicAnd v).f = logicFlags (s.a &&& v) ((s.a ||| v).getLsbD 3) s.f := rfl
@[simp] theorem State.logicAnd_a (s : State) (v : Byte) : (s.logicAnd v).a = s.a &&& v := rfl
@[simp] theorem State.logicAnd_pc (s : State) (v : Byte) : (s.logicAnd v).pc = s.pc := rfl
@[simp] theorem State.logicAnd_sp (s : State) (v : Byte) : (s.logicAnd v).sp = s.sp := rfl
@[simp] theorem State.logicAnd_ie (s : State) (v : Byte) : (s.logicAnd v).ie = s.ie := rfl
@[simp] theorem State.logicAnd_stop (s : State) (v : Byte) : (s.logicAnd v).stop = s.stop := rfl
@[simp] theorem State.logicAnd_fatal (s : State) (v : Byte) : (s.logicAnd v).fatal = s.fatal := rfl
@[simp] theorem State.logicAnd_bank (s : State) (v : Byte) : (s.logicAnd v).bank = s.bank := rfl
@[simp] theorem State.logicAnd_mmuBlock (s : State) (v : Byte) : (s.logicAnd v).mmuBlock = s.mmuBlock := rfl
@[simp] theorem State.logicAnd_mem (s : State) (v : Byte) : (s.logicAnd v).mem = s.mem := rfl
@[simp] theorem State.logicAnd_ports (s : State) (v : Byte) : (s.logicAnd v).ports = s.ports := rfl
@[simp] theorem State.logicAnd_inDraws (s : State) (v : Byte) : (s.logicAnd v).inDraws = s.inDraws := rfl
@[simp] theorem State.logicAnd_cfg (s : State) (v : Byte) : (s.logicAnd v).cfg = s.cfg := rfl

/-! ## XOR -/

@[simp] theorem State.logicXor_b (s : State) (v : Byte) : (s.logicXor v).b = s.b := rfl
@[simp] theorem State.logicXor_c (s : State) (v : Byte) : (s.logicXor v).c = s.c := rfl
@[simp] theorem State.logicXor_d (s : State) (v : Byte) : (s.logicXor v).d = s.d := rfl
@[simp] theorem State.logicXor_e (s : State) (v : Byte) : (s.logicXor v).e = s.e := rfl
@[simp] theorem State.logicXor_h (s : State) (v : Byte) : (s.logicXor v).h = s.h := rfl
@[simp] theorem State.logicXor_l (s : State) (v : Byte) : (s.logicXor v).l = s.l := rfl
@[simp] theorem State.logicXor_f (s : State) (v : Byte) : (s.logicXor v).f = logicFlags (s.a ^^^ v) false s.f := rfl
@[simp] theorem State.logicXor_a (s : State) (v : Byte) : (s.logicXor v).a = s.a ^^^ v := rfl
@[simp] theorem State.logicXor_pc (s : State) (v : Byte) : (s.logicXor v).pc = s.pc := rfl
@[simp] theorem State.logicXor_sp (s : State) (v : Byte) : (s.logicXor v).sp = s.sp := rfl
@[simp] theorem State.logicXor_ie (s : State) (v : Byte) : (s.logicXor v).ie = s.ie := rfl
@[simp] theorem State.logicXor_stop (s : State) (v : Byte) : (s.logicXor v).stop = s.stop := rfl
@[simp] theorem State.logicXor_fatal (s : State) (v : Byte) : (s.logicXor v).fatal = s.fatal := rfl
@[simp] theorem State.logicXor_bank (s : State) (v : Byte) : (s.logicXor v).bank = s.bank := rfl
@[simp] theorem State.logicXor_mmuBlock (s : State) (v : Byte) : (s.logicXor v).mmuBlock = s.mmuBlock := rfl
@[simp] theorem State.logicXor_mem (s : State) (v : Byte) : (s.logicXor v).mem = s.mem := rfl
@[simp] theorem State.logicXor_ports (s : State) (v : Byte) : (s.logicXor v).ports = s.ports := rfl
@[simp] theorem State.logicXor_inDraws (s : State) (v : Byte) : (s.logicXor v).inDraws = s.inDraws := rfl
@[simp] theorem State.logicXor_cfg (s : State) (v : Byte) : (s.logicXor v).cfg = s.cfg := rfl

/-! ## OR -/

@[simp] theorem State.logicOr_b (s : State) (v : Byte) : (s.logicOr v).b = s.b := rfl
@[simp] theorem State.logicOr_c (s : State) (v : Byte) : (s.logicOr v).c = s.c := rfl
@[simp] theorem State.logicOr_d (s : State) (v : Byte) : (s.logicOr v).d = s.d := rfl
@[simp] theorem State.logicOr_e (s : State) (v : Byte) : (s.logicOr v).e = s.e := rfl
@[simp] theorem State.logicOr_h (s : State) (v : Byte) : (s.logicOr v).h = s.h := rfl
@[simp] theorem State.logicOr_l (s : State) (v : Byte) : (s.logicOr v).l = s.l := rfl
@[simp] theorem State.logicOr_f (s : State) (v : Byte) : (s.logicOr v).f = logicFlags (s.a ||| v) false s.f := rfl
@[simp] theorem State.logicOr_a (s : State) (v : Byte) : (s.logicOr v).a = s.a ||| v := rfl
@[simp] theorem State.logicOr_pc (s : State) (v : Byte) : (s.logicOr v).pc = s.pc := rfl
@[simp] theorem State.logicOr_sp (s : State) (v : Byte) : (s.logicOr v).sp = s.sp := rfl
@[simp] theorem State.logicOr_ie (s : State) (v : Byte) : (s.logicOr v).ie = s.ie := rfl
@[simp] theorem State.logicOr_stop (s : State) (v : Byte) : (s.logicOr v).stop = s.stop := rfl
@[simp] theorem State.logicOr_fatal (s : State) (v : Byte) : (s.logicOr v).fatal = s.fatal := rfl
@[simp] theorem State.logicOr_bank (s : State) (v : Byte) : (s.logicOr v).bank = s.bank := rfl
@[simp] theorem State.logicOr_mmuBlock (s : State) (v : Byte) : (s.logicOr v).mmuBlock = s.mmuBlock := rfl
@[simp] theorem State.logicOr_mem (s : State) (v : Byte) : (s.logicOr v).mem = s.mem := rfl
@[simp] theorem State.logicOr_ports (s : State) (v : Byte) : (s.logicOr v).ports = s.ports := rfl
@[simp] theorem State.logicOr_inDraws (s : State) (v : Byte) : (s.logicOr v).inDraws = s.inDraws := rfl
@[simp] theorem State.logicOr_cfg (s : State) (v : Byte) : (s.logicOr v).cfg = s.cfg := rfl

/-! ## Compare -/

@[simp] theorem State.compare_b (s : State) (v : Byte) : (s.compare v).b = s.b := rfl
@[simp] theorem State.compare_c (s : State) (v : Byte) : (s.compare v).c = s.c := rfl
@[simp] theorem State.compare_d (s : State) (v : Byte) : (s.compare v).d = s.d := rfl
@[simp] theorem State.compare_e (s : State) (v : Byte) : (s.compare v).e = s.e := rfl
@[simp] theorem State.compare_h (s : State) (v : Byte) : (s.compare v).h = s.h := rfl
@[simp] theorem State.compare_l (s : State) (v : Byte) : (s.compare v).l = s.l := rfl
@[simp] theorem State.compare_f (s : State) (v : Byte) : (s.compare v).f = sumFlags (sub8 s.cfg.subCarry s.a v true) s.f := rfl
@[simp] theorem State.compare_a (s : State) (v : Byte) : (s.compare v).a = s.a := rfl
@[simp] theorem State.compare_pc (s : State) (v : Byte) : (s.compare v).pc = s.pc := rfl
@[simp] theorem State.compare_sp (s : State) (v : Byte) : (s.compare v).sp = s.sp := rfl
@[simp] theorem State.compare_ie (s : State) (v : Byte) : (s.compare v).ie = s.ie := rfl
@[simp] theorem State.compare_stop (s : State) (v : Byte) : (s.compare v).stop = s.stop := rfl
@[simp] theorem State.compare_fatal (s : State) (v : Byte) : (s.compare v).fatal = s.fatal := rfl
@[simp] theorem State.compare_bank (s : State) (v : Byte) : (s.compare v).bank = s.bank := rfl
@[simp] theorem State.compare_mmuBlock (s : State) (v : Byte) : (s.compare v).mmuBlock = s.mmuBlock := rfl
@[simp] theorem State.compare_mem (s : State) (v : Byte) : (s.compare v).mem = s.mem := rfl
@[simp] theorem State.compare_ports (s : State) (v : Byte) : (s.compare v).ports = s.ports := rfl
@[simp] theorem State.compare_inDraws (s : State) (v : Byte) : (s.compare v).inDraws = s.inDraws := rfl
@[simp] theorem State.compare_cfg (s : State) (v : Byte) : (s.compare v).cfg = s.cfg := rfl

/-! ## SelectBlock -/

@[simp] theorem State.selectBlock_b (s : State) (k : Byte) : (s.selectBlock k).b = s.b := rfl
@[simp] theorem State.selectBlock_c (s : State) (k : Byte) : (s.selectBlock k).c = s.c := rfl
@[simp] theorem State.selectBlock_d (s : State) (k : Byte) : (s.selectBlock k).d = s.d := rfl
@[simp] theorem State.selectBlock_e (s : State) (k : Byte) : (s.selectBlock k).e = s.e := rfl
@[simp] theorem State.selectBlock_h (s : State) (k : Byte) : (s.selectBlock k).h = s.h := rfl
@[simp] theorem State.selectBlock_l (s : State) (k : Byte) : (s.selectBlock k).l = s.l := rfl
@[simp] theorem State.selectBlock_f (s : State) (k : Byte) : (s.selectBlock k).f = s.f := rfl
@[simp] theorem State.selectBlock_a (s : State) (k : Byte) : (s.selectBlock k).a = s.a := rfl
@[simp] theorem State.selectBlock_pc (s : State) (k : Byte) : (s.selectBlock k).pc = s.pc := rfl
@[simp] theorem State.selectBlock_sp (s : State) (k : Byte) : (s.selectBlock k).sp = s.sp := rfl
@[simp] theorem State.selectBlock_ie (s : State) (k : Byte) : (s.selectBlock k).ie = s.ie := rfl
@[simp] theorem State.selectBlock_stop (s : State) (k : Byte) : (s.selectBlock k).stop = s.stop := rfl
@[simp] theorem State.selectBlock_fatal (s : State) (k : Byte) : (s.selectBlock k).fatal = s.fatal := rfl
@[simp] theorem State.selectBlock_bank (s : State) (k : Byte) : (s.selectBlock k).bank = s.bank := rfl
@[simp] theorem State.selectBlock_mmuBlock (s : State) (k : Byte) : (s.selectBlock k).mmuBlock = k.extractLsb' 0 4 := rfl
@[simp] theorem State.selectBlock_mem (s : State) (k : Byte) : (s.selectBlock k).mem = s.mem := rfl
@[simp] theorem State.selectBlock_ports (s : State) (k : Byte) : (s.selectBlock k).ports = s.ports := rfl
@[simp] theorem State.selectBlock_inDraws (s : State) (k : Byte) : (s.selectBlock k).inDraws = s.inDraws := rfl
@[simp] theorem State.selectBlock_cfg (s : State) (k : Byte) : (s.selectBlock k).cfg = s.cfg := rfl

/-! ## The host stop -/

@[simp] theorem State.hostStop_b (s : State) : (s.hostStop).b = s.b := rfl
@[simp] theorem State.hostStop_c (s : State) : (s.hostStop).c = s.c := rfl
@[simp] theorem State.hostStop_d (s : State) : (s.hostStop).d = s.d := rfl
@[simp] theorem State.hostStop_e (s : State) : (s.hostStop).e = s.e := rfl
@[simp] theorem State.hostStop_h (s : State) : (s.hostStop).h = s.h := rfl
@[simp] theorem State.hostStop_l (s : State) : (s.hostStop).l = s.l := rfl
@[simp] theorem State.hostStop_f (s : State) : (s.hostStop).f = s.f := rfl
@[simp] theorem State.hostStop_a (s : State) : (s.hostStop).a = s.a := rfl
@[simp] theorem State.hostStop_pc (s : State) : (s.hostStop).pc = s.pc := rfl
@[simp] theorem State.hostStop_sp (s : State) : (s.hostStop).sp = s.sp := rfl
@[simp] theorem State.hostStop_ie (s : State) : (s.hostStop).ie = s.ie := rfl
@[simp] theorem State.hostStop_stop (s : State) : (s.hostStop).stop = true := rfl
@[simp] theorem State.hostStop_fatal (s : State) : (s.hostStop).fatal = s.fatal := rfl
@[simp] theorem State.hostStop_bank (s : State) : (s.hostStop).bank = s.bank := rfl
@[simp] theorem State.hostStop_mmuBlock (s : State) : (s.hostStop).mmuBlock = s.mmuBlock := rfl
@[simp] theorem State.hostStop_mem (s : State) : (s.hostStop).mem = s.mem := rfl
@[simp] theorem State.hostStop_ports (s : State) : (s.hostStop).ports = s.ports := rfl
@[simp] theorem State.hostStop_inDraws (s : State) : (s.hostStop).inDraws = s.inDraws := rfl
@[simp] theorem State.hostStop_cfg (s : State) : (s.hostStop).cfg = s.cfg := rfl

/-! ## The state a fault leaves -/

@[simp] theorem State.leave_b (s : State) (w : Extent) : (s.leave w).b =
    if .b ∈ w.regs then (Config.leftByFault s).b else s.b := rfl
@[simp] theorem State.leave_c (s : State) (w : Extent) : (s.leave w).c =
    if .c ∈ w.regs then (Config.leftByFault s).c else s.c := rfl
@[simp] theorem State.leave_d (s : State) (w : Extent) : (s.leave w).d =
    if .d ∈ w.regs then (Config.leftByFault s).d else s.d := rfl
@[simp] theorem State.leave_e (s : State) (w : Extent) : (s.leave w).e =
    if .e ∈ w.regs then (Config.leftByFault s).e else s.e := rfl
@[simp] theorem State.leave_h (s : State) (w : Extent) : (s.leave w).h =
    if .h ∈ w.regs then (Config.leftByFault s).h else s.h := rfl
@[simp] theorem State.leave_l (s : State) (w : Extent) : (s.leave w).l =
    if .l ∈ w.regs then (Config.leftByFault s).l else s.l := rfl
@[simp] theorem State.leave_a (s : State) (w : Extent) : (s.leave w).a =
    if .a ∈ w.regs then (Config.leftByFault s).a else s.a := rfl
@[simp] theorem State.leave_f (s : State) (w : Extent) : (s.leave w).f =
    (s.f &&& ~~~w.flags) ||| ((Config.leftByFault s).f &&& w.flags) := rfl
@[simp] theorem State.leave_sp (s : State) (w : Extent) : (s.leave w).sp =
    if w.sp then (Config.leftByFault s).sp else s.sp := rfl
@[simp] theorem State.leave_ie (s : State) (w : Extent) : (s.leave w).ie =
    if w.ie then (Config.leftByFault s).ie else s.ie := rfl
@[simp] theorem State.leave_pc (s : State) (w : Extent) : (s.leave w).pc = (Config.leftByFault s).pc := rfl
@[simp] theorem State.leave_mem (s : State) (w : Extent) : (s.leave w).mem = s.leaveMem w (Config.memLeftByFault s) := rfl
@[simp] theorem State.leave_stop (s : State) (w : Extent) : (s.leave w).stop = s.stop := rfl
@[simp] theorem State.leave_fatal (s : State) (w : Extent) : (s.leave w).fatal = s.fatal := rfl
@[simp] theorem State.leave_bank (s : State) (w : Extent) : (s.leave w).bank = s.bank := rfl
@[simp] theorem State.leave_mmuBlock (s : State) (w : Extent) : (s.leave w).mmuBlock = s.mmuBlock := rfl
@[simp] theorem State.leave_ports (s : State) (w : Extent) : (s.leave w).ports = s.ports := rfl
@[simp] theorem State.leave_inDraws (s : State) (w : Extent) : (s.leave w).inDraws = s.inDraws := rfl
@[simp] theorem State.leave_cfg (s : State) (w : Extent) : (s.leave w).cfg = s.cfg := rfl
@[simp] theorem Fault.state_memoryIntegrity (s : State) : (Fault.memoryIntegrity s).state = s := rfl
@[simp] theorem Fault.state_illegalOpcode (s : State) : (Fault.illegalOpcode s).state = s := rfl

/-! ## A register, a pair, a bank: what they leave alone -/

@[simp] theorem State.setReg_f (s : State) (r : Reg) (v : Byte) : (s.setReg r v).f = s.f := by cases r <;> rfl
@[simp] theorem State.setReg_pc (s : State) (r : Reg) (v : Byte) : (s.setReg r v).pc = s.pc := by cases r <;> rfl
@[simp] theorem State.setReg_sp (s : State) (r : Reg) (v : Byte) : (s.setReg r v).sp = s.sp := by cases r <;> rfl
@[simp] theorem State.setReg_ie (s : State) (r : Reg) (v : Byte) : (s.setReg r v).ie = s.ie := by cases r <;> rfl
@[simp] theorem State.setReg_stop (s : State) (r : Reg) (v : Byte) : (s.setReg r v).stop = s.stop := by cases r <;> rfl
@[simp] theorem State.setReg_fatal (s : State) (r : Reg) (v : Byte) : (s.setReg r v).fatal = s.fatal := by cases r <;> rfl
@[simp] theorem State.setReg_bank (s : State) (r : Reg) (v : Byte) : (s.setReg r v).bank = s.bank := by cases r <;> rfl
@[simp] theorem State.setReg_mmuBlock (s : State) (r : Reg) (v : Byte) : (s.setReg r v).mmuBlock = s.mmuBlock := by cases r <;> rfl
@[simp] theorem State.setReg_mem (s : State) (r : Reg) (v : Byte) : (s.setReg r v).mem = s.mem := by cases r <;> rfl
@[simp] theorem State.setReg_ports (s : State) (r : Reg) (v : Byte) : (s.setReg r v).ports = s.ports := by cases r <;> rfl
@[simp] theorem State.setReg_inDraws (s : State) (r : Reg) (v : Byte) : (s.setReg r v).inDraws = s.inDraws := by cases r <;> rfl
@[simp] theorem State.setReg_cfg (s : State) (r : Reg) (v : Byte) : (s.setReg r v).cfg = s.cfg := by cases r <;> rfl

@[simp] theorem State.setPair_f (s : State) (p : Pair) (v : Addr) : (s.setPair p v).f = s.f := by cases p <;> rfl
@[simp] theorem State.setPair_a (s : State) (p : Pair) (v : Addr) : (s.setPair p v).a = s.a := by cases p <;> rfl
@[simp] theorem State.setPair_pc (s : State) (p : Pair) (v : Addr) : (s.setPair p v).pc = s.pc := by cases p <;> rfl
@[simp] theorem State.setPair_ie (s : State) (p : Pair) (v : Addr) : (s.setPair p v).ie = s.ie := by cases p <;> rfl
@[simp] theorem State.setPair_stop (s : State) (p : Pair) (v : Addr) : (s.setPair p v).stop = s.stop := by cases p <;> rfl
@[simp] theorem State.setPair_fatal (s : State) (p : Pair) (v : Addr) : (s.setPair p v).fatal = s.fatal := by cases p <;> rfl
@[simp] theorem State.setPair_bank (s : State) (p : Pair) (v : Addr) : (s.setPair p v).bank = s.bank := by cases p <;> rfl
@[simp] theorem State.setPair_mmuBlock (s : State) (p : Pair) (v : Addr) : (s.setPair p v).mmuBlock = s.mmuBlock := by cases p <;> rfl
@[simp] theorem State.setPair_mem (s : State) (p : Pair) (v : Addr) : (s.setPair p v).mem = s.mem := by cases p <;> rfl
@[simp] theorem State.setPair_ports (s : State) (p : Pair) (v : Addr) : (s.setPair p v).ports = s.ports := by cases p <;> rfl
@[simp] theorem State.setPair_inDraws (s : State) (p : Pair) (v : Addr) : (s.setPair p v).inDraws = s.inDraws := by cases p <;> rfl
@[simp] theorem State.setPair_cfg (s : State) (p : Pair) (v : Addr) : (s.setPair p v).cfg = s.cfg := by cases p <;> rfl

@[simp] theorem State.setStackPair_pc (s : State) (p : StackPair) (v : Addr) :
    (s.setStackPair p v).pc = s.pc := by cases p <;> rfl
@[simp] theorem State.setStackPair_sp (s : State) (p : StackPair) (v : Addr) :
    (s.setStackPair p v).sp = s.sp := by cases p <;> rfl
@[simp] theorem State.setStackPair_ie (s : State) (p : StackPair) (v : Addr) :
    (s.setStackPair p v).ie = s.ie := by cases p <;> rfl
@[simp] theorem State.setStackPair_stop (s : State) (p : StackPair) (v : Addr) :
    (s.setStackPair p v).stop = s.stop := by cases p <;> rfl
@[simp] theorem State.setStackPair_fatal (s : State) (p : StackPair) (v : Addr) :
    (s.setStackPair p v).fatal = s.fatal := by cases p <;> rfl
@[simp] theorem State.setStackPair_bank (s : State) (p : StackPair) (v : Addr) :
    (s.setStackPair p v).bank = s.bank := by cases p <;> rfl
@[simp] theorem State.setStackPair_mmuBlock (s : State) (p : StackPair) (v : Addr) :
    (s.setStackPair p v).mmuBlock = s.mmuBlock := by cases p <;> rfl
@[simp] theorem State.setStackPair_mem (s : State) (p : StackPair) (v : Addr) :
    (s.setStackPair p v).mem = s.mem := by cases p <;> rfl
@[simp] theorem State.setStackPair_ports (s : State) (p : StackPair) (v : Addr) :
    (s.setStackPair p v).ports = s.ports := by cases p <;> rfl
@[simp] theorem State.setStackPair_inDraws (s : State) (p : StackPair) (v : Addr) :
    (s.setStackPair p v).inDraws = s.inDraws := by cases p <;> rfl
@[simp] theorem State.setStackPair_cfg (s : State) (p : StackPair) (v : Addr) :
    (s.setStackPair p v).cfg = s.cfg := by cases p <;> rfl

@[simp] theorem State.selectBank_b (s : State) (b : Byte) : (s.selectBank b).b = s.b := by
  unfold State.selectBank; split <;> rfl
@[simp] theorem State.selectBank_c (s : State) (b : Byte) : (s.selectBank b).c = s.c := by
  unfold State.selectBank; split <;> rfl
@[simp] theorem State.selectBank_d (s : State) (b : Byte) : (s.selectBank b).d = s.d := by
  unfold State.selectBank; split <;> rfl
@[simp] theorem State.selectBank_e (s : State) (b : Byte) : (s.selectBank b).e = s.e := by
  unfold State.selectBank; split <;> rfl
@[simp] theorem State.selectBank_h (s : State) (b : Byte) : (s.selectBank b).h = s.h := by
  unfold State.selectBank; split <;> rfl
@[simp] theorem State.selectBank_l (s : State) (b : Byte) : (s.selectBank b).l = s.l := by
  unfold State.selectBank; split <;> rfl
@[simp] theorem State.selectBank_f (s : State) (b : Byte) : (s.selectBank b).f = s.f := by
  unfold State.selectBank; split <;> rfl
@[simp] theorem State.selectBank_a (s : State) (b : Byte) : (s.selectBank b).a = s.a := by
  unfold State.selectBank; split <;> rfl
@[simp] theorem State.selectBank_pc (s : State) (b : Byte) : (s.selectBank b).pc = s.pc := by
  unfold State.selectBank; split <;> rfl
@[simp] theorem State.selectBank_sp (s : State) (b : Byte) : (s.selectBank b).sp = s.sp := by
  unfold State.selectBank; split <;> rfl
@[simp] theorem State.selectBank_ie (s : State) (b : Byte) : (s.selectBank b).ie = s.ie := by
  unfold State.selectBank; split <;> rfl
@[simp] theorem State.selectBank_stop (s : State) (b : Byte) : (s.selectBank b).stop = s.stop := by
  unfold State.selectBank; split <;> rfl
@[simp] theorem State.selectBank_fatal (s : State) (b : Byte) : (s.selectBank b).fatal = s.fatal := by
  unfold State.selectBank; split <;> rfl
@[simp] theorem State.selectBank_mmuBlock (s : State) (b : Byte) : (s.selectBank b).mmuBlock = s.mmuBlock := by
  unfold State.selectBank; split <;> rfl
@[simp] theorem State.selectBank_mem (s : State) (b : Byte) : (s.selectBank b).mem = s.mem := by
  unfold State.selectBank; split <;> rfl
@[simp] theorem State.selectBank_ports (s : State) (b : Byte) : (s.selectBank b).ports = s.ports := by
  unfold State.selectBank; split <;> rfl
@[simp] theorem State.selectBank_inDraws (s : State) (b : Byte) : (s.selectBank b).inDraws = s.inDraws := by
  unfold State.selectBank; split <;> rfl
@[simp] theorem State.selectBank_cfg (s : State) (b : Byte) : (s.selectBank b).cfg = s.cfg := by
  unfold State.selectBank; split <;> rfl

@[simp] theorem State.bankSelect_b (s : State) (p v : Byte) : (s.bankSelect p v).b = s.b := by
  simp only [State.bankSelect]; split <;> split <;> simp
@[simp] theorem State.bankSelect_c (s : State) (p v : Byte) : (s.bankSelect p v).c = s.c := by
  simp only [State.bankSelect]; split <;> split <;> simp
@[simp] theorem State.bankSelect_d (s : State) (p v : Byte) : (s.bankSelect p v).d = s.d := by
  simp only [State.bankSelect]; split <;> split <;> simp
@[simp] theorem State.bankSelect_e (s : State) (p v : Byte) : (s.bankSelect p v).e = s.e := by
  simp only [State.bankSelect]; split <;> split <;> simp
@[simp] theorem State.bankSelect_h (s : State) (p v : Byte) : (s.bankSelect p v).h = s.h := by
  simp only [State.bankSelect]; split <;> split <;> simp
@[simp] theorem State.bankSelect_l (s : State) (p v : Byte) : (s.bankSelect p v).l = s.l := by
  simp only [State.bankSelect]; split <;> split <;> simp
@[simp] theorem State.bankSelect_f (s : State) (p v : Byte) : (s.bankSelect p v).f = s.f := by
  simp only [State.bankSelect]; split <;> split <;> simp
@[simp] theorem State.bankSelect_a (s : State) (p v : Byte) : (s.bankSelect p v).a = s.a := by
  simp only [State.bankSelect]; split <;> split <;> simp
@[simp] theorem State.bankSelect_pc (s : State) (p v : Byte) : (s.bankSelect p v).pc = s.pc := by
  simp only [State.bankSelect]; split <;> split <;> simp
@[simp] theorem State.bankSelect_sp (s : State) (p v : Byte) : (s.bankSelect p v).sp = s.sp := by
  simp only [State.bankSelect]; split <;> split <;> simp
@[simp] theorem State.bankSelect_ie (s : State) (p v : Byte) : (s.bankSelect p v).ie = s.ie := by
  simp only [State.bankSelect]; split <;> split <;> simp
@[simp] theorem State.bankSelect_stop (s : State) (p v : Byte) : (s.bankSelect p v).stop = s.stop := by
  simp only [State.bankSelect]; split <;> split <;> simp
@[simp] theorem State.bankSelect_fatal (s : State) (p v : Byte) : (s.bankSelect p v).fatal = s.fatal := by
  simp only [State.bankSelect]; split <;> split <;> simp
@[simp] theorem State.bankSelect_mem (s : State) (p v : Byte) : (s.bankSelect p v).mem = s.mem := by
  simp only [State.bankSelect]; split <;> split <;> simp
@[simp] theorem State.bankSelect_ports (s : State) (p v : Byte) : (s.bankSelect p v).ports = s.ports := by
  simp only [State.bankSelect]; split <;> split <;> simp
@[simp] theorem State.bankSelect_inDraws (s : State) (p v : Byte) : (s.bankSelect p v).inDraws = s.inDraws := by
  simp only [State.bankSelect]; split <;> split <;> simp
@[simp] theorem State.bankSelect_cfg (s : State) (p v : Byte) : (s.bankSelect p v).cfg = s.cfg := by
  simp only [State.bankSelect]; split <;> split <;> simp

/-! ## Reading what was written -/

@[simp] theorem State.getReg_setReg (s : State) (r q : Reg) (v : Byte) :
    (s.setReg r v).getReg q = if q = r then v else s.getReg q := by
  cases r <;> cases q <;> rfl

@[simp] theorem State.getReg_withMem (s : State) (r : Reg) (m : MemSys) :
    ({ s with mem := m } : State).getReg r = s.getReg r := by
  cases r <;> rfl

@[simp] theorem State.bc_setBC (s : State) (v : Addr) : (s.setBC v).bc = v := join_hi_lo v
@[simp] theorem State.de_setDE (s : State) (v : Addr) : (s.setDE v).de = v := join_hi_lo v
@[simp] theorem State.hl_setHL (s : State) (v : Addr) : (s.setHL v).hl = v := join_hi_lo v
@[simp] theorem State.psw_setPSW (s : State) (v : Addr) : (s.setPSW v).psw = v := join_hi_lo v

@[simp] theorem State.getPair_setPair (s : State) (p : Pair) (v : Addr) : (s.setPair p v).getPair p = v := by
  cases p
  · exact join_hi_lo v
  · exact join_hi_lo v
  · exact join_hi_lo v
  · rfl

@[simp] theorem State.getStackPair_setStackPair (s : State) (p : StackPair) (v : Addr) :
    (s.setStackPair p v).getStackPair p = v := by
  cases p <;> exact join_hi_lo v

end Sys2Proof.Machine
end

