-- ==== Sys2Proof/Laws/BankSelect.lean ====
section
/-!
SUPPORT. Laws of the bank-select device: it keeps the invariant, and looks at the translation state only.
-/
namespace Sys2Proof.Machine

theorem selectBank_banks {s : State} (h : ∀ i : BitVec 4, s.bank[i.toNat]'i.isLt < s.cfg.banks) (v : Byte) :
    ∀ i : BitVec 4, (s.selectBank v).bank[i.toNat]'i.isLt < s.cfg.banks := by
  intro i
  unfold State.selectBank
  split
  · next hv =>
    simp only [Vector.getElem_set]
    split
    · exact hv
    · exact h i
  · exact h i

/-- The bank-select device keeps the invariant: it only ever selects a bank the machine has (R118, R225). -/
theorem State.Inv.bankSelect {s : State} (h : s.Inv) (p v : Byte) : (s.bankSelect p v).Inv := by
  refine ⟨by simpa using h.mem, by simpa using h.lineCount, by simpa using h.tags, by simpa using h.config, ?_,
    by simpa using h.signals⟩
  rw [State.bankSelect_cfg]
  simp only [State.bankSelect]
  split
  · split
    · exact selectBank_banks (s := s.selectBlock v) h.banks v
    · exact selectBank_banks h.banks v
  · split
    · exact h.banks
    · exact h.banks

/-- The bank-select device looks at the Bank Map, `mmuBlock` and the parameters only. -/
theorem bankSelect_congr {s t : State} (hb : t.bank = s.bank) (hm : t.mmuBlock = s.mmuBlock) (hc : t.cfg = s.cfg)
    (p v : Byte) : (t.bankSelect p v).bank = (s.bankSelect p v).bank ∧
      (t.bankSelect p v).mmuBlock = (s.bankSelect p v).mmuBlock := by
  have e1 : (t.selectBlock v).bank = (s.selectBlock v).bank := hb
  have e2 : ∀ {x y : State}, x.bank = y.bank → x.mmuBlock = y.mmuBlock → x.cfg = y.cfg →
      (x.selectBank v).bank = (y.selectBank v).bank := by
    intro x y h1 h2 h3
    unfold State.selectBank
    rw [h3]
    split
    · simp only [h1, h2]
    · exact h1
  simp only [State.bankSelect, hc]
  constructor
  · split
    · split
      · exact e2 e1 rfl hc
      · exact e2 hb hm hc
    · split
      · exact e1
      · exact hb
  · split <;> split <;> simp [hm]

end Sys2Proof.Machine
end

