-- ==== Sys2Proof/Laws/Faults.lean ====
section
/-!
SUPPORT. What the operations of a step can raise: the integrity failure, with both signals set, and nothing else
(R235, R1100); and where an access raises it.
-/
namespace Sys2Proof.Machine

/-- If the operation raises a fault, it is the integrity failure, with `stop` and `fatal` set. -/
def Res.FailsAlone {α : Type} (x : Res α) : Prop :=
  ∀ r t, x = .raised r t → r = .memoryIntegrity ∧ t.stop = true ∧ t.fatal = true

theorem failsAlone_ok {α : Type} (v : α) (s : State) : (Res.ok v s).FailsAlone := by
  intro r t e
  cases e

theorem Res.FailsAlone.andThen {α β : Type} {x : Res α} {k : α → State → Res β} (h : x.FailsAlone)
    (hk : ∀ v u, (k v u).FailsAlone) : (x.andThen k).FailsAlone := by
  intro r t e
  rcases Res.andThen_eq_raised.1 e with e | ⟨v, u, _, e⟩
  · exact h r t e
  · exact hk v u r t e

theorem cacheResolve_fails (s : State) (a : Addr) : (s.cacheResolve a).FailsAlone := by
  intro r t h
  unfold State.cacheResolve at h
  split at h
  · cases h
  · cases h; exact ⟨rfl, rfl, rfl⟩

theorem readByte_fails (s : State) (a : Addr) : (s.readByte a).FailsAlone := by
  unfold State.readByte
  split
  · exact failsAlone_ok _ _
  · exact (cacheResolve_fails s a).andThen fun _ _ => failsAlone_ok _ _

theorem writeByte_fails (s : State) (a : Addr) (v : Byte) : (s.writeByte a v).FailsAlone := by
  unfold State.writeByte
  split
  · exact failsAlone_ok _ _
  · exact (cacheResolve_fails s a).andThen fun _ _ => failsAlone_ok _ _

theorem readWord_fails (s : State) (a : Addr) : (s.readWord a).FailsAlone :=
  (readByte_fails _ _).andThen fun _ _ => (readByte_fails _ _).andThen fun _ _ => failsAlone_ok _ _

theorem writeWord_fails (s : State) (a v : Addr) : (s.writeWord a v).FailsAlone :=
  (writeByte_fails _ _ _).andThen fun _ _ => writeByte_fails _ _ _

theorem fetch8_fails (s : State) : s.fetch8.FailsAlone := (readByte_fails _ _).andThen fun _ _ => failsAlone_ok _ _

theorem fetch16_fails (s : State) : s.fetch16.FailsAlone :=
  (fetch8_fails _).andThen fun _ _ => (fetch8_fails _).andThen fun _ _ => failsAlone_ok _ _

theorem push16_fails (s : State) (v : Addr) : (s.push16 v).FailsAlone := writeWord_fails _ _ _

theorem pop16_fails (s : State) : s.pop16.FailsAlone := (readWord_fails _ _).andThen fun _ _ => failsAlone_ok _ _

theorem readOperand_fails (s : State) (o : Operand) : (s.readOperand o).FailsAlone := by
  cases o with
  | reg r => exact failsAlone_ok _ _
  | m => exact readByte_fails _ _

theorem writeOperand_fails (s : State) (o : Operand) (v : Byte) : (s.writeOperand o v).FailsAlone := by
  cases o with
  | reg r => exact failsAlone_ok _ _
  | m => exact writeByte_fails _ _ _

theorem fetchInstr_fails (s : State) : s.fetchInstr.FailsAlone :=
  (fetch8_fails _).andThen fun op _ => by
    cases decodeOp op with
    | bare i => exact failsAlone_ok _ _
    | imm8 k => exact (fetch8_fails _).andThen fun _ _ => failsAlone_ok _ _
    | imm16 k => exact (fetch16_fails _).andThen fun _ _ => failsAlone_ok _ _

/-- An operation that fails alone ends a step with the integrity failure and both signals set, or goes on. -/
theorem Res.FailsAlone.finish {α : Type} {x : Res α} (h : x.FailsAlone) (w : Extent)
    (k : α → State → Host.Outcome State Fault Refusal) :
    (∃ t, x.finish w k = .fault (.memoryIntegrity t) ∧ t.stop = true ∧ t.fatal = true) ∨
      ∃ v u, x = .ok v u ∧ x.finish w k = k v u := by
  cases x with
  | ok v u => exact .inr ⟨v, u, rfl, rfl⟩
  | raised r t =>
    obtain ⟨rfl, h1, h2⟩ := h r t rfl
    exact .inl ⟨t.leave w, rfl, h1, h2⟩

/-- A load of a line with a wrong checksum raises the integrity failure (R234, R235). -/
theorem cacheResolve_failing {s : State} (hs : s.Inv) {a : Addr} (h : s.Failing a) :
    ∃ t, s.cacheResolve a = .raised .memoryIntegrity t ∧ t.stop = true ∧ t.fatal = true := by
  obtain ⟨m, hm⟩ := (resolve_bad_iff hs.mem (s.blk a)).2 h.2
  exact ⟨_, by rw [State.cacheResolve, hm]; rfl, rfl, rfl⟩

theorem readByte_failing {s : State} (hs : s.Inv) {a : Addr} (h : s.Failing a) :
    ∃ t, s.readByte a = .raised .memoryIntegrity t ∧ t.stop = true ∧ t.fatal = true := by
  obtain ⟨t, h1, h2⟩ := cacheResolve_failing hs h
  exact ⟨t, by simp [State.readByte, h.1, h1], h2⟩

theorem writeByte_failing {s : State} (hs : s.Inv) {a : Addr} (h : s.Failing a) (v : Byte) :
    ∃ t, s.writeByte a v = .raised .memoryIntegrity t ∧ t.stop = true ∧ t.fatal = true := by
  obtain ⟨t, h1, h2⟩ := cacheResolve_failing hs h
  exact ⟨t, by simp [State.writeByte, h.1, h1], h2⟩

end Sys2Proof.Machine
end

