-- ==== Sys2Proof/Laws/Accesses.lean ====
section
/-!
SUPPORT. Which accesses each operation makes (R205): it answers where the sequence of them does, with the same memory
system, and raises where the sequence does. And where a sequence raises: at a line with a wrong checksum (R1100, R1120).
-/
namespace Sys2Proof.Machine

/-! ## Sequences -/

/-- An access sees the memory system, the Bank Map, the parameters and `mmuBlock`. -/
structure SameForAccess (s t : State) : Prop where
  mem : t.mem = s.mem
  bank : t.bank = s.bank
  cfg : t.cfg = s.cfg
  mmuBlock : t.mmuBlock = s.mmuBlock

theorem SameForAccess.refl (s : State) : SameForAccess s s := ⟨rfl, rfl, rfl, rfl⟩

theorem SameForAccess.trans {s t u : State} (h : SameForAccess s t) (k : SameForAccess t u) : SameForAccess s u :=
  ⟨k.1.trans h.1, k.2.trans h.2, k.3.trans h.3, k.4.trans h.4⟩

/-- Two results that answer the same in states that accesses see alike, or raise the same fault. -/
def SameResult {α : Type} : Res α → Res α → Prop
  | .ok v s, .ok w t => w = v ∧ SameForAccess s t
  | .raised r _, .raised q _ => q = r
  | .ok _ _, .raised _ _ => False
  | .raised _ _, .ok _ _ => False

theorem SameResult.andThen {α β : Type} {x y : Res α} {k l : α → State → Res β} (h : SameResult x y)
    (hk : ∀ v s t, SameForAccess s t → SameResult (k v s) (l v t)) : SameResult (x.andThen k) (y.andThen l) := by
  cases x <;> cases y
  · obtain ⟨rfl, h⟩ := h
    exact hk _ _ _ h
  · exact h.elim
  · exact h.elim
  · exact h

theorem cacheResolve_congr {s t : State} (h : SameForAccess s t) (a : Addr) :
    SameResult (s.cacheResolve a) (t.cacheResolve a) := by
  unfold State.cacheResolve
  rw [h.mem, blk_congr h.bank (by rw [h.cfg])]
  split
  · exact ⟨rfl, rfl, h.bank, h.cfg, h.mmuBlock⟩
  · exact rfl

theorem readByte_congr {s t : State} (h : SameForAccess s t) (a : Addr) : SameResult (s.readByte a) (t.readByte a) := by
  unfold State.readByte State.unmapped
  rw [h.cfg]
  split
  · exact ⟨rfl, h⟩
  · exact (cacheResolve_congr h a).andThen fun i s t h => ⟨by rw [h.mem], h⟩

theorem writeByte_congr {s t : State} (h : SameForAccess s t) (a : Addr) (v : Byte) :
    SameResult (s.writeByte a v) (t.writeByte a v) := by
  unfold State.writeByte State.unmapped
  rw [h.cfg]
  split
  · exact ⟨rfl, h⟩
  · exact (cacheResolve_congr h a).andThen fun i s t h => ⟨rfl, by rw [h.mem], h.bank, h.cfg, h.mmuBlock⟩

theorem SameForAccess.bankSelect {s t : State} (h : SameForAccess s t) (p v : Byte) :
    SameForAccess (s.bankSelect p v) (t.bankSelect p v) := by
  obtain ⟨h1, h2⟩ := bankSelect_congr h.bank h.mmuBlock h.cfg p v
  exact ⟨by simp [h.mem], h1, by simp [h.cfg], h2⟩

/-- A sequence runs alike in states that accesses see alike. -/
theorem runAccesses_congr : ∀ (xs : List Access) {s t : State}, SameForAccess s t →
    SameResult (s.runAccesses xs) (t.runAccesses xs)
  | [], _, _, h => ⟨rfl, h⟩
  | .read a :: xs, _, _, h => (readByte_congr h a).andThen fun _ _ _ h =>
      (runAccesses_congr xs h).andThen fun _ _ _ h => ⟨rfl, h⟩
  | .write a v :: xs, _, _, h => (writeByte_congr h a v).andThen fun _ _ _ h => runAccesses_congr xs h
  | .select p v :: xs, _, _, h => runAccesses_congr xs (h.bankSelect p v)

/-- One sequence after another. -/
theorem runAccesses_append : ∀ (xs ys : List Access) (s : State), s.runAccesses (xs ++ ys) =
    (s.runAccesses xs).andThen fun vs t => (t.runAccesses ys).andThen fun ws u => .ok (vs ++ ws) u
  | [], ys, s => by cases h : s.runAccesses ys <;> simp [State.runAccesses, h]
  | .read a :: xs, ys, s => by
    simp only [List.cons_append, State.runAccesses]
    cases s.readByte a with
    | raised r t => rfl
    | ok v t =>
      simp only [Res.andThen_ok, runAccesses_append xs ys]
      cases t.runAccesses xs with
      | raised r u => rfl
      | ok vs u => cases h : u.runAccesses ys <;> simp [h]
  | .write a v :: xs, ys, s => by
    simp only [List.cons_append, State.runAccesses]
    cases s.writeByte a v with
    | raised r t => rfl
    | ok w t => exact runAccesses_append xs ys t
  | .select p v :: xs, ys, s => runAccesses_append xs ys _

/-! ## Where a sequence raises -/

/-- One access, with nothing after it, raises exactly where its line's checksum is wrong (R234, R1100). -/
theorem readByte_raises_iff {s : State} (hs : s.Inv) (a : Addr) : (∃ r t, s.readByte a = .raised r t) ↔ s.Failing a := by
  constructor
  · rintro ⟨r, t, h⟩
    unfold State.readByte at h
    split at h
    · cases h
    · next hu =>
      rcases Res.andThen_eq_raised.1 h with h | ⟨_, _, _, h⟩
      · exact ⟨by simpa using hu, (cacheResolve_raised hs h).2.2.2⟩
      · cases h
  · intro h
    obtain ⟨t, e, _⟩ := readByte_failing hs h
    exact ⟨_, t, e⟩

theorem writeByte_raises_iff {s : State} (hs : s.Inv) (a : Addr) (v : Byte) :
    (∃ r t, s.writeByte a v = .raised r t) ↔ s.Failing a := by
  constructor
  · rintro ⟨r, t, h⟩
    unfold State.writeByte at h
    split at h
    · cases h
    · next hu =>
      rcases Res.andThen_eq_raised.1 h with h | ⟨_, _, _, h⟩
      · exact ⟨by simpa using hu, (cacheResolve_raised hs h).2.2.2⟩
      · cases h
  · intro h
    obtain ⟨t, e, _⟩ := writeByte_failing hs h v
    exact ⟨_, t, e⟩

theorem failsIn_nil (s : State) : ¬ s.FailsIn [] := by
  rintro ⟨done, x, rest, _, _, h, _⟩
  simp at h

/-- The first access fails, or it answers and a later one fails. -/
theorem failsIn_cons {s : State} (x : Access) (xs : List Access) :
    s.FailsIn (x :: xs) ↔ s.FailingAt x ∨ ∃ vs t, s.runAccesses [x] = .ok vs t ∧ t.FailsIn xs := by
  constructor
  · rintro ⟨done, y, rest, vs, u, h1, h2, h3⟩
    cases done with
    | nil =>
      cases h1
      cases h2
      exact .inl h3
    | cons z done =>
      cases h1
      have e := runAccesses_append [x] done s
      rw [List.singleton_append, h2] at e
      obtain ⟨ws, t, h4, h5⟩ := Res.andThen_eq_ok.1 e.symm
      obtain ⟨ws', t', h6, h7⟩ := Res.andThen_eq_ok.1 h5
      cases h7
      exact .inr ⟨ws, t, h4, done, y, rest, ws', u, rfl, h6, h3⟩
  · rintro (h | ⟨vs, t, h1, done, y, rest, ws, u, h2, h3, h4⟩)
    · exact ⟨[], x, xs, [], s, rfl, rfl, h⟩
    · refine ⟨x :: done, y, rest, vs ++ ws, u, by rw [h2]; rfl, ?_, h4⟩
      have e := runAccesses_append [x] done s
      rw [List.singleton_append, h1, Res.andThen_ok, h3, Res.andThen_ok] at e
      exact e

/-- A sequence raises exactly where one of its accesses fails. -/
theorem failsIn_iff : ∀ (xs : List Access) {s : State}, s.Inv →
    (s.FailsIn xs ↔ ∃ r t, s.runAccesses xs = .raised r t)
  | [], s, _ => ⟨fun h => absurd h (failsIn_nil s), fun ⟨_, _, h⟩ => nomatch h⟩
  | .read a :: xs, s, hs => by
    rw [failsIn_cons]
    show s.Failing a ∨ _ ↔ _
    rw [← readByte_raises_iff hs a]
    simp only [State.runAccesses]
    cases h : s.readByte a with
    | raised r t => simp
    | ok v t =>
      have ih := failsIn_iff xs (readByte_ok hs h).2.inv
      exact Iff.trans (by simp) (ih.trans (by simp [Res.andThen_eq_raised]))
  | .write a v :: xs, s, hs => by
    rw [failsIn_cons]
    show s.Failing a ∨ _ ↔ _
    rw [← writeByte_raises_iff hs a v]
    simp only [State.runAccesses]
    cases h : s.writeByte a v with
    | raised r t => simp
    | ok w t =>
      cases w
      have ih := failsIn_iff xs (writeByte_ok hs h).inv
      exact Iff.trans (by simp) ih
  | .select p v :: xs, s, hs => by
    rw [failsIn_cons]
    show False ∨ _ ↔ _
    have ih := failsIn_iff xs (hs.bankSelect p v)
    exact Iff.trans (by simp [State.runAccesses]) ih

/-! ## The accesses an operation makes -/

/-- The operation is, for the memory system, this sequence of accesses: it answers where the sequence does, in a state
that accesses see alike, and raises what the sequence raises. -/
structure Res.Makes {α : Type} (x : Res α) (s : State) (xs : List Access) : Prop where
  ok : ∀ v t, x = .ok v t → ∃ vs u, s.runAccesses xs = .ok vs u ∧ SameForAccess u t
  raised : ∀ r t, x = .raised r t → ∃ u, s.runAccesses xs = .raised r u

theorem makes_ok {α : Type} {s t : State} (h : SameForAccess s t) (v : α) : (Res.ok v t).Makes s [] :=
  ⟨fun _ _ e => by cases e; exact ⟨[], s, rfl, h⟩, fun _ _ e => by cases e⟩

theorem Res.Makes.andThen {α β : Type} {x : Res α} {k : α → State → Res β} {s : State} {xs ys : List Access}
    (h : x.Makes s xs) (hk : ∀ v t, x = .ok v t → (k v t).Makes t ys) : (x.andThen k).Makes s (xs ++ ys) := by
  have alike : ∀ v t, x = .ok v t → ∃ vs u, s.runAccesses xs = .ok vs u ∧
      SameResult (t.runAccesses ys) (u.runAccesses ys) := by
    intro v t e
    obtain ⟨vs, u, h1, h2⟩ := h.ok v t e
    exact ⟨vs, u, h1, runAccesses_congr ys ⟨h2.1.symm, h2.2.symm, h2.3.symm, h2.4.symm⟩⟩
  refine ⟨fun v t e => ?_, fun r t e => ?_⟩
  · obtain ⟨a, u, h1, h2⟩ := Res.andThen_eq_ok.1 e
    obtain ⟨vs, u', h3, h4⟩ := alike a u h1
    obtain ⟨ws, w, h5, h6⟩ := (hk a u h1).ok v t h2
    rw [h5] at h4
    rw [runAccesses_append, h3, Res.andThen_ok]
    cases h7 : u'.runAccesses ys with
    | raised r y => rw [h7] at h4; exact h4.elim
    | ok ws' y =>
      rw [h7] at h4
      exact ⟨vs ++ ws', y, rfl, ⟨h6.1.trans h4.2.1.symm, h6.2.trans h4.2.2.symm, h6.3.trans h4.2.3.symm,
        h6.4.trans h4.2.4.symm⟩⟩
  · rw [runAccesses_append]
    rcases Res.andThen_eq_raised.1 e with h1 | ⟨a, u, h1, h2⟩
    · obtain ⟨u, h3⟩ := h.raised r t h1
      exact ⟨u, by rw [h3]; rfl⟩
    · obtain ⟨vs, u', h3, h4⟩ := alike a u h1
      obtain ⟨w, h5⟩ := (hk a u h1).raised r t h2
      rw [h5] at h4
      rw [h3, Res.andThen_ok]
      cases h7 : u'.runAccesses ys with
      | raised q y =>
        rw [h7] at h4
        exact ⟨y, by rw [show q = r from h4]; rfl⟩
      | ok ws' y => rw [h7] at h4; exact h4.elim

/-- An operation followed by what makes no access. -/
theorem Res.Makes.then {α β : Type} {x : Res α} {k : α → State → Res β} {s : State} {xs : List Access}
    (h : x.Makes s xs) (hk : ∀ v t, x = .ok v t → (k v t).Makes t []) : (x.andThen k).Makes s xs := by
  have := h.andThen hk
  rwa [List.append_nil] at this

/-- The accesses of an operation from a state that accesses see alike. -/
theorem Res.Makes.from {α : Type} {x : Res α} {s t : State} {xs : List Access} (h : x.Makes t xs)
    (hs : SameForAccess s t) : x.Makes s xs := by
  have e := runAccesses_congr xs hs
  refine ⟨fun v u hx => ?_, fun r u hx => ?_⟩
  · obtain ⟨vs, w, h1, h2⟩ := h.ok v u hx
    rw [h1] at e
    cases h3 : s.runAccesses xs with
    | raised r y => rw [h3] at e; exact e.elim
    | ok vs' y => rw [h3] at e; exact ⟨vs', y, rfl, e.2.trans h2⟩
  · obtain ⟨w, h1⟩ := h.raised r u hx
    rw [h1] at e
    cases h3 : s.runAccesses xs with
    | raised q y => rw [h3] at e; exact ⟨y, by rw [show r = q from e]⟩
    | ok vs' y => rw [h3] at e; exact e.elim

theorem readByte_makes (s : State) (a : Addr) : (s.readByte a).Makes s [.read a] := by
  refine ⟨fun v t e => ⟨[v], t, ?_, .refl t⟩, fun r t e => ⟨t, ?_⟩⟩ <;> simp [State.runAccesses, e]

theorem writeByte_makes (s : State) (a : Addr) (v : Byte) : (s.writeByte a v).Makes s [.write a v] := by
  refine ⟨fun _ t e => ⟨[], t, ?_, .refl t⟩, fun r t e => ⟨t, ?_⟩⟩ <;> simp [State.runAccesses, e]

theorem readWord_makes (s : State) (a : Addr) : (s.readWord a).Makes s (readsWord a) :=
  (readByte_makes s a).andThen fun _ t _ => (readByte_makes t _).then fun _ u _ => makes_ok (.refl u) _

theorem writeWord_makes (s : State) (a v : Addr) : (s.writeWord a v).Makes s (writesWord a v) :=
  (writeByte_makes s a _).andThen fun _ t _ => writeByte_makes t _ _

theorem fetch8_makes (s : State) : s.fetch8.Makes s [.read s.pc] :=
  (readByte_makes s _).then fun _ u _ => makes_ok (s := u) (t := { u with pc := u.pc + 1 }) ⟨rfl, rfl, rfl, rfl⟩ _

theorem fetch16_makes (s : State) : s.fetch16.Makes s (readsWord s.pc) :=
  (fetch8_makes s).andThen fun v t h => by
    have := (fetch8_makes t).then (k := fun h u => Res.ok (join h v) u) fun _ u _ => makes_ok (.refl u) _
    have e : t.pc = s.pc + 1 := by rw [fetch8_rest h]
    rwa [e] at this

theorem push16_makes (s : State) (v : Addr) : (s.push16 v).Makes s (writesWord (s.sp - 2) v) :=
  (writeWord_makes { s with sp := s.sp - 2 } (s.sp - 2) v).from ⟨rfl, rfl, rfl, rfl⟩

theorem pop16_makes (s : State) : s.pop16.Makes s (readsWord s.sp) :=
  (readWord_makes s _).then fun _ u _ => makes_ok (s := u) (t := { u with sp := u.sp + 2 }) ⟨rfl, rfl, rfl, rfl⟩ _

theorem readOperand_makes (s : State) (o : Operand) : (s.readOperand o).Makes s (readsOperand s o) := by
  cases o with
  | reg r => exact makes_ok (.refl s) _
  | m => exact readByte_makes s _

theorem writeOperand_makes (s : State) (o : Operand) (v : Byte) :
    (s.writeOperand o v).Makes s (writesOperand s o v) := by
  cases o with
  | reg r => exact makes_ok (s := s) (t := s.setReg r v) (by cases r <;> exact ⟨rfl, rfl, rfl, rfl⟩) _
  | m => exact writeByte_makes s _ _

end Sys2Proof.Machine
end

