-- ==== Sys2Proof/Laws/Control.lean ====
section
/-!
SUPPORT. The conditional forms, taken and not taken, and what a call and a return do.
-/
namespace Sys2Proof.Machine

theorem jumpIf_taken {s : State} {k : Cond} (h : k.holds s.f = true) (a : Addr) : s.jumpIf k a = s.jump a := if_pos h

theorem jumpIf_not_taken {s : State} {k : Cond} (h : k.holds s.f = false) (a : Addr) : s.jumpIf k a = .next s :=
  if_neg (by rw [h]; decide)

theorem callIf_taken {s : State} {k : Cond} (h : k.holds s.f = true) (a : Addr) : s.callIf k a = s.callTo a := if_pos h

theorem callIf_not_taken {s : State} {k : Cond} (h : k.holds s.f = false) (a : Addr) : s.callIf k a = .next s :=
  if_neg (by rw [h]; decide)

theorem retIf_taken {s : State} {k : Cond} (h : k.holds s.f = true) : s.retIf k = s.ret := if_pos h

theorem retIf_not_taken {s : State} {k : Cond} (h : k.holds s.f = false) : s.retIf k = .next s :=
  if_neg (by rw [h]; decide)

/-- A call pushes `pc` and goes to its target (R910, R930). -/
theorem callTo_total {s : State} (hs : s.Inv) (hw : s.Sound) :
    ∃ t, (∀ a, s.callTo a = .next { t with pc := a }) ∧
      Touched { s with sp := s.sp - 2 } t (s.storedWord (s.sp - 2) s.pc s.mem.logical) := by
  obtain ⟨t, h, ht⟩ := push16_total hs hw s.pc
  exact ⟨t, fun a => by simp only [State.callTo, h, Res.finish_ok, State.jump], ht⟩

/-- A return goes to the word at `sp` (R920). -/
theorem ret_total {s : State} (hs : s.Inv) (hw : s.Sound) :
    ∃ t, s.ret = .next { t with pc := s.guestWord s.sp } ∧ Touched { s with sp := s.sp + 2 } t s.mem.logical := by
  obtain ⟨t, h, ht⟩ := pop16_total hs hw
  exact ⟨t, by simp only [State.ret, h, Res.finish_ok, State.jump], ht⟩

theorem callTo_rest {s t : State} {a : Addr} (h : s.callTo a = .next t) :
    t = { s with pc := a, sp := s.sp - 2, mem := t.mem } := by
  obtain ⟨⟨⟩, u, h1, h2⟩ := Res.finish_eq_next.1 h
  cases h2
  conv => lhs; rw [push16_rest h1]

theorem ret_rest {s t : State} (h : s.ret = .next t) : t = { s with pc := t.pc, sp := s.sp + 2, mem := t.mem } := by
  obtain ⟨v, u, h1, h2⟩ := Res.finish_eq_next.1 h
  cases h2
  conv => lhs; rw [pop16_rest h1]

end Sys2Proof.Machine
end

