-- ==== Sys2Proof/Laws/Extent.lean ====
section
/-!
SUPPORT. Placing bytes from outside; what a fault leaves alone; and, once for each operation, that whether it answers or
raises it has written nothing outside an extent that holds its stores (R411).
-/
namespace Sys2Proof.Machine

/-! ## Placing a byte -/

theorem poke_rest (s : State) (a : Addr) (v : Byte) : s.poke a v = { s with mem := (s.poke a v).mem } := by
  unfold State.poke
  split <;> rfl

theorem wf_poke {s : State} (hw : Memory.wf s.mem.image = true) (a : Addr) (v : Byte) :
    Memory.wf (s.poke a v).mem.image = true := by
  unfold State.poke
  split
  · exact hw
  · exact wf_pokeImage hw _ _ _

/-- Placing a byte stores it in the logical memory. -/
theorem poke_logical {s : State} (hw : Memory.wf s.mem.image = true) (a : Addr) (v : Byte) (n : Nat)
    (j : Fin lineSize) : (s.poke a v).mem.logical n j = s.stored a v s.mem.logical n j := by
  unfold State.poke State.stored
  split
  · next h => simp [h]
  · next h => simp [h, logical_poke hw, State.loc]

/-! ## What is outside an extent -/

theorem Kept.refl (w : Extent) (s : State) : Kept w s s :=
  ⟨fun _ _ => rfl, fun _ _ _ => rfl, fun _ => rfl, fun _ => rfl, fun _ _ _ => rfl, .refl _⟩

theorem SameHostSide.refl (s : State) : SameHostSide s s := ⟨rfl, rfl, rfl, rfl, rfl⟩

theorem SameHostSide.trans {s t u : State} (h : SameHostSide s t) (k : SameHostSide t u) : SameHostSide s u :=
  ⟨k.1.trans h.1, k.2.1.trans h.2.1, k.2.2.1.trans h.2.2.1, k.2.2.2.1.trans h.2.2.2.1, k.2.2.2.2.trans h.2.2.2.2⟩

theorem SameHostSide.loc {s t : State} (h : SameHostSide s t) (a : Addr) : t.loc a = s.loc a := by
  unfold State.loc
  rw [blk_congr h.2.1 (by rw [h.1])]

theorem Kept.trans {w : Extent} {s t u : State} (h : Kept w s t) (hs : SameHostSide s t) (k : Kept w t u) :
    Kept w s u where
  regs r hr := (k.regs r hr).trans (h.regs r hr)
  flags i hi hf := (k.flags i hi hf).trans (h.flags i hi hf)
  sp hf := (k.sp hf).trans (h.sp hf)
  ie hf := (k.ie hf).trans (h.ie hf)
  bytes n j hn := (k.bytes n j fun a ha => by rw [hs.loc]; exact hn a ha).trans (h.bytes n j hn)
  image := h.image.trans k.image

/-- A state that differs from another in `pc`, the signals and the memory system only, where every logical byte outside
the extent is as before. -/
theorem Kept.of_mem {w : Extent} {s t : State} {pc : Addr} {stop fatal : Bool} {m : MemSys}
    (h : t = { s with pc := pc, stop := stop, fatal := fatal, mem := m })
    (hb : ∀ n j, (∀ a ∈ w.stores, s.loc a ≠ (n, j)) → m.logical n j = s.mem.logical n j)
    (hi : WrittenBack s.mem m) : Kept w s t ∧ SameHostSide s t := by
  subst h
  exact ⟨⟨fun r _ => by cases r <;> rfl, fun _ _ _ => rfl, fun _ => rfl, fun _ => rfl, hb, hi⟩, rfl, rfl, rfl, rfl, rfl⟩

theorem Kept.withPc {w : Extent} {s u : State} (h : Kept w s u) (p : Addr) : Kept w s { u with pc := p } where
  regs r hr := (show State.getReg { u with pc := p } r = u.getReg r by cases r <;> rfl).trans (h.regs r hr)
  flags := h.flags
  sp := h.sp
  ie := h.ie
  bytes := h.bytes
  image := h.image

theorem Kept.withSp {w : Extent} {s u : State} (h : Kept w s u) (hw : w.sp = true) (p : Addr) :
    Kept w s { u with sp := p } where
  regs r hr := (show State.getReg { u with sp := p } r = u.getReg r by cases r <;> rfl).trans (h.regs r hr)
  flags := h.flags
  sp hf := absurd hw (by simp [hf])
  ie := h.ie
  bytes := h.bytes
  image := h.image

/-! ## The state a fault leaves -/

@[simp] theorem leaveLine_tag (s : State) (w : Extent) (x : MemLeavings) (y : Line) :
    (s.leaveLine w x y).tag = y.tag := rfl
@[simp] theorem leaveFailed_tag (s : State) (w : Extent) (x : MemLeavings) (y : Line) :
    (s.leaveFailed w x y).tag = y.tag := rfl
@[simp] theorem leaveFailed_data (s : State) (w : Extent) (x : MemLeavings) (y : Line) :
    (s.leaveFailed w x y).data = y.data := rfl
@[simp] theorem leaveMem_image (s : State) (w : Extent) (x : MemLeavings) :
    (s.leaveMem w x).image = (s.goOn w x).image := rfl
@[simp] theorem leaveMem_calls (s : State) (w : Extent) (x : MemLeavings) :
    (s.leaveMem w x).calls = (s.goOn w x).calls := rfl

/-- What going on after a failed load does: the memory system stays as good, no logical byte changes but those of the
stores, the image changes by write-backs only, and the failed line stands last, with no call after its load where the
instruction accesses no other block. -/
theorem goOn_spec {s : State} (hm : s.mem.Ok) {y : Line} (hl : s.mem.lines.getLast? = some y) {k : Nat}
    (hf : s.mem.FailedLoad y k []) (w : Extent) (x : MemLeavings) :
    (s.goOn w x).Ok ∧
      (∀ n j, (∀ a ∈ w.stores, s.loc a ≠ (n, j)) → (s.goOn w x).logical n j = s.mem.logical n j) ∧
      WrittenBack s.mem (s.goOn w x) ∧ (s.goOn w x).lines.getLast? = some y ∧
      ∃ after, (s.goOn w x).FailedLoad y k after ∧ (s.onlyFailed w = true → after = []) := by
  let one : MemSys → Addr × Option (Fin lineSize × Byte) × Bool → MemSys := fun m p =>
    if s.unmapped p.1 then m else m.accessBeside (s.blk p.1) p.2.1 p.2.2
  have go : ∀ (ps : List (Addr × Option (Fin lineSize × Byte) × Bool)) (m : MemSys) (c : List BackendCall), m.Ok →
      m.lines.getLast? = some y → m.FailedLoad y k c →
      (ps.foldl one m).Ok ∧
        (∀ n j, (∀ p ∈ ps, ∀ i v, p.2.1 = some (i, v) → (n, j) ≠ (s.blk p.1, i)) →
          (ps.foldl one m).logical n j = m.logical n j) ∧
        WrittenBack m (ps.foldl one m) ∧ (ps.foldl one m).lines.getLast? = some y ∧
        ∃ after, (ps.foldl one m).FailedLoad y k after ∧
          ((∀ p ∈ ps, (s.unmapped p.1 || y.holds (s.blk p.1)) = true) → after = c) := by
    intro ps
    induction ps with
    | nil => exact fun m c h1 h2 h3 => ⟨h1, fun _ _ _ => rfl, .refl m, h2, c, h3, fun _ => rfl⟩
    | cons p ps ih =>
      intro m c hm hl hf
      have h : GoneOn m (s.blk p.1) p.2.1 y k c (one m p) ∧
          ((s.unmapped p.1 || y.holds (s.blk p.1)) = true → one m p = m) := by
        simp only [one]
        split
        · exact ⟨.refl hm hl hf _ _, fun _ => rfl⟩
        · next hu =>
          refine ⟨accessBeside_spec hm hl hf _ _ _, fun e => ?_⟩
          have hh : y.holds (s.blk p.1) = true := by simpa [hu] using e
          simp [MemSys.accessBeside, hl, hh]
      obtain ⟨h, hsame⟩ := h
      obtain ⟨more, hf'⟩ := h.failed
      by_cases hp : (s.unmapped p.1 || y.holds (s.blk p.1)) = true
      · rw [List.foldl_cons, hsame hp]
        obtain ⟨l0, l1, l2, l3, after, l4, l5⟩ := ih m c hm hl hf
        exact ⟨l0, fun n j hn => l1 n j fun q hq => hn q (by simp [hq]), l2, l3, after, l4,
          fun e => l5 fun q hq => e q (by simp [hq])⟩
      · obtain ⟨l0, l1, l2, l3, after, l4, _⟩ := ih _ _ h.ok h.last hf'
        refine ⟨l0, fun n j hn => ?_, h.written.trans l2, l3, after, l4, fun e => absurd (e p (by simp)) hp⟩
        exact (l1 n j fun q hq => hn q (by simp [hq])).trans (h.content n j (hn p (by simp)))
  obtain ⟨l0, l1, l2, l3, after, l4, l5⟩ := go
    ((w.reads.map fun a => (a, none, x.reads a)) ++ w.stores.map fun a => (a, some (off a, x.byte a), x.stores a))
    s.mem [] hm hl hf
  refine ⟨l0, fun n j h => l1 n j fun p hp i v e => ?_, l2, l3, after, l4, fun e => l5 fun p hp => ?_⟩
  · rcases List.mem_append.1 hp with hp | hp
    · obtain ⟨a, _, rfl⟩ := List.mem_map.1 hp; cases e
    · obtain ⟨a, ha, rfl⟩ := List.mem_map.1 hp
      cases e
      exact fun e => h a ha e.symm
  · unfold State.onlyFailed at e
    rw [hl] at e
    have e' := List.all_eq_true.1 e
    rcases List.mem_append.1 hp with hp | hp
    · obtain ⟨a, ha, rfl⟩ := List.mem_map.1 hp
      exact e' a (List.mem_append_left _ ha)
    · obtain ⟨a, ha, rfl⟩ := List.mem_map.1 hp
      exact e' a (List.mem_append_right _ ha)

/-- A byte of a line that no store of the extent names stands. -/
theorem leaveLine_data {s : State} {w : Extent} {x : MemLeavings} {y : Line} {n : Nat} (hy : y.holds n = true)
    (j : Fin lineSize) (h : ∀ a ∈ w.stores, s.loc a ≠ (n, j)) : (s.leaveLine w x y).data[j] = y.data[j] := by
  have hf : (w.stores.find? fun a => !s.unmapped a && y.holds (s.blk a) && off a == j) = none := by
    rw [List.find?_eq_none]
    intro a ha e
    simp only [Bool.and_eq_true, beq_iff_eq, Line.holds_iff] at e hy
    exact h a ha (Prod.ext (Option.some.inj (e.1.2.symm.trans hy)) e.2)
  show (Vector.ofFn (s.leaveByte w x y))[j.val] = _
  rw [Vector.getElem_ofFn]
  simp only [State.leaveByte, hf]

/-- Freeing bytes of the lines and moving the failed one changes no logical byte that no store of the extent names. -/
theorem leaveMem_goOn (s : State) (w : Extent) (x : MemLeavings) (hd : ((s.goOn w x).lines.filterMap fun y => y.tag).Nodup)
    {y : Line} (hy : (s.goOn w x).lines.getLast? = some y) (n : Nat) (j : Fin lineSize)
    (h : ∀ a ∈ w.stores, s.loc a ≠ (n, j)) : (s.leaveMem w x).logical n j = (s.goOn w x).logical n j := by
  have hl : (s.goOn w x).lines = (s.goOn w x).lines.dropLast ++ [y] := by
    obtain ⟨ls, e⟩ := List.getLast?_eq_some_iff.1 hy
    rw [e]; simp
  generalize he : (s.goOn w x).lines.dropLast = others at hl
  obtain ⟨i, hi⟩ : ∃ i, (s.leaveMem w x).lines =
      (others.map (s.leaveLine w x)).take i ++ [s.leaveFailed w x y] ++ (others.map (s.leaveLine w x)).drop i :=
    ⟨_, by simp only [State.leaveMem, he, hy]; rfl⟩
  have h1 : (others.map (s.leaveLine w x)).find? (fun z => z.holds n) =
      (others.find? fun z => z.holds n).map (s.leaveLine w x) := List.find?_map ..
  unfold MemSys.logical
  rw [leaveMem_image, hi, hl]
  by_cases hn : y.holds n = true
  · have hno : ∀ z ∈ others, z.holds n = false := by
      intro z hz
      refine Bool.eq_false_iff.2 fun e => ?_
      rw [hl, List.filterMap_append, List.nodup_append] at hd
      exact hd.2.2 n (mem_tags.2 ⟨z, hz, (Line.holds_iff z n).1 e⟩) n (by simp [(Line.holds_iff y n).1 hn]) rfl
    have hno' : ∀ z ∈ others.map (s.leaveLine w x), ¬ z.holds n = true := by
      intro z hz e
      obtain ⟨z', hz', rfl⟩ := List.mem_map.1 hz
      exact absurd ((hno z' hz').symm.trans e) (by simp)
    have n1 : ((others.map (s.leaveLine w x)).take i).find? (fun z => z.holds n) = none :=
      List.find?_eq_none.2 fun z hz => hno' z (List.mem_of_mem_take hz)
    have n2 : others.find? (fun z => z.holds n) = none :=
      List.find?_eq_none.2 fun z hz => by simp [hno z hz]
    have hf : (s.leaveFailed w x y).holds n = true := hn
    rw [List.append_assoc, List.find?_append, n1, List.find?_append (xs := others), n2]
    simp [hn, hf]
  · have hf : (s.leaveFailed w x y).holds n = false := Bool.eq_false_iff.2 hn
    have e1 : ([s.leaveFailed w x y] : List Line).find? (fun z => z.holds n) = none := by simp [hf]
    have e2 : ([y] : List Line).find? (fun z => z.holds n) = none := by simp [hn]
    rw [List.append_assoc, List.find?_append, List.find?_append (xs := [s.leaveFailed w x y]), e1, Option.none_or,
      ← List.find?_append, List.take_append_drop, h1, List.find?_append, e2, Option.or_none]
    cases e3 : others.find? (fun z => z.holds n) with
    | some z => exact leaveLine_data (List.find?_some (p := fun z : Line => z.holds n) e3) j h
    | none => rfl

/-- The failed line keeps its tag and its loaded bytes (D21); at the MRU end where no access is to another block. -/
theorem leaveMem_failed {s : State} {w : Extent} {x : MemLeavings} {y : Line} {k : Nat} {after : List BackendCall}
    (hy : (s.goOn w x).lines.getLast? = some y) (h : (s.goOn w x).FailedLoad y k after) :
    (s.leaveMem w x).FailedLoad (s.leaveFailed w x y) k after ∧
      (s.onlyFailed w = true → (s.leaveMem w x).lines.getLast? = some (s.leaveFailed w x y)) := by
  refine ⟨⟨?_, h.tag, h.data, h.calls, h.unsound⟩, fun e => ?_⟩
  · simp [State.leaveMem, hy]
  · simp only [State.leaveMem, e, if_true, hy, List.take_length, List.drop_length, List.append_nil]
    exact List.getLast?_concat

/-- A FLAGS bit outside the extent stands. -/
theorem leave_flag (s : State) (w : Extent) {k : Nat} (hk : k < 8) (h : w.flags.getLsbD k = false) :
    (s.leave w).f.getLsbD k = s.f.getLsbD k := by
  show ((s.f &&& ~~~w.flags) ||| ((Config.leftByFault s).f &&& w.flags)).getLsbD k = _
  rw [BitVec.getLsbD_or, BitVec.getLsbD_and, BitVec.getLsbD_and, BitVec.getLsbD_not, h]
  simp [hk]

/-- What a fault leaves outside the extent, on the host's side, and of the failed line (R411, D21). -/
theorem leave_kept {s : State} (hm : s.mem.Ok) {y : Line} {k : Nat} (hl : s.mem.lines.getLast? = some y)
    (hf : s.mem.FailedLoad y k []) (w : Extent) :
    Kept w s (s.leave w) ∧ SameHostSide s (s.leave w) ∧ (s.leave w).mem.KeepsFailed w s := by
  obtain ⟨h0, h1, h2, h3, after, h4, h5⟩ := goOn_spec hm hl hf w (Config.memLeftByFault s)
  obtain ⟨f1, f2⟩ := leaveMem_failed h3 h4
  refine ⟨⟨fun r hr => ?_, fun k hk h => leave_flag s w hk h, fun h => ?_, fun h => ?_,
    fun n j h => (leaveMem_goOn s w _ h0.distinct h3 n j h).trans (h1 n j h), h2⟩, ⟨rfl, rfl, rfl, rfl, rfl⟩,
    _, k, after, f1, fun h => ?_⟩
  · cases r <;> exact if_neg hr
  · show (if w.sp = true then _ else s.sp) = s.sp
    rw [h]; rfl
  · show (if w.ie = true then _ else s.ie) = s.ie
    rw [h]; rfl
  · have e : s.onlyFailed w = true := by
      unfold State.onlyFailed
      rw [hl]
      refine List.all_eq_true.2 fun a ha => ?_
      cases hu : s.unmapped a with
      | true => rfl
      | false =>
        rw [h a ha hu]
        exact (Line.holds_iff y k).2 hf.tag
    exact ⟨h5 e, f2 e⟩

/-! ## Operations that stay within an extent -/

/-- From a start `s`, the operation has written nothing outside the extent, whether it answers or raises. -/
structure Res.Within {α : Type} (x : Res α) (w : Extent) (s : State) : Prop where
  ok : ∀ v t, x = .ok v t → Kept w s t ∧ SameHostSide s t ∧ t.Inv
  raised : ∀ r t, x = .raised r t → Kept w s t ∧ SameHostSide s t ∧ t.mem.Ok ∧
    ∃ y k, t.mem.lines.getLast? = some y ∧ t.mem.FailedLoad y k []

theorem within_ok {α : Type} {w : Extent} {s t : State} (hk : Kept w s t) (hs : SameHostSide s t) (hi : t.Inv) (v : α) :
    (Res.ok v t).Within w s := ⟨fun _ _ h => by cases h; exact ⟨hk, hs, hi⟩, fun _ _ h => by cases h⟩

theorem Res.Within.andThen {α β : Type} {w : Extent} {s : State} {x : Res α} {k : α → State → Res β}
    (h : x.Within w s) (hk : ∀ v u, Kept w s u → SameHostSide s u → u.Inv → (k v u).Within w s) :
    (x.andThen k).Within w s := by
  refine ⟨fun v t e => ?_, fun r t e => ?_⟩
  · obtain ⟨a, u, h1, h2⟩ := Res.andThen_eq_ok.1 e
    obtain ⟨a1, a2, a3⟩ := h.ok a u h1
    exact (hk a u a1 a2 a3).ok v t h2
  · rcases Res.andThen_eq_raised.1 e with h1 | ⟨a, u, h1, h2⟩
    · exact h.raised r t h1
    · obtain ⟨a1, a2, a3⟩ := h.ok a u h1
      exact (hk a u a1 a2 a3).raised r t h2

/-- The accesses of an instruction name the same blocks after some of them. -/
theorem MemSys.KeepsFailed.congr {m : MemSys} {w : Extent} {s u : State} (h : m.KeepsFailed w u)
    (hs : SameHostSide s u) : m.KeepsFailed w s := by
  obtain ⟨x, n, after, h1, h2⟩ := h
  refine ⟨x, n, after, h1, fun e => h2 fun a ha hu => ?_⟩
  rw [blk_congr hs.2.1 (by rw [hs.1])]
  exact e a ha (by unfold State.unmapped at hu ⊢; rw [← hs.1]; exact hu)

/-- An access that answers changes the image by the write-back of its victim only. -/
theorem cacheResolve_written {u t : State} (hi : u.Inv) {a : Addr} {i : Nat} (h : u.cacheResolve a = .ok i t) :
    WrittenBack u.mem t.mem := by
  unfold State.cacheResolve at h
  split at h
  · next hm => cases h; exact resolve_written hi.mem (.inr ⟨_, hm⟩)
  · cases h

theorem writeByte_written {u t : State} (hi : u.Inv) {a : Addr} {v : Byte} (h : u.writeByte a v = .ok () t) :
    WrittenBack u.mem t.mem := by
  unfold State.writeByte at h
  split at h
  · cases h; exact .refl _
  · obtain ⟨_, _, h1, h2⟩ := Res.andThen_eq_ok.1 h
    cases h2
    exact (cacheResolve_written hi h1).trans (.of_eq rfl rfl)

section
variable {w : Extent} {s u : State} (hk : Kept w s u) (hs : SameHostSide s u) (hi : u.Inv)
include hk hs hi

theorem cacheResolve_within (a : Addr) : (u.cacheResolve a).Within w s := by
  refine ⟨fun v t e => ?_, fun r t e => ?_⟩
  · obtain ⟨_, ht⟩ := cacheResolve_ok hi e
    obtain ⟨k1, k2⟩ := Kept.of_mem (w := w) (m := t.mem) (pc := u.pc) (stop := u.stop) (fatal := u.fatal) ht.rest
      (fun n j _ => ht.logical n j) (cacheResolve_written hi e)
    exact ⟨hk.trans hs k1, hs.trans k2, ht.inv⟩
  · unfold State.cacheResolve at e
    split at e
    · cases e
    · next m hm =>
      obtain ⟨hc, y, hl, hf⟩ := resolve_bad hi.mem hm
      cases e
      obtain ⟨k1, k2⟩ := Kept.of_mem (w := w) (s := u) (m := m) (pc := u.pc) (stop := true) (fatal := true) rfl
        (fun n j _ => hc.content n j) (resolve_written hi.mem (.inl hm))
      exact ⟨hk.trans hs k1, hs.trans k2, hc.ok, y, _, hl, hf⟩

theorem readByte_within (a : Addr) : (u.readByte a).Within w s := by
  unfold State.readByte
  split
  · exact within_ok hk hs hi _
  · exact (cacheResolve_within hk hs hi a).andThen fun _ _ h1 h2 h3 => within_ok h1 h2 h3 _

theorem writeByte_within {a : Addr} (ha : a ∈ w.stores) (v : Byte) : (u.writeByte a v).Within w s := by
  refine ⟨fun x t e => ?_, fun r t e => ?_⟩
  · cases x
    have ht := writeByte_ok hi e
    obtain ⟨k1, k2⟩ := Kept.of_mem (w := w) (m := t.mem) (pc := u.pc) (stop := u.stop) (fatal := u.fatal) ht.rest
      (fun n j hn => by
        rw [ht.logical]
        unfold State.stored
        rw [if_neg]
        rintro ⟨_, e⟩
        exact hn a ha e.symm) (writeByte_written hi e)
    exact ⟨hk.trans hs k1, hs.trans k2, ht.inv⟩
  · unfold State.writeByte at e
    split at e
    · cases e
    · rcases Res.andThen_eq_raised.1 e with e | ⟨_, _, _, e⟩
      · exact (cacheResolve_within hk hs hi a).raised r t e
      · cases e

theorem readWord_within (a : Addr) : (u.readWord a).Within w s :=
  (readByte_within hk hs hi a).andThen fun _ _ h1 h2 h3 =>
    (readByte_within h1 h2 h3 _).andThen fun _ _ h1 h2 h3 => within_ok h1 h2 h3 _

theorem writeWord_within {a : Addr} (ha : a ∈ w.stores) (hb : a + 1 ∈ w.stores) (v : Addr) :
    (u.writeWord a v).Within w s :=
  (writeByte_within hk hs hi ha _).andThen fun _ _ h1 h2 h3 => writeByte_within h1 h2 h3 hb _

theorem fetch8_within : u.fetch8.Within w s :=
  (readByte_within hk hs hi _).andThen fun _ u h1 h2 h3 =>
    within_ok (h1.withPc (u.pc + 1)) h2 (h3.congr rfl rfl rfl h3.signals) _

theorem fetch16_within : u.fetch16.Within w s :=
  (fetch8_within hk hs hi).andThen fun _ _ h1 h2 h3 =>
    (fetch8_within h1 h2 h3).andThen fun _ _ h1 h2 h3 => within_ok h1 h2 h3 _

theorem readOperand_within (o : Operand) : (u.readOperand o).Within w s := by
  cases o with
  | reg r => exact within_ok hk hs hi _
  | m => exact readByte_within hk hs hi _

theorem writeOperand_m_within (ha : u.hl ∈ w.stores) (v : Byte) : (u.writeOperand .m v).Within w s :=
  writeByte_within hk hs hi ha v

theorem writeOperand_reg_within {r : Reg} (hr : r ∈ w.regs) (v : Byte) : (u.writeOperand (.reg r) v).Within w s := by
  refine within_ok ⟨fun q hq => ?_, ?_, ?_, ?_, ?_, ?_⟩ ?_ (hi.congr ?_ ?_ ?_ ?_) ()
  · have hne : q ≠ r := fun e => hq (e ▸ hr)
    rw [← hk.regs q hq]
    cases r <;> cases q <;> first | rfl | exact absurd rfl hne
  all_goals cases r <;> first | exact hk.flags | exact hk.sp | exact hk.ie | exact hk.bytes | exact hk.image | exact hs | exact hi.signals | rfl

/-- A push writes within an extent that has `sp` and the two bytes below it. -/
theorem push16_within (hf : w.sp = true) (ha : u.sp - 2 ∈ w.stores) (hb : u.sp - 2 + 1 ∈ w.stores) (v : Addr) :
    (u.push16 v).Within w s :=
  writeWord_within (hk.withSp hf (u.sp - 2)) hs (hi.congr rfl rfl rfl hi.signals) ha hb v

theorem pop16_within (hf : w.sp = true) : u.pop16.Within w s :=
  (readWord_within hk hs hi _).andThen fun _ u h1 h2 h3 =>
    within_ok (h1.withSp hf (u.sp + 2)) h2 (h3.congr rfl rfl rfl h3.signals) _

end

/-- A fault at the end of a step leaves alone what is outside the extent it is reported with, and the failed line. -/
theorem Res.Within.finish {α : Type} {w : Extent} {s t : State} {x : Res α} (h : x.Within w s)
    {k : α → State → Host.Outcome State Fault Refusal} (e : x.finish w k = .fault (.memoryIntegrity t)) :
    (Kept w s t ∧ SameHostSide s t ∧ t.mem.KeepsFailed w s) ∨ ∃ v u, x = .ok v u ∧ k v u = .fault (.memoryIntegrity t) := by
  cases x with
  | ok v u => exact .inr ⟨v, u, rfl, e⟩
  | raised r u =>
    obtain ⟨h1, h2, h3, y, k, hl, h4⟩ := h.raised r u rfl
    cases r with
    | illegalOpcode => cases e
    | memoryIntegrity =>
      cases e
      obtain ⟨k1, k2, k3⟩ := leave_kept h3 hl h4 w
      exact .inl ⟨h1.trans h2 k1, h2.trans k2, k3.congr h2⟩

end Sys2Proof.Machine
end

