-- ==== Sys2Proof/Laws/Fetch.lean ====
section
/-!
SUPPORT. What the fetch of an instruction can do, and that placing bytes from outside keeps the image canonical.
-/
namespace Sys2Proof.Machine

/-- The fetch moves `pc` and the cache and nothing else (R401, R402). -/
theorem fetchInstr_ok {s t : State} {i : Instr} (hs : s.Inv) (h : s.fetchInstr = .ok i t) :
    ∃ pc, Touched { s with pc := pc } t s.mem.logical := by
  have rest : ∀ {u : State} {p q : Addr} {m n : MemSys}, u = { s with pc := p, mem := m } →
      t = { u with pc := q, mem := n } → t = { s with pc := t.pc, mem := t.mem } := by
    intro u p q m n h1 h2
    subst h1; subst h2; rfl
  obtain ⟨op, u, h1, h2⟩ := Res.andThen_eq_ok.1 h
  obtain ⟨_, hu⟩ := fetch8_ok hs h1
  have outside : ∀ {q : Addr}, Touched { u with pc := q } t u.mem.logical → Touched { s with pc := t.pc } t s.mem.logical := by
    intro q ht
    exact ⟨rest hu.rest ht.rest, fun n j => by rw [ht.logical, hu.logical_eq], ht.inv, fun hw => ht.sound (hu.sound hw),
      fun n hn => (ht.outside n (by show ¬ inCore u.cfg n; rw [hu.cfg]; exact hn)).trans (hu.outside n hn)⟩
  cases hd : decodeOp op with
  | bare j => rw [hd] at h2; cases h2; exact ⟨_, hu⟩
  | imm8 k =>
    rw [hd] at h2
    obtain ⟨d, w, h3, h4⟩ := Res.andThen_eq_ok.1 h2
    cases h4
    exact ⟨_, outside (fetch8_ok hu.inv h3).2⟩
  | imm16 k =>
    rw [hd] at h2
    obtain ⟨d, w, h3, h4⟩ := Res.andThen_eq_ok.1 h2
    cases h4
    exact ⟨_, outside (fetch16_ok hu.inv h3).2⟩

theorem wf_withFetchWord {s : State} (hw : Memory.wf s.mem.image = true) (nbits w : Nat) :
    Memory.wf (s.withFetchWord nbits w).mem.image = true := wf_poke (wf_poke (wf_poke hw _ _) _ _) _ _

/-- The memory right after reset is in canonical form. -/
theorem reset_wf : Memory.wf State.reset.mem.image = true := rfl

end Sys2Proof.Machine
end

