-- ==== Sys2Proof/Laws/Flags.lean ====
section
/-!
SUPPORT. Each flag computation says what it writes as a `FlagWrite`, and each adder its results in exact arithmetic.
-/
namespace Sys2Proof.Machine

/-- A byte's low nibble. -/
theorem and_0x0F_toNat (x : Byte) : (x &&& 0x0F).toNat = x.toNat % 16 :=
  Nat.and_two_pow_sub_one_eq_mod x.toNat 4

/-- A byte's high nibble. -/
theorem shiftRight_4_toNat (x : Byte) : (x >>> 4).toNat = x.toNat / 16 := by
  simp [Nat.shiftRight_eq_div_pow]

/-- The complement of a byte. -/
theorem xor_0xFF_toNat (x : Byte) : (x ^^^ 0xFF).toNat = 255 - x.toNat := by
  revert x; decide

/-- Sign is the top bit (R404). -/
theorem sign_eq (r : Byte) : r.getLsbD 7 = decide (128 ≤ r.toNat) := by
  revert r; decide

theorem zero_eq (r : Byte) : (r == 0) = decide (r.toNat = 0) := by
  revert r; decide

/-- The number of 1 bits is even exactly where their XOR is 0 (R406). -/
theorem parity_eq (r : Byte) : parity r = evenOnes r := by
  revert r; decide

/-- A write of flags, bit by bit. -/
theorem gives_of_bits {w : FlagWrite} {old new : Byte}
    (h : ∀ i < 8, new.getLsbD i =
      (match i with
        | 7 => w.s
        | 6 => w.z
        | 4 => w.ac
        | 2 => w.p
        | 0 => w.cy
        | _ => none).getD (old.getLsbD i)) : w.gives old new :=
  ⟨h 7 (by decide), h 6 (by decide), h 4 (by decide), h 2 (by decide), h 0 (by decide), h 5 (by decide),
    h 3 (by decide), h 1 (by decide)⟩

/-- What `SetZSP` leaves at each bit (R404). -/
theorem setZSP_bit (r f : Byte) (i : Nat) (hi : i < 8) :
    (setZSP r f).getLsbD i =
      if i = 7 then decide (128 ≤ r.toNat) else if i = 6 then decide (r.toNat = 0)
      else if i = 2 then evenOnes r else f.getLsbD i := by
  simp only [setZSP, setP, setS, setZ, flagPut_bit _ _ _ i (by decide : 2 < 8) hi,
    flagPut_bit _ _ _ i (by decide : 7 < 8) hi, flagPut_bit _ _ _ i (by decide : 6 < 8) hi, sign_eq, zero_eq, parity_eq]
  have : i = 0 ∨ i = 1 ∨ i = 2 ∨ i = 3 ∨ i = 4 ∨ i = 5 ∨ i = 6 ∨ i = 7 := by omega
  rcases this with rfl | rfl | rfl | rfl | rfl | rfl | rfl | rfl <;> rfl

theorem setCY_bit (v : Bool) (f : Byte) (i : Nat) (hi : i < 8) :
    (setCY v f).getLsbD i = if i = 0 then v else f.getLsbD i := by
  simp only [setCY, flagPut_bit _ _ _ i (by decide : 0 < 8) hi, eq_comm]

theorem setAC_bit (v : Bool) (f : Byte) (i : Nat) (hi : i < 8) :
    (setAC v f).getLsbD i = if i = 4 then v else f.getLsbD i := by
  simp only [setAC, flagPut_bit _ _ _ i (by decide : 4 < 8) hi, eq_comm]

theorem setCY_gives (v : Bool) (f : Byte) : FlagWrite.gives { cy := some v } f (setCY v f) := by
  refine gives_of_bits fun i hi => ?_
  rw [setCY_bit v f i hi]
  have : i = 0 ∨ i = 1 ∨ i = 2 ∨ i = 3 ∨ i = 4 ∨ i = 5 ∨ i = 6 ∨ i = 7 := by omega
  rcases this with rfl | rfl | rfl | rfl | rfl | rfl | rfl | rfl <;> rfl

/-- The flags of an adder (R600, R606, R716). -/
theorem sumFlags_gives (x : Sum) (f : Byte) :
    (resultFlags x.r (some x.ac) (some x.cy)).gives f (sumFlags x f) := by
  refine gives_of_bits fun i hi => ?_
  rw [sumFlags, setAC_bit _ _ i hi, setCY_bit _ _ i hi, setZSP_bit _ _ i hi]
  have : i = 0 ∨ i = 1 ∨ i = 2 ∨ i = 3 ∨ i = 4 ∨ i = 5 ∨ i = 6 ∨ i = 7 := by omega
  rcases this with rfl | rfl | rfl | rfl | rfl | rfl | rfl | rfl <;> rfl

/-- The flags of a logical operation (R715). -/
theorem logicFlags_gives (r : Byte) (ac : Bool) (f : Byte) :
    (resultFlags r (some ac) (some false)).gives f (logicFlags r ac f) := by
  refine gives_of_bits fun i hi => ?_
  rw [logicFlags, setAC_bit _ _ i hi, setCY_bit _ _ i hi, setZSP_bit _ _ i hi]
  have : i = 0 ∨ i = 1 ∨ i = 2 ∨ i = 3 ∨ i = 4 ∨ i = 5 ∨ i = 6 ∨ i = 7 := by omega
  rcases this with rfl | rfl | rfl | rfl | rfl | rfl | rfl | rfl <;> rfl

/-- The flags of INR and DCR (R612). -/
theorem stepFlags_gives (r : Byte) (ac : Bool) (f : Byte) :
    (resultFlags r (some ac) none).gives f (stepFlags r ac f) := by
  refine gives_of_bits fun i hi => ?_
  rw [stepFlags, setAC_bit _ _ i hi, setZSP_bit _ _ i hi]
  have : i = 0 ∨ i = 1 ∨ i = 2 ∨ i = 3 ∨ i = 4 ∨ i = 5 ∨ i = 6 ∨ i = 7 := by omega
  rcases this with rfl | rfl | rfl | rfl | rfl | rfl | rfl | rfl <;> rfl

/-- `Add8` (R407). -/
theorem add8_eq (a b : Byte) (cin : Bool) :
    add8 a b cin =
      { r := BitVec.ofNat 8 (a.toNat + b.toNat + cin.toNat)
        cy := decide (255 < a.toNat + b.toNat + cin.toNat)
        ac := decide (15 < a.toNat % 16 + b.toNat % 16 + cin.toNat) } := by
  simp only [add8, and_0x0F_toNat]

/-- `Sub8` on the complement of a borrow (R408, R410). -/
theorem sub8_eq (k : SubCarry) (a b : Byte) (bin : Bool) :
    sub8 k a b (!bin) =
      { r := subByte a b bin.toNat
        cy := match k with
          | .noBorrow => decide (b.toNat + bin.toNat ≤ a.toNat)
          | .borrow => decide (a.toNat < b.toNat + bin.toNat)
        ac := decide (b.toNat % 16 + bin.toNat ≤ a.toNat % 16) } := by
  have hb := b.isLt
  have hn : (!bin).toNat = 1 - bin.toNat := by cases bin <;> rfl
  have hl : bin.toNat ≤ 1 := by cases bin <;> decide
  have ec : decide (a.toNat + (255 - b.toNat) + (1 - bin.toNat) > 0xFF) = decide (b.toNat + bin.toNat ≤ a.toNat) :=
    decide_eq_decide.2 (by omega)
  have ea : decide (a.toNat % 16 + (255 - b.toNat) % 16 + (1 - bin.toNat) > 0x0F) =
      decide (b.toNat % 16 + bin.toNat ≤ a.toNat % 16) := decide_eq_decide.2 (by omega)
  have er : BitVec.ofNat 8 (a.toNat + (255 - b.toNat) + (1 - bin.toNat)) = subByte a b bin.toNat := by
    apply BitVec.eq_of_toNat_eq
    simp only [subByte, BitVec.toNat_ofNat]
    omega
  simp only [sub8, xor_0xFF_toNat, and_0x0F_toNat, hn, ec, ea, er]
  cases k
  · rfl
  · have : (!decide (b.toNat + bin.toNat ≤ a.toNat)) = decide (a.toNat < b.toNat + bin.toNat) := by
      rw [← decide_not]; exact decide_eq_decide.2 (by omega)
    simp only [this]

/-- The flags of the add family (R600 to R605). -/
theorem addFlags_gives (a b : Byte) (cin : Bool) (f : Byte) :
    (addFlags a b cin.toNat).gives f (sumFlags (add8 a b cin) f) := by
  have h := sumFlags_gives (add8 a b cin) f
  rw [add8_eq] at h ⊢
  exact h

/-- The flags of the subtract and compare family (R606 to R611, R716). -/
theorem subFlags_gives (k : SubCarry) (a b : Byte) (bin : Bool) (f : Byte) :
    (subFlags k a b bin.toNat).gives f (sumFlags (sub8 k a b (!bin)) f) := by
  have h := sumFlags_gives (sub8 k a b (!bin)) f
  rw [sub8_eq] at h ⊢
  exact h

end Sys2Proof.Machine
end

