-- ==== Sys2Proof/Laws/PerInstr.lean ====
section
/-!
SUPPORT. Statements about every instruction as syntax, one lemma per constructor.
-/
namespace Sys2Proof.Laws

/-- The encoding of a well-formed instruction has the length that its opcode byte gives (R300). -/
def EncodingLength.Statement (i : Instr) : Prop :=
  i.wellFormed = true → ∃ op rest, encode i = op :: rest ∧ (encode i).length = instrLength op

end Sys2Proof.Laws

namespace Sys2Proof.Laws.EncodingLength

theorem mov (dst src : Operand) : Statement (.mov dst src) :=
  fun _ => ⟨_, _, rfl, by rcases dst with (_ | _ | _ | _ | _ | _ | _) | _ <;> rcases src with (_ | _ | _ | _ | _ | _ | _) | _ <;> rfl⟩
theorem mvi (dst : Operand) (d8 : Byte) : Statement (.mvi dst d8) :=
  fun _ => ⟨_, _, rfl, by rcases dst with (_ | _ | _ | _ | _ | _ | _) | _ <;> rfl⟩
theorem lxi (rp : Pair) (d16 : Addr) : Statement (.lxi rp d16) := fun _ => ⟨_, _, rfl, by cases rp <;> rfl⟩
theorem lda (a16 : Addr) : Statement (.lda a16) := fun _ => ⟨_, _, rfl, rfl⟩
theorem sta (a16 : Addr) : Statement (.sta a16) := fun _ => ⟨_, _, rfl, rfl⟩
theorem lhld (a16 : Addr) : Statement (.lhld a16) := fun _ => ⟨_, _, rfl, rfl⟩
theorem shld (a16 : Addr) : Statement (.shld a16) := fun _ => ⟨_, _, rfl, rfl⟩
theorem ldax (rp : IndexPair) : Statement (.ldax rp) := fun _ => ⟨_, _, rfl, by cases rp <;> rfl⟩
theorem stax (rp : IndexPair) : Statement (.stax rp) := fun _ => ⟨_, _, rfl, by cases rp <;> rfl⟩
theorem xchg : Statement (.xchg) := fun _ => ⟨_, _, rfl, rfl⟩
theorem add (src : Operand) : Statement (.add src) :=
  fun _ => ⟨_, _, rfl, by rcases src with (_ | _ | _ | _ | _ | _ | _) | _ <;> rfl⟩
theorem adc (src : Operand) : Statement (.adc src) :=
  fun _ => ⟨_, _, rfl, by rcases src with (_ | _ | _ | _ | _ | _ | _) | _ <;> rfl⟩
theorem adi (d8 : Byte) : Statement (.adi d8) := fun _ => ⟨_, _, rfl, rfl⟩
theorem aci (d8 : Byte) : Statement (.aci d8) := fun _ => ⟨_, _, rfl, rfl⟩
theorem sub (src : Operand) : Statement (.sub src) :=
  fun _ => ⟨_, _, rfl, by rcases src with (_ | _ | _ | _ | _ | _ | _) | _ <;> rfl⟩
theorem sbb (src : Operand) : Statement (.sbb src) :=
  fun _ => ⟨_, _, rfl, by rcases src with (_ | _ | _ | _ | _ | _ | _) | _ <;> rfl⟩
theorem sui (d8 : Byte) : Statement (.sui d8) := fun _ => ⟨_, _, rfl, rfl⟩
theorem sbi (d8 : Byte) : Statement (.sbi d8) := fun _ => ⟨_, _, rfl, rfl⟩
theorem inr (dst : Operand) : Statement (.inr dst) :=
  fun _ => ⟨_, _, rfl, by rcases dst with (_ | _ | _ | _ | _ | _ | _) | _ <;> rfl⟩
theorem dcr (dst : Operand) : Statement (.dcr dst) :=
  fun _ => ⟨_, _, rfl, by rcases dst with (_ | _ | _ | _ | _ | _ | _) | _ <;> rfl⟩
theorem inx (rp : Pair) : Statement (.inx rp) := fun _ => ⟨_, _, rfl, by cases rp <;> rfl⟩
theorem dcx (rp : Pair) : Statement (.dcx rp) := fun _ => ⟨_, _, rfl, by cases rp <;> rfl⟩
theorem dad (rp : Pair) : Statement (.dad rp) := fun _ => ⟨_, _, rfl, by cases rp <;> rfl⟩
theorem daa : Statement (.daa) := fun _ => ⟨_, _, rfl, rfl⟩
theorem ana (src : Operand) : Statement (.ana src) :=
  fun _ => ⟨_, _, rfl, by rcases src with (_ | _ | _ | _ | _ | _ | _) | _ <;> rfl⟩
theorem xra (src : Operand) : Statement (.xra src) :=
  fun _ => ⟨_, _, rfl, by rcases src with (_ | _ | _ | _ | _ | _ | _) | _ <;> rfl⟩
theorem ora (src : Operand) : Statement (.ora src) :=
  fun _ => ⟨_, _, rfl, by rcases src with (_ | _ | _ | _ | _ | _ | _) | _ <;> rfl⟩
theorem cmp (src : Operand) : Statement (.cmp src) :=
  fun _ => ⟨_, _, rfl, by rcases src with (_ | _ | _ | _ | _ | _ | _) | _ <;> rfl⟩
theorem ani (d8 : Byte) : Statement (.ani d8) := fun _ => ⟨_, _, rfl, rfl⟩
theorem xri (d8 : Byte) : Statement (.xri d8) := fun _ => ⟨_, _, rfl, rfl⟩
theorem ori (d8 : Byte) : Statement (.ori d8) := fun _ => ⟨_, _, rfl, rfl⟩
theorem cpi (d8 : Byte) : Statement (.cpi d8) := fun _ => ⟨_, _, rfl, rfl⟩
theorem cma : Statement (.cma) := fun _ => ⟨_, _, rfl, rfl⟩
theorem cmc : Statement (.cmc) := fun _ => ⟨_, _, rfl, rfl⟩
theorem stc : Statement (.stc) := fun _ => ⟨_, _, rfl, rfl⟩
theorem rlc : Statement (.rlc) := fun _ => ⟨_, _, rfl, rfl⟩
theorem rrc : Statement (.rrc) := fun _ => ⟨_, _, rfl, rfl⟩
theorem ral : Statement (.ral) := fun _ => ⟨_, _, rfl, rfl⟩
theorem rar : Statement (.rar) := fun _ => ⟨_, _, rfl, rfl⟩
theorem push (rp : StackPair) : Statement (.push rp) := fun _ => ⟨_, _, rfl, by cases rp <;> rfl⟩
theorem pop (rp : StackPair) : Statement (.pop rp) := fun _ => ⟨_, _, rfl, by cases rp <;> rfl⟩
theorem xthl : Statement (.xthl) := fun _ => ⟨_, _, rfl, rfl⟩
theorem sphl : Statement (.sphl) := fun _ => ⟨_, _, rfl, rfl⟩
theorem jmp (a16 : Addr) : Statement (.jmp a16) := fun _ => ⟨_, _, rfl, rfl⟩
theorem jnz (a16 : Addr) : Statement (.jnz a16) := fun _ => ⟨_, _, rfl, rfl⟩
theorem jz (a16 : Addr) : Statement (.jz a16) := fun _ => ⟨_, _, rfl, rfl⟩
theorem jnc (a16 : Addr) : Statement (.jnc a16) := fun _ => ⟨_, _, rfl, rfl⟩
theorem jc (a16 : Addr) : Statement (.jc a16) := fun _ => ⟨_, _, rfl, rfl⟩
theorem jpo (a16 : Addr) : Statement (.jpo a16) := fun _ => ⟨_, _, rfl, rfl⟩
theorem jpe (a16 : Addr) : Statement (.jpe a16) := fun _ => ⟨_, _, rfl, rfl⟩
theorem jp (a16 : Addr) : Statement (.jp a16) := fun _ => ⟨_, _, rfl, rfl⟩
theorem jm (a16 : Addr) : Statement (.jm a16) := fun _ => ⟨_, _, rfl, rfl⟩
theorem call (a16 : Addr) : Statement (.call a16) := fun _ => ⟨_, _, rfl, rfl⟩
theorem cnz (a16 : Addr) : Statement (.cnz a16) := fun _ => ⟨_, _, rfl, rfl⟩
theorem cz (a16 : Addr) : Statement (.cz a16) := fun _ => ⟨_, _, rfl, rfl⟩
theorem cnc (a16 : Addr) : Statement (.cnc a16) := fun _ => ⟨_, _, rfl, rfl⟩
theorem cc (a16 : Addr) : Statement (.cc a16) := fun _ => ⟨_, _, rfl, rfl⟩
theorem cpo (a16 : Addr) : Statement (.cpo a16) := fun _ => ⟨_, _, rfl, rfl⟩
theorem cpe (a16 : Addr) : Statement (.cpe a16) := fun _ => ⟨_, _, rfl, rfl⟩
theorem cp (a16 : Addr) : Statement (.cp a16) := fun _ => ⟨_, _, rfl, rfl⟩
theorem cm (a16 : Addr) : Statement (.cm a16) := fun _ => ⟨_, _, rfl, rfl⟩
theorem ret : Statement (.ret) := fun _ => ⟨_, _, rfl, rfl⟩
theorem rnz : Statement (.rnz) := fun _ => ⟨_, _, rfl, rfl⟩
theorem rz : Statement (.rz) := fun _ => ⟨_, _, rfl, rfl⟩
theorem rnc : Statement (.rnc) := fun _ => ⟨_, _, rfl, rfl⟩
theorem rc : Statement (.rc) := fun _ => ⟨_, _, rfl, rfl⟩
theorem rpo : Statement (.rpo) := fun _ => ⟨_, _, rfl, rfl⟩
theorem rpe : Statement (.rpe) := fun _ => ⟨_, _, rfl, rfl⟩
theorem rp : Statement (.rp) := fun _ => ⟨_, _, rfl, rfl⟩
theorem rm : Statement (.rm) := fun _ => ⟨_, _, rfl, rfl⟩
theorem rst (n : BitVec 3) : Statement (.rst n) := fun _ => ⟨_, _, rfl, by revert n; decide⟩
theorem pchl : Statement (.pchl) := fun _ => ⟨_, _, rfl, rfl⟩
theorem inp (p8 : Byte) : Statement (.inp p8) := fun _ => ⟨_, _, rfl, rfl⟩
theorem outp (p8 : Byte) : Statement (.outp p8) := fun _ => ⟨_, _, rfl, rfl⟩
theorem ei : Statement (.ei) := fun _ => ⟨_, _, rfl, rfl⟩
theorem di : Statement (.di) := fun _ => ⟨_, _, rfl, rfl⟩
theorem hlt : Statement (.hlt) := fun _ => ⟨_, _, rfl, rfl⟩
theorem nop : Statement (.nop) := fun _ => ⟨_, _, rfl, rfl⟩
theorem undoc (op : Byte) : Statement (.undoc op) := by
  intro h
  exact ⟨op, [], rfl, by revert op; decide⟩

end Sys2Proof.Laws.EncodingLength
end

