-- ==== Sys2Proof/Laws/Run.lean ====
section
/-!
SUPPORT. What the host's `run` of the core does with no step, and with a first step that goes on or faults.
-/
namespace Sys2Proof.Machine

theorem hostRun_zero (M : Host.Core) (s : M.State) : M.run 0 s = .next s := rfl

theorem hostRun_succ (M : Host.Core) (k : Nat) (s : M.State) : M.run (k + 1) s =
    match M.step s with
    | .next t => M.run k t
    | .fault r => .fault r
    | .refused r => .refused r := rfl

theorem run_zero (s : State) : Host.Core.run Sys2Proof.core 0 s = .next s := hostRun_zero Sys2Proof.core s

theorem run_next {s t : State} (h : step s = .next t) (k : Nat) :
    Host.Core.run Sys2Proof.core (k + 1) s = Host.Core.run Sys2Proof.core k t := by
  have e := hostRun_succ Sys2Proof.core k s
  have h' : Sys2Proof.core.step s = .next t := h
  rw [h'] at e
  exact e

theorem run_fault {s : State} {r : Fault} (h : step s = .fault r) (k : Nat) :
    Host.Core.run Sys2Proof.core (k + 1) s = .fault r := by
  have e := hostRun_succ Sys2Proof.core k s
  have h' : Sys2Proof.core.step s = .fault r := h
  rw [h'] at e
  exact e

end Sys2Proof.Machine
end

