-- ==== Sys2Proof/Tests/Slice0.lean ====
section
/-!
SUPPORT. Tests. Expected results are those of the spec: the vectors of 95_test_vectors.md by their names (`V-…`), and
the Example lines of the rules. After them, for each statement of Certificates/Slice0/Obligations.lean that has
hypotheses, a concrete state that meets them.
-/
namespace Sys2Proof.Tests
open Sys2Proof Sys2Proof.Machine

/-! ## Helpers -/

/-- The start state of 95_test_vectors.md Part 2: registers zero, `sp` F000, zero memory, 8 lines. -/
def base : State :=
  { State.reset with
    sp := 0xF000
    cfg := { Config.standard with nLines := 8 }
    mem := { lines := List.replicate 8 Line.empty, image := [], calls := [] } }

/-- `base` with `MAX_ADDR = 7FFF`. -/
def ceiled : State := { base with cfg := { base.cfg with maxAddr := 0x7FFF } }

/-- Bytes from an address on, inside one storage block that is zero elsewhere, with the block's checksum; bank 0. -/
def cellsAt (a : Nat) (bytes : List Byte) : List Host.Cell :=
  ((bytes.mapIdx fun j v => (cellKey (a / lineSize) (a % lineSize + j), v)) ++
    [(cellKey (a / lineSize) lineSize, bytes.foldl (fun x y => x ^^^ y) 0)]).filter fun x => x.2 != 0

/-- Memory that holds these bytes, each list in a block of its own, the blocks in rising order; else zero. -/
def place (s : State) (blocks : List (Nat × List Byte)) : State :=
  { s with mem := { s.mem with image := (blocks.map fun x => cellsAt x.1 x.2).flatten } }

/-- Code bytes from address 0 on, where `pc` is. -/
def code (s : State) (bytes : List Byte) : State := place s [(0, bytes)]

/-- What a projection gives on the state after one step; `none` where there is none. -/
def after {α : Type} (s : State) (f : State → α) : Option α :=
  match step s with
  | .next t => some (f t)
  | _ => none

/-- The reason of a fault, and what a projection gives on the state it leaves; `none` where there is no fault. -/
def faulted {α : Type} (o : Host.Outcome State Fault Refusal) (f : State → α) : Option (FaultReason × α) :=
  match o with
  | .fault (.memoryIntegrity t) => some (.memoryIntegrity, f t)
  | .fault (.illegalOpcode t) => some (.illegalOpcode, f t)
  | .next _ => none
  | .refused _ => none

/-- The instruction a list of bytes decodes to, and the bytes after it. -/
def decoded (bytes : List Byte) : Option (Instr × List Byte) :=
  match decode bytes with
  | .ok x => some x
  | .error _ => none

/-- A launch parameter changed. -/
def withCfg (s : State) (k : Config) : State := { s with cfg := k }

/-! ## WellFormed: each check refuses an ill-formed term -/

/-- R313: `MOV M,M` is no instruction. -/
theorem test_mov_m_m_is_no_instruction : Instr.wellFormed (.mov .m .m) = false := by decide

/-- R330: 0x00 is no undocumented opcode. -/
theorem test_undoc_nop_is_no_instruction : Instr.wellFormed (.undoc 0x00) = false := by decide

/-- R330: there are 12 undocumented opcodes, and each is one. -/
theorem test_undoc_count : undocOpcodes.length = 12 ∧ (undocOpcodes.all fun v => Instr.wellFormed (.undoc v)) = true := by
  decide

/-! ## Decoding: one word for each family, from the Encoding lines of the rules -/

/-- R500, `01dddsss`. -/
theorem test_decode_mov : decoded [0b01010110] = some (.mov (.reg .d) .m, []) := by decide
/-- R504, `00110110 d8`. -/
theorem test_decode_mvi_m : decoded [0b00110110, 0x7E] = some (.mvi .m 0x7E, []) := by decide
/-- R505, `00pp0001 lo hi`: the low byte first. -/
theorem test_decode_lxi : decoded [0b00110001, 0x34, 0x12] = some (.lxi .sp 0x1234, []) := by decide
/-- R506, R507, R508, R509. -/
theorem test_decode_direct :
    decoded [0x3A, 0x00, 0x20] = some (.lda 0x2000, []) ∧ decoded [0x32, 0x00, 0x20] = some (.sta 0x2000, []) ∧
    decoded [0x2A, 0x00, 0x20] = some (.lhld 0x2000, []) ∧ decoded [0x22, 0x00, 0x20] = some (.shld 0x2000, []) := by
  decide
/-- R510, R511. -/
theorem test_decode_indirect : decoded [0x1A] = some (.ldax .de, []) ∧ decoded [0x02] = some (.stax .bc, []) := by decide
/-- R603, `10001110`. -/
theorem test_decode_adc_m : decoded [0b10001110] = some (.adc .m, []) := by decide
/-- R608, `10011sss`. -/
theorem test_decode_sbb : decoded [0b10011000] = some (.sbb (.reg .b), []) := by decide
/-- R612, `00ddd100`; R614, `00ddd101`. -/
theorem test_decode_inr_dcr :
    decoded [0b00111100] = some (.inr (.reg .a), []) ∧ decoded [0b00001101] = some (.dcr (.reg .c), []) := by decide
/-- R616 to R618, `00pp0011`, `00pp1011`, `00pp1001`. -/
theorem test_decode_pairs :
    decoded [0b00100011] = some (.inx .hl, []) ∧ decoded [0b00001011] = some (.dcx .bc, []) ∧
    decoded [0b00111001] = some (.dad .sp, []) := by decide
/-- R708 to R711, `11aaa110 d8`. -/
theorem test_decode_logic_immediate :
    decoded [0xE6, 1] = some (.ani 1, []) ∧ decoded [0xEE, 2] = some (.xri 2, []) ∧
    decoded [0xF6, 3] = some (.ori 3, []) ∧ decoded [0xFE, 4] = some (.cpi 4, []) := by decide
/-- R712 to R714, R619. -/
theorem test_decode_accumulator :
    decoded [0x2F] = some (.cma, []) ∧ decoded [0x3F] = some (.cmc, []) ∧ decoded [0x37] = some (.stc, []) ∧
    decoded [0x27] = some (.daa, []) := by decide
/-- R800 to R803. -/
theorem test_decode_rotates :
    decoded [0x07] = some (.rlc, []) ∧ decoded [0x0F] = some (.rrc, []) ∧ decoded [0x17] = some (.ral, []) ∧
    decoded [0x1F] = some (.rar, []) := by decide
/-- R850 to R855. -/
theorem test_decode_stack :
    decoded [0xF5] = some (.push .psw, []) ∧ decoded [0xE1] = some (.pop .hl, []) ∧ decoded [0xE3] = some (.xthl, []) ∧
    decoded [0xF9] = some (.sphl, []) := by decide
/-- R905, R913, R928: the condition field `ccc`. -/
theorem test_decode_conditions :
    decoded [0b11100010, 0x00, 0x01] = some (.jpo 0x0100, []) ∧ decoded [0b11010100, 0x34, 0x12] = some (.cnc 0x1234, []) ∧
    decoded [0b11111000] = some (.rm, []) := by decide
/-- R930, `11nnn111`; R931. -/
theorem test_decode_rst : decoded [0b11101111] = some (.rst 5, []) ∧ decoded [0xE9] = some (.pchl, []) := by decide
/-- R1000 to R1005. -/
theorem test_decode_system :
    decoded [0xDB, 0x01] = some (.inp 1, []) ∧ decoded [0xD3, 0x02] = some (.outp 2, []) ∧ decoded [0xFB] = some (.ei, []) ∧
    decoded [0xF3] = some (.di, []) ∧ decoded [0x76] = some (.hlt, []) ∧ decoded [0x00] = some (.nop, []) := by decide
/-- R300: an opcode whose operand bytes are not all there is no instruction. -/
theorem test_decode_truncated : decoded [0xC3, 0x00] = none ∧ decoded [0x3E] = none ∧ decoded [] = none := by decide
/-- R302: the bits of a table word are numbered from the first byte's least significant bit. -/
theorem test_decode_table_word :
    decodeTableWord 24 0x123421 = some (.lxi .hl 0x1234) ∧ decodeTableWord 8 0x123421 = some (.lxi .hl 0) := by decide

/-! ## One step: the vectors of 95_test_vectors.md Part 2 -/

/-- V-MOV-2, `MOV M,A`. -/
theorem test_mov_2 :
    after { code base [0x77] with a := 0x99, h := 0x20, l := 0x00 }
      (fun t => (t.pc, t.guestByte 0x2000)) = some (0x0001, 0x99) := by decide
/-- V-MOV-3, `MOV A,M`. -/
theorem test_mov_3 :
    after { place base [(0, [0x7E]), (0x2001, [0xC3])] with h := 0x20, l := 0x01 }
      (fun t => (t.a, t.pc)) = some (0xC3, 0x0001) := by decide
/-- V-MVI-1, `MVI M,0x7E`. -/
theorem test_mvi_1 :
    after { code base [0x36, 0x7E] with h := 0x30, l := 0x00 }
      (fun t => (t.pc, t.guestByte 0x3000)) = some (0x0002, 0x7E) := by decide
/-- V-LXI-1, `LXI SP,0x1234`. -/
theorem test_lxi_1 :
    after (code base [0x31, 0x34, 0x12]) (fun t => (t.sp, t.pc)) = some (0x1234, 0x0003) := by decide
/-- V-LXI-2, `LXI B,0xBEEF`. -/
theorem test_lxi_2 :
    after (code base [0x01, 0xEF, 0xBE]) (fun t => (t.b, t.c, t.pc)) = some (0xBE, 0xEF, 0x0003) := by decide
/-- V-LDA-1, `LDA 0x2000`. -/
theorem test_lda_1 :
    after (place base [(0, [0x3A, 0x00, 0x20]), (0x2000, [0x42])])
      (fun t => (t.a, t.pc)) = some (0x42, 0x0003) := by decide
/-- V-CEIL-1, `LDA 0x9000 (MAX_ADDR = 0x7FFF)`. -/
theorem test_ceil_1 :
    after (code ceiled [0x3A, 0x00, 0x90]) (fun t => (t.a, t.pc)) = some (0xFF, 0x0003) := by decide
/-- V-STA-1, `STA 0x2000`. -/
theorem test_sta_1 :
    after { code base [0x32, 0x00, 0x20] with a := 0x42 }
      (fun t => (t.pc, t.guestByte 0x2000)) = some (0x0003, 0x42) := by decide
/-- V-LHLD-2, `LHLD 0xFFFF`. -/
theorem test_lhld_2 :
    after (place base [(0, [0x2A, 0xFF, 0xFF]), (0xFFFF, [0x77])])
      (fun t => (t.h, t.l, t.pc)) = some (0x2A, 0x77, 0x0003) := by decide
/-- V-SHLD-1, `SHLD 0x2000`. -/
theorem test_shld_1 :
    after { code base [0x22, 0x00, 0x20] with h := 0x12, l := 0x34 }
      (fun t => (t.pc, t.guestByte 0x2000, t.guestByte 0x2001)) = some (0x0003, 0x34, 0x12) := by decide
/-- V-LDAX-1, `LDAX D`. -/
theorem test_ldax_1 :
    after { place base [(0, [0x1A]), (0x2005, [0x66])] with d := 0x20, e := 0x05 }
      (fun t => (t.a, t.pc)) = some (0x66, 0x0001) := by decide
/-- V-STAX-1, `STAX B`. -/
theorem test_stax_1 :
    after { code base [0x02] with a := 0x55, b := 0x20, c := 0x06 }
      (fun t => (t.pc, t.guestByte 0x2006)) = some (0x0001, 0x55) := by decide
/-- V-XCHG-1, `XCHG`. -/
theorem test_xchg_1 :
    after { code base [0xEB] with d := 0x11, e := 0x22, h := 0x33, l := 0x44 }
      (fun t => (t.de, t.hl, t.pc)) = some (0x3344, 0x1122, 0x0001) := by decide
/-- V-ADD-2, `ADD B`. -/
theorem test_add_2 :
    after { code base [0x80] with a := 0xFF, b := 0x01 }
      (fun t => (t.a, t.f, t.pc)) = some (0x00, 0x55, 0x0001) := by decide
/-- V-ADD-4, `ADD M`. -/
theorem test_add_4 :
    after { place base [(0, [0x86]), (0x2000, [0x7F])] with a := 0x01, h := 0x20, l := 0x00 }
      (fun t => (t.a, t.f, t.pc)) = some (0x80, 0x90, 0x0001) := by decide
/-- V-ADC-1, `ADC C`. -/
theorem test_adc_1 :
    after { code base [0x89] with a := 0x0E, c := 0x01, f := 0x01 }
      (fun t => (t.a, t.f, t.pc)) = some (0x10, 0x10, 0x0001) := by decide
/-- V-ADC-3, `ADC M`. -/
theorem test_adc_3 :
    after { place base [(0, [0x8E]), (0x2000, [0x80])] with a := 0x80, h := 0x20, l := 0x00, f := 0x01 }
      (fun t => (t.a, t.f, t.pc)) = some (0x01, 0x01, 0x0001) := by decide
/-- V-ADI-1, `ADI 0x01`. -/
theorem test_adi_1 :
    after { code base [0xC6, 0x01] with a := 0x0F }
      (fun t => (t.a, t.f, t.pc)) = some (0x10, 0x10, 0x0002) := by decide
/-- V-ACI-1, `ACI 0x0F`. -/
theorem test_aci_1 :
    after { code base [0xCE, 0x0F] with a := 0xF0, f := 0x01 }
      (fun t => (t.a, t.f, t.pc)) = some (0x00, 0x55, 0x0002) := by decide
/-- V-SUB-4, `SUB M`. -/
theorem test_sub_4 :
    after { place base [(0, [0x96]), (0x2000, [0x01])] with a := 0x10, h := 0x20, l := 0x00 }
      (fun t => (t.a, t.f, t.pc)) = some (0x0F, 0x05, 0x0001) := by decide
/-- V-SBB-1, `SBB B`. -/
theorem test_sbb_1 :
    after { code base [0x98] with a := 0x05, b := 0x03, f := 0x01 }
      (fun t => (t.a, t.f, t.pc)) = some (0x01, 0x11, 0x0001) := by decide
/-- V-SBB-3, `SBB M`. -/
theorem test_sbb_3 :
    after { place base [(0, [0x9E]), (0x2000, [0x00])] with a := 0x00, h := 0x20, l := 0x00, f := 0x01 }
      (fun t => (t.a, t.f, t.pc)) = some (0xFF, 0x84, 0x0001) := by decide
/-- V-SUI-1, `SUI 0x05`. -/
theorem test_sui_1 :
    after { code base [0xD6, 0x05] with a := 0x03 }
      (fun t => (t.a, t.f, t.pc)) = some (0xFE, 0x80, 0x0002) := by decide
/-- V-SBI-1, `SBI 0x01`. -/
theorem test_sbi_1 :
    after { code base [0xDE, 0x01] with a := 0x10, f := 0x00 }
      (fun t => (t.a, t.f, t.pc)) = some (0x0F, 0x05, 0x0002) := by decide
/-- V-INR-4, `INR M`. -/
theorem test_inr_4 :
    after { place base [(0, [0x34]), (0x2000, [0x41])] with h := 0x20, l := 0x00 }
      (fun t => (t.f, t.pc, t.guestByte 0x2000)) = some (0x04, 0x0001, 0x42) := by decide
/-- V-DCR-1, `DCR C`. -/
theorem test_dcr_1 :
    after { code base [0x0D] with c := 0x11 } (fun t => (t.c, t.f, t.pc)) = some (0x10, 0x10, 0x0001) := by decide
/-- V-INX-1, `INX H`. -/
theorem test_inx_1 :
    after { code base [0x23] with h := 0xFF, l := 0xFF, f := 0x00 }
      (fun t => (t.hl, t.f, t.pc)) = some (0x0000, 0x00, 0x0001) := by decide
/-- V-DCX-1, `DCX B`. -/
theorem test_dcx_1 :
    after { code base [0x0B] with b := 0x00, c := 0x00 }
      (fun t => (t.bc, t.f, t.pc)) = some (0xFFFF, 0x00, 0x0001) := by decide
/-- V-DAD-2, `DAD H`. -/
theorem test_dad_2 :
    after { code base [0x29] with h := 0x80, l := 0x00, f := 0xD4 }
      (fun t => (t.hl, t.f, t.pc)) = some (0x0000, 0xD5, 0x0001) := by decide
/-- V-DAA-1, `DAA`. -/
theorem test_daa_1 :
    after { code base [0x27] with a := 0x9A } (fun t => (t.a, t.f, t.pc)) = some (0x00, 0x55, 0x0001) := by decide
/-- V-ANA-1, `ANA B`. -/
theorem test_ana_1 :
    after { code base [0xA0] with a := 0x08, b := 0x00 }
      (fun t => (t.a, t.f, t.pc)) = some (0x00, 0x54, 0x0001) := by decide
/-- V-ANI-1, `ANI 0x0F`. -/
theorem test_ani_1 :
    after { code base [0xE6, 0x0F] with a := 0x3C }
      (fun t => (t.a, t.f, t.pc)) = some (0x0C, 0x14, 0x0002) := by decide
/-- V-XRA-1, `XRA A`. -/
theorem test_xra_1 :
    after { code base [0xAF] with a := 0x5A, f := 0x11 }
      (fun t => (t.a, t.f, t.pc)) = some (0x00, 0x44, 0x0001) := by decide
/-- V-XRI-1, `XRI 0x81`. -/
theorem test_xri_1 :
    after { code base [0xEE, 0x81] with a := 0x01 }
      (fun t => (t.a, t.f, t.pc)) = some (0x80, 0x80, 0x0002) := by decide
/-- V-ORA-2, `ORA M`. -/
theorem test_ora_2 :
    after { place base [(0, [0xB6]), (0x2000, [0x81])] with a := 0x40, h := 0x20, l := 0x00 }
      (fun t => (t.a, t.f, t.pc)) = some (0xC1, 0x80, 0x0001) := by decide
/-- V-ORI-1, `ORI 0x80`. -/
theorem test_ori_1 :
    after { code base [0xF6, 0x80] with a := 0x01 }
      (fun t => (t.a, t.f, t.pc)) = some (0x81, 0x84, 0x0002) := by decide
/-- V-CMP-3, `CMP M`. -/
theorem test_cmp_3 :
    after { place base [(0, [0xBE]), (0x2000, [0x01])] with a := 0x80, h := 0x20, l := 0x00 }
      (fun t => (t.a, t.f, t.pc)) = some (0x80, 0x01, 0x0001) := by decide
/-- V-CPI-1, `CPI 0x03`. -/
theorem test_cpi_1 :
    after { code base [0xFE, 0x03] with a := 0x05 }
      (fun t => (t.a, t.f, t.pc)) = some (0x05, 0x11, 0x0002) := by decide
/-- V-CMA-1, `CMA`. -/
theorem test_cma_1 :
    after { code base [0x2F] with a := 0x51, f := 0xD7 }
      (fun t => (t.a, t.f, t.pc)) = some (0xAE, 0xD7, 0x0001) := by decide
/-- V-CMC-2, `CMC`. -/
theorem test_cmc_2 :
    after { code base [0x3F] with f := 0x10 } (fun t => (t.f, t.pc)) = some (0x11, 0x0001) := by decide
/-- V-STC-1, `STC`. -/
theorem test_stc_1 :
    after { code base [0x37] with f := 0x00 } (fun t => (t.f, t.pc)) = some (0x01, 0x0001) := by decide
/-- V-RLC-2, `RLC`. -/
theorem test_rlc_2 :
    after { code base [0x07] with a := 0x01, f := 0xC5 }
      (fun t => (t.a, t.f, t.pc)) = some (0x02, 0xC4, 0x0001) := by decide
/-- V-RRC-1, `RRC`. -/
theorem test_rrc_1 :
    after { code base [0x0F] with a := 0x01 } (fun t => (t.a, t.f, t.pc)) = some (0x80, 0x01, 0x0001) := by decide
/-- V-RAL-1, `RAL`. -/
theorem test_ral_1 :
    after { code base [0x17] with a := 0x80, f := 0x00 }
      (fun t => (t.a, t.f, t.pc)) = some (0x00, 0x01, 0x0001) := by decide
/-- V-RAR-1, `RAR`. -/
theorem test_rar_1 :
    after { code base [0x1F] with a := 0x01, f := 0x01 }
      (fun t => (t.a, t.f, t.pc)) = some (0x80, 0x01, 0x0001) := by decide
/-- V-PUSH-2, `PUSH PSW`. -/
theorem test_push_2 :
    after { code base [0xF5] with a := 0xAA, f := 0xFF }
      (fun t => (t.sp, t.pc, t.guestByte 0xEFFE, t.guestByte 0xEFFF)) = some (0xEFFE, 0x0001, 0xFF, 0xAA) := by decide
/-- V-PUSH-3, `PUSH H`. -/
theorem test_push_3 :
    after { code base [0xE5] with h := 0xAB, l := 0xCD, sp := 0x0001 }
      (fun t => (t.sp, t.pc, t.guestByte 0xFFFF, t.guestByte 0x0000)) = some (0xFFFF, 0x0001, 0xCD, 0xAB) := by decide
/-- V-POP-1, `POP D`. -/
theorem test_pop_1 :
    after (place base [(0, [0xD1]), (0xF000, [0x34, 0x12])])
      (fun t => (t.d, t.e, t.sp, t.pc)) = some (0x12, 0x34, 0xF002, 0x0001) := by decide
/-- V-POP-2, `POP PSW`. -/
theorem test_pop_2 :
    after (place base [(0, [0xF1]), (0xF000, [0xFF, 0x3C])])
      (fun t => (t.a, t.f, t.sp, t.pc)) = some (0x3C, 0xFF, 0xF002, 0x0001) := by decide
/-- V-XTHL-1, `XTHL`. -/
theorem test_xthl_1 :
    after { place base [(0, [0xE3]), (0xF000, [0x33, 0x44])] with h := 0x11, l := 0x22 }
      (fun t => (t.hl, t.sp, t.pc, t.guestByte 0xF000, t.guestByte 0xF001)) =
      some (0x4433, 0xF000, 0x0001, 0x22, 0x11) := by decide
/-- V-SPHL-1, `SPHL`. -/
theorem test_sphl_1 :
    after { code base [0xF9] with h := 0x12, l := 0x34 }
      (fun t => (t.sp, t.pc)) = some (0x1234, 0x0001) := by decide
/-- V-JMP-1, `JMP 0x1234`. -/
theorem test_jmp_1 :
    after (code base [0xC3, 0x34, 0x12]) (fun t => (t.pc)) = some (0x1234) := by decide
/-- V-CALL-1, `CALL 0x1234`. -/
theorem test_call_1 :
    after (code base [0xCD, 0x34, 0x12])
      (fun t => (t.pc, t.sp, t.guestByte 0xEFFE, t.guestByte 0xEFFF)) = some (0x1234, 0xEFFE, 0x03, 0x00) := by decide
/-- V-RET-1, `RET`. -/
theorem test_ret_1 :
    after (place base [(0, [0xC9]), (0xF000, [0x03, 0x00])])
      (fun t => (t.pc, t.sp)) = some (0x0003, 0xF002) := by decide
/-- V-RST-1, `RST 7`. -/
theorem test_rst_1 :
    after (code base [0xFF])
      (fun t => (t.pc, t.sp, t.guestByte 0xEFFE, t.guestByte 0xEFFF)) = some (0x0038, 0xEFFE, 0x01, 0x00) := by decide
/-- V-PCHL-1, `PCHL`. -/
theorem test_pchl_1 :
    after { code base [0xE9] with h := 0x12, l := 0x34 } (fun t => (t.pc)) = some (0x1234) := by decide
/-- V-OUT-1, `OUT 0x02 (not a bank-select port)`. -/
theorem test_out_1 :
    after { code base [0xD3, 0x02] with a := 0x55 } (fun t => (t.a, t.pc)) = some (0x55, 0x0002) := by decide
/-- V-EI-1, `EI`. -/
theorem test_ei_1 :
    after (code base [0xFB]) (fun t => (t.ie, t.pc)) = some (true, 0x0001) := by decide
/-- V-DI-1, `DI`. -/
theorem test_di_1 :
    after { code base [0xF3] with ie := true } (fun t => (t.ie, t.pc)) = some (false, 0x0001) := by decide
/-- V-HLT-1, `HLT`. -/
theorem test_hlt_1 :
    after (code base [0x76]) (fun t => (t.pc, t.stop)) = some (0x0001, true) := by decide
/-- V-NOP-1, `NOP`. -/
theorem test_nop_1 :
    after (code base [0x00]) (fun t => (t.pc, t.f)) = some (0x0001, 0x00) := by decide

/-! ## Conditions: R901 to R928, both ways -/

/-- Whether one step from FLAGS `f` on `JMP`-like code to 0x1234 takes the jump. -/
def jumps (op f : Byte) : Option Addr := after { code base [op, 0x34, 0x12] with f := f } fun t => t.pc

/-- R901 to R908, taken: the condition's flag alone clear, or alone set (R110: Z 40, CY 01, P 04, S 80). -/
theorem test_jcc_taken :
    [jumps 0xC2 0xBF, jumps 0xCA 0x40, jumps 0xD2 0xFE, jumps 0xDA 0x01, jumps 0xE2 0xFB, jumps 0xEA 0x04, jumps 0xF2 0x7F,
      jumps 0xFA 0x80] = List.replicate 8 (some 0x1234) := by decide

/-- R901 to R908, not taken: `pc` past the operand bytes. -/
theorem test_jcc_not_taken :
    [jumps 0xC2 0x40, jumps 0xCA 0xBF, jumps 0xD2 0x01, jumps 0xDA 0xFE, jumps 0xE2 0x04, jumps 0xEA 0xFB, jumps 0xF2 0x80,
      jumps 0xFA 0x7F] = List.replicate 8 (some 0x0003) := by decide

/-- Where a conditional call's step goes, and `sp`. -/
def calls (op f : Byte) : Option (Addr × Addr) :=
  after { code base [op, 0x34, 0x12] with f := f } fun t => (t.pc, t.sp)

/-- R911 to R918, taken. -/
theorem test_ccc_taken :
    [calls 0xC4 0xBF, calls 0xCC 0x40, calls 0xD4 0xFE, calls 0xDC 0x01, calls 0xE4 0xFB, calls 0xEC 0x04, calls 0xF4 0x7F,
      calls 0xFC 0x80] = List.replicate 8 (some (0x1234, 0xEFFE)) := by decide

/-- R911 to R918, not taken: no push. -/
theorem test_ccc_not_taken :
    [calls 0xC4 0x40, calls 0xCC 0xBF, calls 0xD4 0x01, calls 0xDC 0xFE, calls 0xE4 0x04, calls 0xEC 0xFB, calls 0xF4 0x80,
      calls 0xFC 0x7F] = List.replicate 8 (some (0x0003, 0xF000)) := by decide

/-- Where a conditional return's step goes with 0x0103 on the stack, and `sp`. -/
def returns (op f : Byte) : Option (Addr × Addr) :=
  after { place base [(0, [op]), (0xF000, [0x03, 0x01])] with f := f } fun t => (t.pc, t.sp)

/-- R921 to R928, taken. -/
theorem test_rcc_taken :
    [returns 0xC0 0xBF, returns 0xC8 0x40, returns 0xD0 0xFE, returns 0xD8 0x01, returns 0xE0 0xFB, returns 0xE8 0x04,
      returns 0xF0 0x7F, returns 0xF8 0x80] = List.replicate 8 (some (0x0103, 0xF002)) := by decide

/-- R921 to R928, not taken: no pop. -/
theorem test_rcc_not_taken :
    [returns 0xC0 0x40, returns 0xC8 0xBF, returns 0xD0 0x01, returns 0xD8 0xFE, returns 0xE0 0x04, returns 0xE8 0xFB,
      returns 0xF0 0x80, returns 0xF8 0x7F] = List.replicate 8 (some (0x0001, 0xF000)) := by decide

/-! ## The parameters' other values -/

/-- V-PAR-1, `SUB_CARRY = borrow`: no borrow clears CY. -/
theorem test_par_1 :
    after (withCfg { code base [0x90] with a := 0x05, b := 0x03 } { base.cfg with subCarry := .borrow })
      (fun t => (t.a, t.f)) = some (0x02, 0x10) := by decide
/-- V-PAR-2, `SUB_CARRY = borrow`: a borrow sets CY. -/
theorem test_par_2 :
    after (withCfg { code base [0xB8] with a := 0x05, b := 0x06 } { base.cfg with subCarry := .borrow })
      (fun t => (t.a, t.f)) = some (0x05, 0x85) := by decide
/-- V-PAR-3, `INCDEC_AC = low_nibble`. -/
theorem test_par_3 :
    after (withCfg { code base [0x04] with b := 0x1F } { base.cfg with incDecAc := .lowNibble })
      (fun t => (t.b, t.f)) = some (0x20, 0x10) := by decide
/-- V-PAR-4, `INCDEC_AC = low_nibble`. -/
theorem test_par_4 :
    after (withCfg { code base [0x0D] with c := 0x01 } { base.cfg with incDecAc := .lowNibble })
      (fun t => (t.c, t.f)) = some (0x00, 0x54) := by decide
/-- V-PAR-6, `DAA_SIGN = from_result`. -/
theorem test_par_6 :
    after (withCfg { code base [0x27] with a := 0xA0, f := 0x80 } { base.cfg with daaSign := .fromResult })
      (fun t => (t.a, t.f)) = some (0x00, 0x45) := by decide
/-- V-PAR-7, `DAD_CARRY = inverted`. -/
theorem test_par_7 :
    after (withCfg { code base [0x29] with h := 0x80 } { base.cfg with dadCarry := .inverted })
      (fun t => (t.hl, t.f)) = some (0x0000, 0x00) := by decide
/-- The last SBI step of V-SBB-4 under `SBB_BORROW_IN = flag_is_carry`: 01 - 00 with CY = 1 borrows nothing. -/
theorem test_sbi_flag_is_carry :
    after (withCfg { code base [0xDE, 0x00] with a := 0x01, f := 0x55 } { base.cfg with sbbBorrowIn := .flagIsCarry })
      (fun t => (t.a, t.f)) = some (0x01, 0x11) := by decide

/-! ## Ports, undocumented opcodes -/

/-- V-IN-1: A takes the host's byte, FLAGS is unchanged. -/
theorem test_in_1 :
    after { code base [0xDB, 0x01] with f := 0xD7 } (fun t => (t.f, t.pc, t.ports)) =
      some (0xD7, 0x0002, [.asked 0x01]) := by decide
/-- V-MMU-2, its last step: `OUT 0x11` with A = 1 after `SelectBlock(3)`. -/
theorem test_mmu_2 :
    after { code base [0xD3, 0x11] with a := 0x01, mmuBlock := 3 }
      (fun t => (t.bank[3], t.bank[2], t.mmuBlock, t.pc)) = some (1, 0, 3, 0x0002) := by decide
/-- V-UNDOC-1 and V-UNDOC-2, `UNDOC_POLICY = fault`: `stop` is set and `fatal` is not, and the opcode fetch is the only
access. -/
theorem test_undoc_fault :
    faulted (step (code base [0x08])) (fun t => (t.stop, t.fatal)) = some (.illegalOpcode, true, false) ∧
    faulted (step (code base [0xCB])) (fun t => t.mem.calls) = some (.illegalOpcode, [.readBlock 0]) := by decide
/-- R1101: registers, FLAGS, `sp` and the memory are what they were. -/
theorem test_undoc_fault_state :
    faulted (step { code base [0x08] with a := 0x12, l := 0x34, f := 0xD7 })
      (fun t => (t.a, t.l, t.f, t.sp, t.guestByte 0x0000)) =
      some (.illegalOpcode, 0x12, 0x34, 0xD7, 0xF000, 0x08) := by decide
/-- V-UNDOC-1 and V-UNDOC-2 under `nop` and `alias`; the operand of 0xCB is 0x0000. -/
theorem test_undoc_policies :
    after (withCfg (code base [0xCB]) { base.cfg with undocPolicy := .nop }) (fun t => t.pc) = some 0x0001 ∧
    after (withCfg (code base [0x08]) { base.cfg with undocPolicy := .siliconAlias }) (fun t => t.pc) = some 0x0001 ∧
    after (withCfg (code base [0xCB]) { base.cfg with undocPolicy := .siliconAlias }) (fun t => t.pc) = some 0x0000 := by
  decide

/-! ## The memory system: the vectors of Part 3 -/

/-- The image of Part 3: block `b` has byte 0 = `b + 1` and a right checksum. -/
def sentinels : State :=
  { place base [(0x000, [1]), (0x040, [2]), (0x080, [3]), (0x0C0, [4]), (0x100, [5])] with
    cfg := { base.cfg with nLines := 4 }
    mem := { (place base [(0x000, [1]), (0x040, [2]), (0x080, [3]), (0x0C0, [4]), (0x100, [5])]).mem with
      lines := List.replicate 4 Line.empty } }

/-- V-CACHE-2's start: tags [0, 1, 2, 3], clean, each line with its block's bytes. -/
def warm : State :=
  { sentinels with mem := { sentinels.mem with
      lines := [0, 1, 2, 3].map fun n =>
        { tag := some n, dirty := false, data := Line.empty.data.set 0 (BitVec.ofNat 8 (n + 1)) } } }

/-- The tags, LRU end first, with the dirty marks. -/
def tags (s : State) : List (Option Nat × Bool) := s.mem.lines.map fun x => (x.tag, x.dirty)

/-- What accesses read, and a projection of the state after them. -/
def accessed {α : Type} (s : State) (xs : List Access) (f : State → α) : Option (List Byte × α) :=
  match s.runAccesses xs with
  | .ok v t => some (v, f t)
  | .raised _ _ => none

/-- V-CACHE-1: the fifth block evicts the first. -/
theorem test_cache_1 :
    accessed sentinels [.read 0x0000, .read 0x0040, .read 0x0080, .read 0x00C0, .read 0x0100]
      (fun t => (tags t, t.mem.calls)) =
    some ([1, 2, 3, 4, 5], [(some 1, false), (some 2, false), (some 3, false), (some 4, false)],
      [.readBlock 0, .readBlock 1, .readBlock 2, .readBlock 3, .readBlock 4]) := by decide

/-- V-CACHE-2: hits move the line one place at a time, and make no backend call. -/
theorem test_cache_2 :
    accessed warm [.read 0x0000] tags =
      some ([1], [(some 1, false), (some 0, false), (some 2, false), (some 3, false)]) ∧
    accessed warm [.read 0x0000, .read 0x0000, .read 0x0000, .read 0x0001] (fun t => (tags t, t.mem.calls)) =
      some ([1, 1, 1, 0], [(some 1, false), (some 2, false), (some 3, false), (some 0, false)], []) := by decide

/-- V-CACHE-3's start: two empty lines. -/
def cold2 : State := { sentinels with mem := { sentinels.mem with lines := List.replicate 2 Line.empty } }

/-- A backend call's block, and bytes 0 and 5 and the checksum of the buffer it sends. -/
def logged : BackendCall → List Nat
  | .readBlock n => [n]
  | .writeBlock n x => [n, x.data[0].toNat, x.data[5].toNat, x.check.toNat]

/-- V-CACHE-3: a dirty victim is written back with its checksum before the load. -/
theorem test_cache_3 :
    accessed cold2 [.write 0x0005 0xA5, .read 0x0040, .read 0x0080] (fun t => (tags t, t.mem.calls.map logged)) =
      some ([2, 3], [(some 1, false), (some 2, false)], [[0], [1], [0, 0x01, 0xA5, 0xA4], [2]]) := by decide

/-- V-CACHE-3: the image afterwards. -/
theorem test_cache_3_image :
    accessed cold2 [.write 0x0005 0xA5, .read 0x0040, .read 0x0080]
      (fun t => [(blockOf t.mem.image 0).data[0], (blockOf t.mem.image 0).data[5], (blockOf t.mem.image 0).check]) =
      some ([2, 3], [0x01, 0xA5, 0xA4]) := by decide

/-- V-CACHE-4: a wrong checksum raises the integrity failure; the failed line keeps its tag. -/
theorem test_cache_4 :
    (match State.readByte { sentinels with mem := { sentinels.mem with
        image := Memory.write sentinels.mem.image (cellKey 1 lineSize) 0x03 } } 0x0040 with
      | .raised r t => r == .memoryIntegrity && t.stop && t.fatal && (t.mem.lines.map fun x => x.tag) ==
          [none, none, none, some 1]
      | .ok _ _ => false) = true := by decide

/-- P5 before its third step: blocks 0 and 80 resident, 80 dirty, and a wrong checksum byte in block 81. -/
def beforeP5 : State :=
  let m := (place base [(0x0000, [0x3E, 0x07, 0x32, 0x00, 0x20, 0x3A, 0x40, 0x20, 0x3C, 0x76]), (0x2040, [0x55])]).mem
  { base with
    a := 0x07
    b := 0x21
    pc := 0x0005
    mem :=
      { lines := [Line.empty, Line.empty, { tag := some 0x00, dirty := false, data := (blockOf m.image 0).data },
          { tag := some 0x80, dirty := true, data := Line.empty.data.set 0 0x07 }]
        image := Memory.write m.image (cellKey 0x81 lineSize) 0xAA
        calls := [.readBlock 0x00, .readBlock 0x80] } }

/-- P5's third step, `LDA 0x2040`: the fault and both signals; what LDA does not write is as before. -/
theorem test_p5 :
    faulted (step beforeP5) (fun t => (t.stop, t.fatal, t.b, t.sp, t.guestByte 0x2000)) =
      some (.memoryIntegrity, true, true, 0x21, 0xF000, 0x07) := by decide

/-- P5's tags and log at its end. -/
theorem test_p5_cache :
    faulted (step beforeP5) (fun t => (tags t, t.mem.calls)) =
      some (.memoryIntegrity, [(none, false), (some 0x80, true), (some 0x00, false), (some 0x81, false)],
        [.readBlock 0x00, .readBlock 0x80, .readBlock 0x81]) := by decide

/-- `base` with 0x22 at 0x0005, a wrong checksum byte in its block, and 0x77 in A. -/
def failedStore : State :=
  { base with a := 0x77, mem := { base.mem with image := [(cellKey 0 5, 0x22), (cellKey 0 lineSize, 1)] } }

/-- D21, R126: a store whose load fails leaves the bad checksum byte in the image, and the line its loaded bytes. -/
theorem test_failed_store :
    faulted (exec (.sta 0x0005) failedStore) (fun t => ((blockOf t.mem.image 0).check, t.guestByte 0x0005)) =
      some (.memoryIntegrity, 0x01, 0x22) ∧
    faulted (exec (.sta 0x0005) failedStore) (fun t => t.mem.calls) =
      some (.memoryIntegrity, [.readBlock 0]) := by decide

/-- What an instruction with this extent leaves whose access at 0x003F fails, with a wrong checksum in block 0, in a
machine with these lines: it goes on or not, and the failed line then stands at `place`. -/
def goneOn {α : Type} (lines : List Line) (w : Extent) (go : Bool) (place : Nat) (f : State → α) : Option α :=
  let s : State := { base with mem := { base.mem with lines := lines, image := [(cellKey 0 lineSize, 1)] } }
  match s.readByte 0x003F with
  | .ok _ _ => none
  | .raised _ t =>
    let x : MemLeavings :=
      { reads := fun _ => go, stores := fun _ => go, place := place, byte := fun _ => 0x99, dirty := fun _ => true }
    some (f { t with mem := t.leaveMem w x })

/-- R411, D21: a store that the failed instruction had not reached leaves any byte, in a block it brings in; the failed
line keeps its bytes. -/
theorem test_gone_on_store :
    let w : Extent := { stores := [0x003F, 0x0040] }
    goneOn [Line.empty, Line.empty] w true 1 (fun t => (t.guestByte 0x003F, t.guestByte 0x0040)) = some (0x00, 0x99) ∧
    goneOn [Line.empty, Line.empty] w false 1 (fun t => (t.guestByte 0x003F, t.guestByte 0x0040)) = some (0x00, 0x00) ∧
    goneOn [Line.empty, Line.empty] w true 1 (fun t => (tags t, t.mem.calls)) =
      some ([(some 1, true), (some 0, true)], [.readBlock 0, .readBlock 1]) := by decide

/-- R126, D21: with one line the byte reaches the image by a write-back, and the failed line is as before. -/
theorem test_gone_on_one_line :
    let w : Extent := { stores := [0x003F, 0x0040] }
    goneOn [Line.empty] w true 0 (fun t => (t.guestByte 0x003F, t.guestByte 0x0040)) = some (0x00, 0x99) ∧
    goneOn [Line.empty] w true 0 (fun t => (tags t, t.mem.calls.map logged)) =
      some ([(some 0, true)], [[0], [1], [1, 0x99, 0x00, 0x99], [0]]) := by decide

/-- R411, C9: a read that the failed instruction had not reached may have loaded its block, and the failed line then stands
anywhere; with no access to another block it is the MRU line. -/
theorem test_gone_on_read :
    goneOn [Line.empty, Line.empty] { reads := [0x003F, 0x0040] } true 0 (fun t => (tags t, t.mem.calls)) =
      some ([(some 0, false), (some 1, true)], [.readBlock 0, .readBlock 1]) ∧
    goneOn [Line.empty, Line.empty] { reads := [0x003F] } true 0 (fun t => (tags t, t.mem.calls)) =
      some ([(none, false), (some 0, false)], [.readBlock 0]) := by decide

/-- V-CACHE-6: a write to a resident line makes no backend call. -/
theorem test_cache_6 :
    accessed warm [.write 0x0080 0x77] (fun t => (tags t, t.mem.calls)) =
      some ([], [(some 0, false), (some 1, false), (some 3, false), (some 2, true)], []) := by decide

/-- V-MMU-1, with `STORAGE_OFFSET = 100`. -/
theorem test_mmu_1 :
    let s := withCfg base { base.cfg with storageOffset := 0x100, banks := 4 }
    let t := { s with bank := (s.bank.set 1 2).set 15 3 }
    s.blk 0x0040 = 0x101 ∧ t.blk 0x1040 = 0x941 ∧ s.blk 0xFFFF = 0x4FF ∧ t.blk 0xFFFF = 0x10FF ∧
    (off 0x1040).val = 0 ∧ (off 0xFFFF).val = 0x3F := by decide

/-- V-CEIL-3, `MAX_ADDR = 7FFF`. -/
theorem test_ceil_3 :
    accessed ceiled [.read 0x8000, .read 0xFFFF, .write 0x8000 0x12] (fun t => decide (t = ceiled)) =
      some ([0xFF, 0xFF], true) ∧
    accessed ceiled [.read 0x7FFF] (fun t => t.mem.calls) = some ([0], [.readBlock 0x1FF]) := by decide

/-! ## Witnesses: the hypotheses of the statements are met together -/

/-- A state right after a launch whose image is listed in block 0 only meets the invariant. -/
theorem cold_inv {s : State} (hw : Memory.wf s.mem.image = true)
    (hl : s.mem.lines = List.replicate s.cfg.nLines Line.empty) (hc : s.cfg.valid = true)
    (hb : s.bank = Vector.replicate nblk 0) (hf : s.fatal = false) : s.Inv := by
  have hv : 1 ≤ s.cfg.nLines ∧ 1 ≤ s.cfg.banks := by
    simp only [Config.valid, Bool.and_eq_true, decide_eq_true_eq] at hc
    exact hc.1
  have he : ∀ x ∈ s.mem.lines, x.tag = none := by
    intro x hx
    rw [hl] at hx
    rw [(List.mem_replicate.1 hx).2]; rfl
  refine ⟨⟨hw, ?_, ?_, ?_⟩, by rw [hl]; simp, ?_, hc, ?_, by simp [hf]⟩
  · rw [hl]; simp; omega
  · have : s.mem.lines.filterMap (fun x => x.tag) = [] := List.filterMap_eq_nil_iff.2 he
    rw [this]; exact List.nodup_nil
  · intro x hx n h; rw [he x hx] at h; cases h
  · intro x hx n h; rw [he x hx] at h; cases h
  · intro i; simp only [hb, Vector.getElem_replicate]; omega

/-- An image listed in block 0 only, with a right checksum there, is sound. -/
theorem low_sound {s : State} (h : ∀ x ∈ s.mem.image, x.1 ≤ lineSize)
    (h0 : (blockOf s.mem.image 0).sound = true) : s.Sound := by
  have above : ∀ (l : List Host.Cell) (k : Nat), (∀ x ∈ l, x.1 ≤ lineSize) → lineSize < k → Memory.read l k = 0 := by
    intro l k hl hk
    induction l with
    | nil => rfl
    | cons x t ih =>
      have hx := hl x (by simp)
      rw [Memory.read, if_neg (by omega)]
      exact ih fun y hy => hl y (by simp [hy])
  intro n _
  cases n with
  | zero => exact h0
  | succ n =>
    have : blockOf s.mem.image (n + 1) = { data := Vector.replicate lineSize 0, check := 0 } := by
      unfold blockOf
      rw [Buffer.mk.injEq]
      constructor
      · ext i hi
        rw [Vector.getElem_ofFn, Vector.getElem_replicate, above _ _ h (by simp only [cellKey, lineSize]; omega)]
      · exact above _ _ h (by simp only [cellKey, lineSize]; omega)
    rw [this]; decide

theorem base_inv : base.Inv := cold_inv rfl rfl rfl rfl rfl
theorem base_sound : base.Sound := low_sound (by intro x hx; cases hx) (by decide)

/-- `base` with an undocumented opcode at `pc`. -/
def undocAtPc : State := code base [0x08]

theorem undocAtPc_inv : undocAtPc.Inv := cold_inv (by decide) rfl rfl rfl rfl
theorem undocAtPc_sound : undocAtPc.Sound := low_sound (by decide) (by decide)

/-- `base` with a wrong checksum byte in block 0. -/
def corrupt : State := { base with mem := { base.mem with image := [(lineSize, 1)] } }

theorem corrupt_inv : corrupt.Inv := cold_inv (by decide) rfl rfl rfl rfl

/-- `base` with a wrong checksum byte in block 1, which holds the addresses 0x0040 to 0x007F, and `JMP` at 0x003E. -/
def corruptNext : State :=
  { base with mem := { base.mem with
      image := [(cellKey 0 0x3E, 0xC3), (cellKey 0 lineSize, 0xC3), (cellKey 1 lineSize, 1)] } }

theorem corruptNext_inv : corruptNext.Inv := cold_inv (by decide) rfl rfl rfl rfl

/-- `ceiled` with `pc`, HL and `sp` at the first unmapped address. -/
def aboveCeiling : State := { ceiled with pc := 0x8000, h := 0x80, sp := 0x8000 }

theorem aboveCeiling_inv : aboveCeiling.Inv := cold_inv rfl rfl rfl rfl rfl
theorem aboveCeiling_sound : aboveCeiling.Sound := low_sound (by intro x hx; cases hx) (by decide)

/-- `base` with every FLAGS bit set. -/
def flagged : State := { base with f := 0xFF }

theorem flagged_inv : flagged.Inv := base_inv.congr rfl rfl rfl base_inv.signals
theorem flagged_sound : flagged.Sound := base_sound.congr rfl rfl

/-- A machine with one cache line, else `base`. -/
def oneLine : State :=
  { base with
    cfg := { base.cfg with nLines := 1 }
    mem := { lines := [Line.empty], image := [], calls := [] } }

theorem oneLine_inv : oneLine.Inv := cold_inv rfl rfl rfl rfl rfl
theorem oneLine_sound : oneLine.Sound := low_sound (by intro x hx; cases hx) (by decide)

theorem witness_DecodeEncode :
    Instr.wellFormed (.mov .m (.reg .a)) = true ∧ Instr.wellFormed (.undoc 0xFD) = true := by decide

theorem witness_EncodeDecode : decode [0x31, 0xFF, 0xFF, 0x76] = .ok (.lxi .sp 0xFFFF, [0x76]) := rfl

theorem witness_DecoderIsTotal :
    instrLength 0xC3 ≤ [0x00, (0x00 : Byte)].length + 1 ∧ [(0x00 : Byte)].length + 1 < instrLength 0xC3 ∧
    decode [0xFD] = .ok (.undoc 0xFD, []) := ⟨by decide, by decide, rfl⟩

theorem witness_StepRunsDecodedInstruction : base.stop = false ∧ ∃ i t, base.fetchInstr = .ok i t :=
  ⟨rfl, _, _, rfl⟩

theorem witness_StepRunsBytesAtPc : base.Inv ∧ base.Sound ∧ base.stop = false ∧
    decode [base.guestByte base.pc, base.guestByte (base.pc + 1), base.guestByte (base.pc + 2)] = .ok (.nop, [0, 0]) :=
  ⟨base_inv, base_sound, rfl, rfl⟩

theorem witness_StepRefusesOnlyWhenStopped : base.hostStop.stop = true ∧ step base.hostStop = .refused .runEnded :=
  ⟨rfl, rfl⟩

theorem witness_FetchAboveCeilingIsRst7 : aboveCeiling.cfg.maxAddr < aboveCeiling.pc ∧ aboveCeiling.stop = false ∧
    aboveCeiling.Inv ∧ aboveCeiling.Sound := ⟨by decide, rfl, aboveCeiling_inv, aboveCeiling_sound⟩

/-- The first and the last unmapped address, and the last mapped one. -/
theorem witness_CeilingAccess :
    ceiled.cfg.maxAddr.toNat < (0x8000 : Addr).toNat ∧ ceiled.cfg.maxAddr.toNat < (0xFFFF : Addr).toNat ∧
    ¬ ceiled.cfg.maxAddr.toNat < (0x7FFF : Addr).toNat := by decide

theorem witness_MemoryIsSequential : aboveCeiling.Inv ∧ aboveCeiling.Sound := ⟨aboveCeiling_inv, aboveCeiling_sound⟩

/-- The LRU line moves up; the MRU line stays. -/
theorem witness_HitPromotesOneStep :
    let x : Line := { Line.empty with tag := some 7 }
    let m : MemSys := { lines := [x, Line.empty], image := [], calls := [] }
    let w : MemSys := { lines := [Line.empty, x], image := [], calls := [] }
    (m.lines[0]? = some x ∧ x.tag = some 7 ∧ (∀ k y, k < 0 → m.lines[k]? = some y → y.tag ≠ some 7) ∧
      m.lines[0 + 1]? = some Line.empty) ∧
    (w.lines[1]? = some x ∧ (∀ k y, k < 1 → w.lines[k]? = some y → y.tag ≠ some 7) ∧ w.lines[1 + 1]? = none) := by
  refine ⟨⟨rfl, rfl, fun k y hk => absurd hk (by omega), rfl⟩, rfl, fun k y hk hy => ?_, rfl⟩
  obtain rfl : k = 0 := by omega
  cases hy
  simp [Line.empty]

/-- A victim that is dirty and resident, one that is clean, and an empty one. -/
theorem witness_MissEvictsAndLoads :
    (∀ x : Line, x = { Line.empty with tag := some 7, dirty := true } ∨ x = { Line.empty with tag := some 7 } ∨
        x = Line.empty →
      let m : MemSys := { lines := [x], image := [], calls := [] }
      m.Ok ∧ m.lines = x :: [] ∧ (∀ y ∈ m.lines, y.tag ≠ some 8)) ∧
    (blockOf [] 8).sound = true := by
  refine ⟨fun x hx => ?_, by decide⟩
  have hd : x.data = (blockOf [] 7).data := by rcases hx with rfl | rfl | rfl <;> decide
  have ht : ∀ n, x.tag = some n → n = 7 := by
    intro n h; rcases hx with rfl | rfl | rfl <;> simp_all [Line.empty]
  refine ⟨⟨rfl, by simp, ?_, ?_⟩, rfl, ?_⟩
  · rcases hx with rfl | rfl | rfl <;> simp [Line.empty]
  · intro y hy n h _
    obtain rfl : y = x := by simpa using hy
    obtain rfl := ht n h
    exact hd
  · intro y hy h
    obtain rfl : y = x := by simpa using hy
    exact absurd (ht 8 h) (by decide)

theorem witness_ColdCacheEvictsFirstLoaded :
    let m : MemSys := { lines := [Line.empty, Line.empty], image := [], calls := [] }
    (∀ x ∈ m.lines, x.tag = none ∧ x.dirty = false) ∧ (5 :: [9]).length = m.lines.length ∧ (5 :: [9] ++ [7]).Nodup ∧
    (∀ k ∈ 5 :: [9] ++ [7], (blockOf m.image k).sound = true) := by decide

theorem witness_OneChangedByteIsDetected :
    let x := Buffer.ofData (Line.empty.data.set 0 0xA5)
    x.sound = true ∧ (0xA4 : Byte) ≠ x.data[(63 : Fin lineSize)] ∧ (0xA4 : Byte) ≠ x.check := by decide

theorem witness_CanonicalImagesEqual :
    Memory.wf [(3, 7)] = true ∧ Memory.wf (Memory.write (Memory.write [] 3 9) 3 7) = true ∧
    (∀ x, Memory.read [(3, 7)] x = Memory.read (Memory.write (Memory.write [] 3 9) 3 7) x) :=
  ⟨by decide, by decide, fun _ => rfl⟩

/-- No line, no bank, one port for both operations; and a good configuration with each `RESET_REGS`. -/
theorem witness_LaunchGivesResetState :
    Config.valid { Config.standard with nLines := 0 } = false ∧ Config.valid { Config.standard with banks := 0 } = false ∧
    Config.valid { Config.standard with portMmuBank := 0x10 } = false ∧
    Config.valid { Config.standard with resetRegs := .zero } = true ∧ Config.standard.resetRegs = .arbitrary ∧
    Config.standard.valid = true := by decide

theorem witness_LaunchEstablishesInvariant :
    launch { standardLaunch with image := [(64, 0x76), (0, 0x76)] } =
      .next (launchState { standardLaunch with image := [(64, 0x76), (0, 0x76)] }) := rfl

theorem witness_StepKeepsInvariant : base.Inv ∧ ∃ t, step base = .next t := ⟨base_inv, _, rfl⟩

theorem witness_StepKeepsSound : base.Inv ∧ base.Sound ∧ ∃ t, step base = .next t := ⟨base_inv, base_sound, _, rfl⟩

/-- A step that gives a next state, and one at an undocumented opcode. -/
theorem witness_SoundMachineProgresses : (base.Inv ∧ base.Sound ∧ base.stop = false) ∧
    (undocAtPc.Inv ∧ undocAtPc.Sound ∧ undocAtPc.stop = false ∧ undocAtPc.guestByte undocAtPc.pc ∈ undocOpcodes) :=
  ⟨⟨base_inv, base_sound, rfl⟩, undocAtPc_inv, undocAtPc_sound, rfl, by decide⟩

theorem witness_CacheIsInvisible : base.Inv ∧ oneLine.Inv ∧ base.Sound ∧ oneLine.Sound ∧ SameGuestView base oneLine ∧
    (∃ u, step base = .next u) := by
  refine ⟨base_inv, oneLine_inv, base_sound, oneLine_sound, ⟨rfl, fun n j => ?_⟩, _, rfl⟩
  rfl

/-- Its fault and refusal cases. -/
theorem witness_CacheIsInvisible_ends : undocAtPc.Inv ∧ undocAtPc.Sound ∧ SameGuestView undocAtPc undocAtPc ∧
    (∃ r, step undocAtPc = .fault r) ∧ SameGuestView base.hostStop base.hostStop ∧ base.hostStop.Inv ∧
    base.hostStop.Sound ∧ step base.hostStop = .refused .runEnded :=
  ⟨undocAtPc_inv, undocAtPc_sound, ⟨rfl, fun _ _ => rfl⟩, ⟨_, rfl⟩, ⟨rfl, fun _ _ => rfl⟩,
    base_inv.congr rfl rfl rfl (fun _ => rfl), base_sound.congr rfl rfl, rfl⟩

/-- Block 5000 is none a guest address translates to, and out of the core's range. -/
theorem witness_OtherBlocksUntouched : base.Inv ∧ (∃ t, step base = .next t) ∧ (∀ a : Addr, base.blk a ≠ 5000) ∧
    ¬ inCore base.cfg 5000 := by
  refine ⟨base_inv, ⟨_, rfl⟩, fun a => ?_, ?_⟩
  · have h := (blk_inCore base_inv a).2
    have hb : base.cfg.storageOffset + base.cfg.banks * 65536 / lineSize = 2048 := by decide
    omega
  · unfold inCore
    have hb : base.cfg.storageOffset + base.cfg.banks * 65536 / lineSize = 2048 := by decide
    omega

/-- A run that halts, one for each fault, and one that the host stops. -/
theorem witness_RunEndsAreClassified :
    (base.Inv ∧ base.stop = false) ∧ (∃ t, runLoop [false] (code base [0x76]) = .halted t) ∧
    (∃ r, runLoop [false] undocAtPc = .faulted r) ∧ (∃ r, runLoop [false] corrupt = .faulted r) ∧
    (∃ t, runLoop [true] base = .stoppedByHost t) :=
  ⟨⟨base_inv, rfl⟩, ⟨_, rfl⟩, ⟨_, rfl⟩, ⟨_, rfl⟩, ⟨_, rfl⟩⟩

theorem witness_ControlStateWriters :
    (∃ t, exec (.inr (.reg .b)) base = .next t) ∧ Instr.inr (.reg .b) ≠ .ei ∧ Instr.inr (.reg .b) ≠ .di ∧
    Instr.inr (.reg .b) ≠ .hlt ∧ ∀ p, Instr.inr (.reg .b) ≠ .outp p :=
  ⟨⟨_, rfl⟩, by simp, by simp, by simp, by simp⟩

/-- DAD keeps Sign; DAA keeps it too under the default, and writes it under `from_result`. -/
theorem witness_FlagsWrittenAsIndexed :
    (∃ t, exec (.dad .hl) base = .next t) ∧ (flagMask base.cfg.daaSign (.dad .hl)).getLsbD 7 = false ∧
    (flagMask .unchanged .daa).getLsbD 7 = false ∧ (flagMask .fromResult .daa).getLsbD 5 = false :=
  ⟨⟨_, rfl⟩, rfl, rfl, rfl⟩

/-- A store to a mapped address and one above `MAX_ADDR`; and an instruction that stores nothing. -/
theorem witness_StoresAndNothingElse :
    (base.Inv ∧ (∃ t, exec (.sta 0xFFFF) base = .next t) ∧ storeOf base (.sta 0xFFFF) = [(0xFFFF, 0)]) ∧
    (aboveCeiling.Inv ∧ (∃ t, exec (.sta 0x8000) aboveCeiling = .next t) ∧ aboveCeiling.unmapped 0x8000 = true) ∧
    (∃ t, exec .nop base = .next t) ∧ storeOf base .nop = [] :=
  ⟨⟨base_inv, ⟨_, rfl⟩, rfl⟩, ⟨aboveCeiling_inv, ⟨_, rfl⟩, rfl⟩, ⟨_, rfl⟩, rfl⟩

theorem witness_FaultsAreTheTwoReasons :
    (∃ t, exec (.lda 0) corrupt = .fault (.memoryIntegrity t)) ∧
    (∃ t, exec (.undoc 0x08) base = .fault (.illegalOpcode t)) ∧
    accessesOf base .nop = [] ∧ (base.cfg.undocPolicy = .fault → ∀ op, Instr.nop ≠ .undoc op) :=
  ⟨⟨_, rfl⟩, ⟨_, rfl⟩, rfl, fun _ _ => nofun⟩

/-- A sequence of accesses raises. -/
def raises (s : State) (xs : List Access) : Bool :=
  match s.runAccesses xs with
  | .ok _ _ => false
  | .raised _ _ => true

theorem failsIn_of_raises {s : State} (hs : s.Inv) {xs : List Access} (h : raises s xs = true) : s.FailsIn xs := by
  rw [failsIn_iff xs hs]
  unfold raises at h
  cases e : s.runAccesses xs with
  | ok v t => rw [e] at h; cases h
  | raised r t => exact ⟨r, t, rfl⟩

/-- The first access fails; the second byte of a word across 0x0040, read, written and on the stack; and none. -/
theorem witness_FailedLoadFaults_exec :
    corrupt.Inv ∧ corrupt.FailsIn (accessesOf corrupt (.lda 0)) ∧ corruptNext.Inv ∧
    corruptNext.FailsIn (accessesOf corruptNext (.lhld 0x003F)) ∧
    corruptNext.FailsIn (accessesOf corruptNext (.shld 0x003F)) ∧
    State.FailsIn { corruptNext with sp := 0x0041 } (accessesOf { corruptNext with sp := 0x0041 } (.call 0)) ∧
    State.FailsIn { corruptNext with sp := 0x003F } (accessesOf { corruptNext with sp := 0x003F } .ret) ∧
    State.FailsIn { corruptNext with sp := 0x003F } (accessesOf { corruptNext with sp := 0x003F } .xthl) ∧
    ¬ corruptNext.FailsIn (accessesOf corruptNext .nop) :=
  have h : ∀ sp, State.Inv { corruptNext with sp := sp } := fun sp =>
    corruptNext_inv.congr rfl rfl rfl corruptNext_inv.signals
  ⟨corrupt_inv, failsIn_of_raises corrupt_inv (by decide), corruptNext_inv,
    failsIn_of_raises corruptNext_inv (by decide), failsIn_of_raises corruptNext_inv (by decide),
    failsIn_of_raises (h _) (by decide), failsIn_of_raises (h _) (by decide), failsIn_of_raises (h _) (by decide),
    failsIn_nil _⟩

/-- The opcode's fetch fails; the third byte of JMP does, the second byte having been read; and no fetch does, but an
access of the instruction. -/
theorem witness_FailedLoadFaults_step :
    (corrupt.stop = false ∧ corrupt.FailsIn (fetchAccesses corrupt)) ∧
    State.FailsIn { corruptNext with pc := 0x003E } (fetchAccesses { corruptNext with pc := 0x003E }) ∧
    raises { corruptNext with pc := 0x003E } [.read 0x003E, .read 0x003F] = false ∧
    (∃ i u, corruptNext.fetchInstr = .ok i u) :=
  have h : State.Inv { corruptNext with pc := 0x003E } := corruptNext_inv.congr rfl rfl rfl corruptNext_inv.signals
  ⟨⟨rfl, failsIn_of_raises corrupt_inv (by decide)⟩, failsIn_of_raises h (by decide), by decide, _, _, rfl⟩

theorem witness_IllegalOpcodeFault : undocAtPc.stop = false ∧ (∃ t, undocAtPc.fetch8 = .ok 0x08 t) ∧
    (0x08 : Byte) ∈ undocOpcodes ∧ undocAtPc.cfg.undocPolicy = .fault ∧ ∃ t, step undocAtPc = .fault (.illegalOpcode t) :=
  have ⟨t, h, _⟩ := fetch8_total undocAtPc_inv undocAtPc_sound
  ⟨rfl, ⟨t, by rw [h, show undocAtPc.guestByte undocAtPc.pc = 0x08 by decide]⟩, by decide, rfl, _, rfl⟩

/-- An instruction that could have stored, with an address, a register and FLAGS outside its extent; INR M, with Carry
outside; a step whose operand fetch fails, and one whose opcode fetch does. -/
theorem witness_IntegrityFaultFrame : corruptNext.Inv ∧
    (∃ t, exec (.shld 0x0040) corruptNext = .fault (.memoryIntegrity t)) ∧
    (0x0042 : Addr) ∉ (corruptNext.extent (.shld 0x0040)).stores ∧
    Reg.b ∉ (corruptNext.extent (.shld 0x0040)).regs ∧ (corruptNext.extent (.shld 0x0040)).flags = 0x00 ∧
    (∃ t, exec (.inr .m) corrupt = .fault (.memoryIntegrity t)) ∧
    ((corrupt.extent (.inr .m)).flags.getLsbD 0 = false ∧ (corrupt.extent (.inr .m)).flags.getLsbD 7 = true) ∧
    (∃ r u t, State.fetchInstr { corruptNext with pc := 0x003E } = .raised r u ∧
      step { corruptNext with pc := 0x003E } = .fault (.memoryIntegrity t)) ∧
    corrupt.Inv ∧ ∃ t, step corrupt = .fault (.memoryIntegrity t) :=
  ⟨corruptNext_inv, ⟨_, rfl⟩, by decide, by decide, rfl, ⟨_, rfl⟩, ⟨rfl, rfl⟩, ⟨_, _, _, rfl, rfl⟩, corrupt_inv, _, rfl⟩

/-- A step; a store; and reads. -/
theorem witness_FailedLineStands : corrupt.Inv ∧ (∃ t, step corrupt = .fault (.memoryIntegrity t)) ∧
    (∃ t, exec (.sta 0x0005) corrupt = .fault (.memoryIntegrity t)) ∧
    (∃ t, exec (.lda 0x0005) corrupt = .fault (.memoryIntegrity t)) ∧
    ∃ t, exec (.lhld 0x003F) corrupt = .fault (.memoryIntegrity t) :=
  ⟨corrupt_inv, ⟨_, rfl⟩, ⟨_, rfl⟩, ⟨_, rfl⟩, _, rfl⟩

/-- LDA has no access to another block than the failed one, and LHLD here has. -/
theorem witness_FailedLineStands_blocks :
    ((corrupt.extent (.lda 0x0005)).reads ++ (corrupt.extent (.lda 0x0005)).stores).map corrupt.blk = [0] ∧
    ((corrupt.extent (.lhld 0x003F)).reads ++ (corrupt.extent (.lhld 0x003F)).stores).map corrupt.blk = [0, 1] := by
  decide

/-- A step that completes, and one that ends in each fault. -/
theorem witness_ImageIsLastWritten : (base.Inv ∧ ∃ t, step base = .next t) ∧
    (corrupt.Inv ∧ ∃ t r, step corrupt = .fault r ∧ r.state = t) ∧
    undocAtPc.Inv ∧ ∃ t r, step undocAtPc = .fault r ∧ r.state = t :=
  ⟨⟨base_inv, _, rfl⟩, ⟨corrupt_inv, _, _, rfl, rfl⟩, undocAtPc_inv, _, _, rfl, rfl⟩

theorem witness_ExtentCoversWrites : base.Inv ∧ (∃ t, exec (.sta 0xFFFF) base = .next t) ∧
    Reg.a ∉ (base.extent (.sta 0xFFFF)).regs ∧ (0xFFFE : Addr) ∉ (base.extent (.sta 0xFFFF)).stores ∧
    .write 0xFFFF base.a ∈ accessesOf base (.sta 0xFFFF) ∧ .read 0xFFFF ∈ accessesOf base (.lhld 0xFFFF) :=
  ⟨base_inv, ⟨_, rfl⟩, by decide, by decide, by simp [accessesOf], by simp [accessesOf, readsWord]⟩

/-- Both below and above `MAX_ADDR`. -/
theorem witness_MoveByte : (base.Inv ∧ base.Sound) ∧ aboveCeiling.Inv ∧ aboveCeiling.Sound ∧
    aboveCeiling.unmapped aboveCeiling.hl = true :=
  ⟨⟨base_inv, base_sound⟩, aboveCeiling_inv, aboveCeiling_sound, rfl⟩

theorem witness_AccumulatorLoadsAndStores : base.Inv ∧ base.Sound := ⟨base_inv, base_sound⟩

theorem witness_HlLoadsAndStores : aboveCeiling.Inv ∧ aboveCeiling.Sound ∧ aboveCeiling.unmapped 0x7FFF = false ∧
    aboveCeiling.unmapped (0x7FFF + 1) = true := ⟨aboveCeiling_inv, aboveCeiling_sound, rfl, rfl⟩

theorem witness_AddFamily : base.ReadyFor (.reg .a) ∧ base.ReadyFor .m := ⟨nofun, fun _ => ⟨base_inv, base_sound⟩⟩

theorem witness_SubtractFamily : flagged.ReadyFor (.reg .a) ∧ flagged.ReadyFor .m :=
  ⟨nofun, fun _ => ⟨flagged_inv, flagged_sound⟩⟩

theorem witness_IncrementDecrement : aboveCeiling.Inv ∧ aboveCeiling.Sound := ⟨aboveCeiling_inv, aboveCeiling_sound⟩

theorem witness_DecimalAdjust :
    let s := { base with a := 0x99 }
    s.a.toNat % 16 ≤ 9 ∧ s.a.toNat / 16 ≤ 9 ∧ s.f.getLsbD 4 = false ∧ s.f.getLsbD 0 = false := by decide

theorem witness_LogicFamily : flagged.ReadyFor (.reg .b) ∧ flagged.ReadyFor .m :=
  ⟨nofun, fun _ => ⟨flagged_inv, flagged_sound⟩⟩

theorem witness_CompareFamily : base.ReadyFor .m ∧ (∃ t, exec (.sub .m) base = .next t) ∧
    (∃ u, exec (.cmp .m) base = .next u) ∧ (∃ t, exec (.sui 1) base = .next t) ∧ ∃ u, exec (.cpi 1) base = .next u :=
  ⟨fun _ => ⟨base_inv, base_sound⟩, ⟨_, rfl⟩, ⟨_, rfl⟩, ⟨_, rfl⟩, _, rfl⟩

/-- Also with the stack across the ceiling. -/
theorem witness_PushPop : (base.Inv ∧ base.Sound) ∧ aboveCeiling.Inv ∧ aboveCeiling.Sound :=
  ⟨⟨base_inv, base_sound⟩, aboveCeiling_inv, aboveCeiling_sound⟩

theorem witness_PswRoundTrip : flagged.Inv ∧ flagged.Sound ∧ flagged.unmapped (flagged.sp - 2) = false ∧
    flagged.unmapped (flagged.sp - 1) = false ∧
    ∃ t u, exec (.push .psw) flagged = .next t ∧ exec (.pop .psw) { t with a := 0x12, f := 0 } = .next u :=
  ⟨flagged_inv, flagged_sound, rfl, rfl, _, _, rfl, rfl⟩

theorem witness_ExchangeStackTop : base.Inv ∧ base.Sound := ⟨base_inv, base_sound⟩

/-- Every flag clear in one state, every flag set in the other. -/
theorem witness_CallsAndRestarts : (base.Inv ∧ base.Sound ∧ ∀ k < 8, base.f.getLsbD k = false) ∧
    flagged.Inv ∧ flagged.Sound ∧ ∀ k < 8, flagged.f.getLsbD k = true :=
  ⟨⟨base_inv, base_sound, by decide⟩, flagged_inv, flagged_sound, by decide⟩

theorem witness_Returns : (base.Inv ∧ base.Sound ∧ ∀ k < 8, base.f.getLsbD k = false) ∧
    flagged.Inv ∧ flagged.Sound ∧ ∀ k < 8, flagged.f.getLsbD k = true :=
  ⟨⟨base_inv, base_sound, by decide⟩, flagged_inv, flagged_sound, by decide⟩

theorem witness_CallThenReturn : base.Inv ∧ base.Sound ∧ base.unmapped (base.sp - 2) = false ∧
    base.unmapped (base.sp - 1) = false := ⟨base_inv, base_sound, rfl, rfl⟩

/-- A port of neither operation, each of the two ports, the last bank number and the first number that is none. -/
theorem witness_PortInputOutput :
    ((0x02 : Byte) ≠ base.cfg.portMmuBlock ∧ (0x02 : Byte) ≠ base.cfg.portMmuBank) ∧
    ((0x10 : Byte) = base.cfg.portMmuBlock ∧ (0x10 : Byte) ≠ base.cfg.portMmuBank) ∧
    ((0x11 : Byte) ≠ base.cfg.portMmuBlock ∧ (0x11 : Byte) = base.cfg.portMmuBank) ∧
    ({ base with a := 1 } : State).a.toNat < base.cfg.banks ∧ base.cfg.banks ≤ ({ base with a := 2 } : State).a.toNat := by
  decide

/-- For each of these one-byte instructions, a state with its byte at `pc`. -/
theorem oneByte_ready : ∀ op ∈ ([0x2F, 0x3F, 0x37, 0x07, 0x0F, 0x17, 0x1F, 0xFB, 0xF3, 0x76, 0x00] : List Byte),
    (code base [op]).Inv ∧ (code base [op]).Sound ∧ (code base [op]).stop = false ∧
      (code base [op]).guestByte (code base [op]).pc = op := by
  intro op h
  have hw : ∀ op ∈ ([0x2F, 0x3F, 0x37, 0x07, 0x0F, 0x17, 0x1F, 0xFB, 0xF3, 0x76, 0x00] : List Byte),
      Memory.wf (code base [op]).mem.image = true ∧ (∀ x ∈ (code base [op]).mem.image, x.1 ≤ lineSize) ∧
        (blockOf (code base [op]).mem.image 0).sound = true ∧
        (code base [op]).guestByte (code base [op]).pc = op := by decide
  obtain ⟨h1, h2, h3, h4⟩ := hw op h
  exact ⟨cold_inv h1 rfl rfl rfl rfl, low_sound h2 h3, rfl, h4⟩

theorem witness_AccumulatorComplementAndCarry : (code base [0x2F]).Inv ∧ (code base [0x2F]).Sound ∧
    (code base [0x2F]).stop = false ∧ (code base [0x2F]).guestByte (code base [0x2F]).pc = 0x2F :=
  oneByte_ready 0x2F (by decide)

theorem witness_Rotates : (code base [0x1F]).Inv ∧ (code base [0x1F]).Sound ∧ (code base [0x1F]).stop = false ∧
    (code base [0x1F]).guestByte (code base [0x1F]).pc = 0x1F := oneByte_ready 0x1F (by decide)

theorem witness_InterruptFlagHaltNop : (code base [0x76]).Inv ∧ (code base [0x76]).Sound ∧
    (code base [0x76]).stop = false ∧ (code base [0x76]).guestByte (code base [0x76]).pc = 0x76 :=
  oneByte_ready 0x76 (by decide)

/-- Each policy, and each kind of alias. -/
theorem witness_UndocumentedOpcode :
    (0x08 : Byte) ∈ undocOpcodes ∧ (0xD9 : Byte) ∈ undocOpcodes ∧ (0xCB : Byte) ∈ undocOpcodes ∧
    (0xFD : Byte) ∈ undocOpcodes ∧ base.cfg.undocPolicy = .fault ∧
    (withCfg base { base.cfg with undocPolicy := .nop }).cfg.undocPolicy = .nop ∧
    (withCfg base { base.cfg with undocPolicy := .siliconAlias }).cfg.undocPolicy = .siliconAlias ∧
    (withCfg base { base.cfg with undocPolicy := .siliconAlias }).Inv ∧
    (withCfg base { base.cfg with undocPolicy := .siliconAlias }).Sound :=
  ⟨by decide, by decide, by decide, by decide, rfl, rfl, rfl, cold_inv rfl rfl rfl rfl rfl,
    low_sound (by intro x hx; cases hx) (by decide)⟩

end Sys2Proof.Tests
end

/-!
The control state: the parameters, `ie`, the two signals, the Bank Map and `mmuBlock` (R11, R115 to R119). Each shared
operation leaves it as it is; `exec_control` says what each instruction makes of it.
-/
namespace Sys2Proof.Machine

/-- The fields of the state that no load, store, arithmetic or control transfer writes. -/
structure ControlState where
  cfg : Config
  ie : Bool
  stop : Bool
  fatal : Bool
  bank : Vector Nat nblk
  mmuBlock : BitVec 4

/-- The control state of a machine state. -/
def State.control (s : State) : ControlState where
  cfg := s.cfg
  ie := s.ie
  stop := s.stop
  fatal := s.fatal
  bank := s.bank
  mmuBlock := s.mmuBlock

/-- What an instruction that completes makes of the control state (R115, R116, R118): four instructions write it. -/
def State.controlAfter (s : State) (i : Instr) : ControlState :=
  match i with
  | .ei => { s.control with ie := true }
  | .di => { s.control with ie := false }
  | .hlt => { s.control with stop := true }
  | .outp p => (s.bankSelect p s.a).control
  | _ => s.control

/-! ## The parts of `controlAfter` -/

@[simp] theorem State.controlAfter_cfg (s : State) (i : Instr) : (s.controlAfter i).cfg = s.cfg := by
  cases i with
  | outp p => exact s.bankSelect_cfg p s.a
  | _ => rfl

@[simp] theorem State.controlAfter_fatal (s : State) (i : Instr) : (s.controlAfter i).fatal = s.fatal := by
  cases i with
  | outp p => exact s.bankSelect_fatal p s.a
  | _ => rfl

theorem State.controlAfter_ie (s : State) {i : Instr} (hei : i ≠ .ei) (hdi : i ≠ .di) :
    (s.controlAfter i).ie = s.ie := by
  cases i with
  | ei => exact absurd rfl hei
  | di => exact absurd rfl hdi
  | outp p => exact s.bankSelect_ie p s.a
  | _ => rfl

theorem State.controlAfter_stop (s : State) {i : Instr} (hhlt : i ≠ .hlt) : (s.controlAfter i).stop = s.stop := by
  cases i with
  | hlt => exact absurd rfl hhlt
  | outp p => exact s.bankSelect_stop p s.a
  | _ => rfl

theorem State.controlAfter_bank (s : State) {i : Instr} (hout : ∀ p, i ≠ .outp p) :
    (s.controlAfter i).bank = s.bank ∧ (s.controlAfter i).mmuBlock = s.mmuBlock := by
  cases i with
  | outp p => exact absurd rfl (hout p)
  | _ => exact ⟨rfl, rfl⟩

/-! ## Updates that are not of the control state -/

theorem control_of_rest {s t : State} {pc sp : Addr} {m : MemSys}
    (h : t = { s with pc := pc, sp := sp, mem := m }) : t.control = s.control := by
  rw [h]; rfl

@[simp] theorem State.setReg_control (s : State) (r : Reg) (v : Byte) : (s.setReg r v).control = s.control := by
  cases r <;> rfl

@[simp] theorem State.setPair_control (s : State) (p : Pair) (v : Addr) : (s.setPair p v).control = s.control := by
  cases p <;> rfl

@[simp] theorem State.setStackPair_control (s : State) (p : StackPair) (v : Addr) :
    (s.setStackPair p v).control = s.control := by
  cases p <;> rfl

/-! ## Operations and outcomes that leave a control state -/

/-- If the operation answers, the control state is then `c`. -/
def Res.Leaves {α : Type} (x : Res α) (c : ControlState) : Prop := ∀ v t, x = .ok v t → t.control = c

/-- If the step gives a next state, its control state is `c`. -/
def NextLeaves (o : Host.Outcome State Fault Refusal) (c : ControlState) : Prop := ∀ t, o = .next t → t.control = c

theorem nextLeaves_next {s : State} {c : ControlState} (h : s.control = c) : NextLeaves (.next s) c := by
  rintro _ ⟨⟩
  exact h

theorem Res.Leaves.andThen {α β : Type} {x : Res α} {k : α → State → Res β} {c : ControlState} (h : x.Leaves c)
    (hk : ∀ v u, u.control = c → (k v u).Leaves c) : (x.andThen k).Leaves c := by
  intro v t e
  obtain ⟨a, u, hx, hku⟩ := Res.andThen_eq_ok.1 e
  exact hk a u (h a u hx) v t hku

theorem Res.Leaves.finish {α : Type} {x : Res α} {w : Extent} {k : α → State → Host.Outcome State Fault Refusal}
    {c : ControlState} (h : x.Leaves c) (hk : ∀ v u, u.control = c → NextLeaves (k v u) c) :
    NextLeaves (x.finish w k) c := by
  intro t e
  obtain ⟨a, u, hx, hku⟩ := Res.finish_eq_next.1 e
  exact hk a u (h a u hx) t hku

theorem Res.Leaves.outcome {x : Res Unit} {w : Extent} {c : ControlState} (h : x.Leaves c) :
    NextLeaves (x.outcome w) c :=
  h.finish fun _ _ => nextLeaves_next

section
variable {s : State} {c : ControlState} (hc : s.control = c)
include hc

theorem readByte_leaves (a : Addr) : (s.readByte a).Leaves c :=
  fun _ _ h => (control_of_rest (readByte_rest h)).trans hc

theorem writeByte_leaves (a : Addr) (v : Byte) : (s.writeByte a v).Leaves c :=
  fun _ _ h => (control_of_rest (writeByte_rest h)).trans hc

theorem readWord_leaves (a : Addr) : (s.readWord a).Leaves c :=
  fun _ _ h => (control_of_rest (readWord_rest h)).trans hc

theorem writeWord_leaves (a v : Addr) : (s.writeWord a v).Leaves c :=
  fun _ _ h => (control_of_rest (writeWord_rest h)).trans hc

theorem fetch16_leaves : s.fetch16.Leaves c :=
  fun _ _ h => (control_of_rest (fetch16_rest h)).trans hc

theorem push16_leaves (v : Addr) : (s.push16 v).Leaves c :=
  fun _ _ h => (control_of_rest (push16_rest h)).trans hc

theorem pop16_leaves : s.pop16.Leaves c :=
  fun _ _ h => (control_of_rest (pop16_rest h)).trans hc

theorem readOperand_leaves (o : Operand) : (s.readOperand o).Leaves c :=
  fun _ _ h => (control_of_rest (readOperand_rest h)).trans hc

theorem writeOperand_leaves (o : Operand) (v : Byte) : (s.writeOperand o v).Leaves c := by
  cases o with
  | reg r =>
    rintro _ _ ⟨⟩
    exact (s.setReg_control r v).trans hc
  | m => exact writeByte_leaves hc s.hl v

/-! ## Control transfers -/

theorem jump_leaves (a : Addr) : NextLeaves (s.jump a) c := nextLeaves_next hc

theorem callTo_leaves (a : Addr) : NextLeaves (s.callTo a) c :=
  fun _ h => (control_of_rest (callTo_rest h)).trans hc

theorem ret_leaves : NextLeaves s.ret c :=
  fun _ h => (control_of_rest (ret_rest h)).trans hc

theorem jumpIf_leaves (k : Cond) (a : Addr) : NextLeaves (s.jumpIf k a) c := by
  unfold State.jumpIf
  split
  · exact jump_leaves hc a
  · exact nextLeaves_next hc

theorem callIf_leaves (k : Cond) (a : Addr) : NextLeaves (s.callIf k a) c := by
  unfold State.callIf
  split
  · exact callTo_leaves hc a
  · exact nextLeaves_next hc

theorem retIf_leaves (k : Cond) : NextLeaves (s.retIf k) c := by
  unfold State.retIf
  split
  · exact ret_leaves hc
  · exact nextLeaves_next hc

/-! ## Undocumented opcodes -/

theorem undocAsAliased_leaves (op : Byte) : NextLeaves (s.undocAsAliased op) c := by
  unfold State.undocAsAliased
  split
  · exact (fetch16_leaves hc).finish fun a _ hu => jump_leaves hu a
  split
  · exact ret_leaves hc
  split
  · exact (fetch16_leaves hc).finish fun a _ hu => callTo_leaves hu a
  · exact nextLeaves_next hc

theorem execUndoc_leaves (op : Byte) : NextLeaves (execUndoc op s) c := by
  unfold execUndoc
  split
  · rintro _ ⟨⟩
  · exact nextLeaves_next hc
  · exact undocAsAliased_leaves hc op

end

/-! ## Every instruction -/

/-- The control state after an instruction that completes. -/
theorem exec_control (i : Instr) (s : State) : NextLeaves (exec i s) (s.controlAfter i) := by
  have hs : s.control = s.control := rfl
  cases i with
  | ei | di | hlt | outp _ => exact nextLeaves_next rfl
  | mov dst src => exact ((readOperand_leaves hs src).andThen fun v _ hu => writeOperand_leaves hu dst v).outcome
  | mvi dst d8 => exact (writeOperand_leaves hs dst d8).outcome
  | add src | adc src | sub src | sbb src | ana src | xra src | ora src | cmp src =>
    exact (readOperand_leaves hs src).finish fun _ _ hu => nextLeaves_next hu
  | inr dst | dcr dst =>
    exact (readOperand_leaves hs dst).finish fun _ _ ht =>
      (writeOperand_leaves ht dst _).finish fun _ _ hu => nextLeaves_next hu
  | lxi rp _ | inx rp | dcx rp => exact nextLeaves_next (s.setPair_control rp _)
  | lda _ | ldax _ => exact (readByte_leaves hs _).finish fun _ _ hu => nextLeaves_next hu
  | sta _ | stax _ => exact (writeByte_leaves hs _ _).outcome
  | lhld a16 => exact (readWord_leaves hs a16).finish fun _ _ hu => nextLeaves_next hu
  | shld a16 => exact (writeWord_leaves hs a16 s.hl).outcome
  | push rp => exact (push16_leaves hs (s.getStackPair rp)).outcome
  | pop rp => exact (pop16_leaves hs).finish fun v u hu => nextLeaves_next ((u.setStackPair_control rp v).trans hu)
  | xthl =>
    exact (readWord_leaves hs s.sp).finish fun _ t ht =>
      (writeWord_leaves ht t.sp t.hl).finish fun _ _ hu => nextLeaves_next hu
  | jnz _ | jz _ | jnc _ | jc _ | jpo _ | jpe _ | jp _ | jm _ => exact jumpIf_leaves hs _ _
  | cnz _ | cz _ | cnc _ | cc _ | cpo _ | cpe _ | cp _ | cm _ => exact callIf_leaves hs _ _
  | rnz | rz | rnc | rc | rpo | rpe | rp | rm => exact retIf_leaves hs _
  | call _ | rst _ => exact callTo_leaves hs _
  | ret => exact ret_leaves hs
  | undoc op => exact execUndoc_leaves hs op
  | xchg | adi _ | aci _ | sui _ | sbi _ | dad _ | daa | ani _ | xri _ | ori _ | cpi _ | cma | cmc | stc | rlc | rrc
  | ral | rar | sphl | jmp _ | pchl | inp _ | nop => exact nextLeaves_next rfl

/-- Settles O26: each clause is one part of the control state that `exec_control` gives. -/
theorem controlStateWriters : Obligations.ControlStateWriters := by
  unfold Obligations.ControlStateWriters
  intro i s t h
  have hc : t.control = s.controlAfter i := exec_control i s t h
  have hbank (hp : ∀ p, i ≠ .outp p) : t.control.bank = s.bank ∧ t.control.mmuBlock = s.mmuBlock :=
    hc ▸ s.controlAfter_bank hp
  exact ⟨(congrArg ControlState.cfg hc).trans (s.controlAfter_cfg i),
    (congrArg ControlState.fatal hc).trans (s.controlAfter_fatal i),
    fun hei hdi => (congrArg ControlState.ie hc).trans (s.controlAfter_ie hei hdi),
    fun hhlt => (congrArg ControlState.stop hc).trans (s.controlAfter_stop hhlt), hbank⟩

end Sys2Proof.Machine

/-!
The register file, the image as data, and the stack's round trip of PSW (R100, R103, R111, R126).
-/
namespace Sys2Proof.Machine

/-- Settles O36, by the laws of the register file and of `join`. -/
theorem registerFileReadsBack : Obligations.RegisterFileReadsBack := by
  unfold Obligations.RegisterFileReadsBack
  intro s
  exact ⟨s.getReg_setReg, fun r v => ⟨s.setReg_f r v, s.setReg_sp r v, s.setReg_pc r v⟩, s.getPair_setPair,
    s.getStackPair_setStackPair, join_toNat s.b s.c, join_toNat s.d s.e, join_toNat s.h s.l, join_toNat s.a s.f⟩

/-! ## Canonical images -/

theorem Memory.wf_cons {k : Nat} {v : Byte} {t : List Host.Cell} :
    Memory.wf ((k, v) :: t) = true ↔ v ≠ Memory.unlisted ∧ Memory.above k t = true ∧ Memory.wf t = true := by
  simp [Memory.wf, and_assoc]

@[simp] theorem Memory.read_cons_self (k : Nat) (v : Byte) (t : List Host.Cell) :
    Memory.read ((k, v) :: t) k = v := if_pos rfl

theorem Memory.read_cons_ne {k x : Nat} (h : x ≠ k) (v : Byte) (t : List Host.Cell) :
    Memory.read ((k, v) :: t) x = Memory.read t x := if_neg h

/-- The first address of a canonical list is the first that does not read as unlisted: a canonical list that holds the
same bytes starts no later. -/
theorem Memory.head_le_of_read_eq {k k' : Nat} {v v' : Byte} {t t' : List Host.Cell}
    (ha : Memory.wf ((k, v) :: t) = true) (hb : Memory.wf ((k', v') :: t') = true)
    (h : ∀ x, Memory.read ((k, v) :: t) x = Memory.read ((k', v') :: t') x) : k' ≤ k := by
  by_contra hlt
  have hbelow : Memory.read ((k', v') :: t') k = Memory.unlisted :=
    Memory.read_above _ k k hb (by simpa [Memory.above] using hlt) (Nat.le_refl k)
  have hv : v = Memory.unlisted := by rw [← hbelow, ← h k, Memory.read_cons_self]
  exact (Memory.wf_cons.1 ha).1 hv

/-- A canonical list that reads as unlisted everywhere is empty. -/
theorem Memory.not_unlisted_of_wf_cons {k : Nat} {v : Byte} {t : List Host.Cell}
    (hw : Memory.wf ((k, v) :: t) = true) : ¬ ∀ x, Memory.read ((k, v) :: t) x = Memory.unlisted := by
  intro h
  have hv : v = Memory.unlisted := by rw [← h k, Memory.read_cons_self]
  exact (Memory.wf_cons.1 hw).1 hv

/-- The tails of canonical lists with the same first address hold the same bytes where the lists do. -/
theorem Memory.read_tail_eq {k : Nat} {v v' : Byte} {t t' : List Host.Cell} (ha : Memory.wf ((k, v) :: t) = true)
    (hb : Memory.wf ((k, v') :: t') = true)
    (h : ∀ x, Memory.read ((k, v) :: t) x = Memory.read ((k, v') :: t') x) (x : Nat) :
    Memory.read t x = Memory.read t' x := by
  obtain ⟨-, habove, hwf⟩ := Memory.wf_cons.1 ha
  obtain ⟨-, habove', hwf'⟩ := Memory.wf_cons.1 hb
  by_cases hx : x ≤ k
  · rw [Memory.read_above t k x hwf habove hx, Memory.read_above t' k x hwf' habove' hx]
  · have hne : x ≠ k := by omega
    rw [← Memory.read_cons_ne hne v t, h x, Memory.read_cons_ne hne]

/-- Settles O16, by induction on one list: the first cells agree, and so do the tails. -/
theorem canonicalImagesEqual : Obligations.CanonicalImagesEqual := by
  unfold Obligations.CanonicalImagesEqual
  intro a
  induction a with
  | nil =>
    rintro (_ | ⟨⟨k, v⟩, t⟩) _ hb h
    · rfl
    · exact absurd (fun x => (h x).symm) (Memory.not_unlisted_of_wf_cons hb)
  | cons c t ih =>
    obtain ⟨k, v⟩ := c
    rintro (_ | ⟨⟨k', v'⟩, t'⟩) ha hb h
    · exact absurd h (Memory.not_unlisted_of_wf_cons ha)
    · obtain rfl : k = k' := Nat.le_antisymm (Memory.head_le_of_read_eq hb ha fun x => (h x).symm)
        (Memory.head_le_of_read_eq ha hb h)
      obtain rfl : v = v' := by simpa using h k
      rw [ih t' (Memory.wf_cons.1 ha).2.2 (Memory.wf_cons.1 hb).2.2 (Memory.read_tail_eq ha hb h)]

/-! ## PUSH PSW, then POP PSW -/

theorem push_next {s t : State} {p : StackPair} (hs : s.Inv) (h : exec (.push p) s = .next t) :
    Touched { s with sp := s.sp - 2 } t (s.storedWord (s.sp - 2) (s.getStackPair p) s.mem.logical) :=
  push16_ok hs (Res.outcome_eq_next.1 h)

theorem pop_next {s t : State} {p : StackPair} (hs : s.Inv) (h : exec (.pop p) s = .next t) :
    ∃ u, Touched { s with sp := s.sp + 2 } u s.mem.logical ∧ t = u.setStackPair p (s.guestWord s.sp) := by
  obtain ⟨_, u, hpop, ⟨⟩⟩ := Res.finish_eq_next.1 h
  obtain ⟨rfl, hu⟩ := pop16_ok hs hpop
  exact ⟨u, hu, rfl⟩

/-- Settles O51: the word popped is the word pushed, since neither A nor FLAGS has a part in reading it back. -/
theorem pswRoundTrip : Obligations.PswRoundTrip := by
  unfold Obligations.PswRoundTrip
  intro s t u a f hs _ hlo hhi hpush hpop
  have ht := push_next hs hpush
  have htsp : t.sp = s.sp - 2 := by rw [ht.rest]
  have hchanged : State.Inv { t with a := a, f := f } := ht.inv.congr rfl rfl rfl ht.inv.signals
  obtain ⟨x, hx, rfl⟩ := pop_next hchanged hpop
  have hxsp : x.sp = t.sp + 2 := by rw [hx.rest]
  have hword : State.guestWord { t with a := a, f := f } t.sp = s.psw := by
    rw [htsp]
    have hnext : s.sp - 2 + 1 = s.sp - 1 := by bv_omega
    exact guestWord_stored ht.bank ht.cfg ht.logical hlo (hnext ▸ hhi)
  show hi _ = s.a ∧ lo _ = s.f ∧ x.sp = s.sp
  rw [hword, hxsp, htsp]
  exact ⟨hi_join s.a s.f, lo_join s.a s.f, BitVec.sub_add_cancel s.sp 2⟩

end Sys2Proof.Machine

/-!
Where a step leads: by reads and writes of single bytes, and by updates that neither the memory system nor the control
state has a part in, to the state in which it ends or in which a load fails (R17, R401, R411). What each instruction does
to the memory system is said once, in `exec_ends`; what every step keeps of it is an induction over `LeadsTo`.
-/
namespace Sys2Proof.Machine

/-- From `s`, accesses to single bytes and updates of registers, `pc`, `sp` and the like lead to this state. -/
inductive State.LeadsTo (s : State) : State → Prop where
  | refl : s.LeadsTo s
  | read {u t : State} {a : Addr} {v : Byte} (hu : s.LeadsTo u) (h : u.readByte a = .ok v t) : s.LeadsTo t
  | write {u t : State} {a : Addr} {v : Byte} (hu : s.LeadsTo u) (h : u.writeByte a v = .ok () t) : s.LeadsTo t
  | update {u t : State} (hu : s.LeadsTo u) (hm : t.mem = u.mem) (hc : t.control = u.control) : s.LeadsTo t

/-- On the way from `s` a load fails its check, and the failure is raised in `t` (R235). -/
def State.FailsAt (s t : State) : Prop :=
  ∃ u a, s.LeadsTo u ∧ u.cacheResolve a = .raised .memoryIntegrity t

/-! ## What is kept on the way -/

theorem State.LeadsTo.control {s t : State} (h : s.LeadsTo t) : t.control = s.control := by
  induction h with
  | refl => rfl
  | read _ h ih => exact (control_of_rest (readByte_rest h)).trans ih
  | write _ h ih => exact (control_of_rest (writeByte_rest h)).trans ih
  | update _ _ hc ih => exact hc.trans ih

theorem State.Inv.of_control {s t : State} (h : s.Inv) (hm : t.mem = s.mem) (hc : t.control = s.control) : t.Inv :=
  h.congr hm (congrArg ControlState.cfg hc) (congrArg ControlState.bank hc) fun hfatal =>
    (congrArg ControlState.stop hc).trans (h.signals ((congrArg ControlState.fatal hc).symm.trans hfatal))

theorem State.LeadsTo.inv {s t : State} (h : s.LeadsTo t) (hs : s.Inv) : t.Inv := by
  induction h with
  | refl => exact hs
  | read _ h ih => exact (readByte_ok ih h).2.inv
  | write _ h ih => exact (writeByte_ok ih h).inv
  | update _ hm hc ih => exact ih.of_control hm hc

theorem readByte_written {u t : State} (hi : u.Inv) {a : Addr} {v : Byte} (h : u.readByte a = .ok v t) :
    WrittenBack u.mem t.mem := by
  unfold State.readByte at h
  split at h
  · cases h; exact .refl _
  · obtain ⟨_, _, hres, ⟨⟩⟩ := Res.andThen_eq_ok.1 h
    exact cacheResolve_written hi hres

theorem State.LeadsTo.written {s t : State} (h : s.LeadsTo t) (hs : s.Inv) : WrittenBack s.mem t.mem := by
  induction h with
  | refl => exact .refl _
  | read hu h ih => exact ih.trans (readByte_written (hu.inv hs) h)
  | write hu h ih => exact ih.trans (writeByte_written (hu.inv hs) h)
  | update _ hm _ ih => exact hm ▸ ih

/-- What an integrity failure leaves has changed the image by `writeBlock` calls only: before the failed load, in its
eviction, and where the instruction has gone on (R126, R411). -/
theorem State.FailsAt.written {s t : State} (h : s.FailsAt t) (hs : s.Inv) (w : Extent) :
    WrittenBack s.mem (t.leave w).mem := by
  obtain ⟨u, a, hu, hraised⟩ := h
  have hi := hu.inv hs
  obtain ⟨hload, -, hok, _, _, hlast, hfailed⟩ :=
    (cacheResolve_within (.refl w u) (.refl u) hi a).raised _ _ hraised
  obtain ⟨hleft, -, -⟩ := leave_kept hok hlast hfailed w
  exact ((hu.written hs).trans hload.image).trans hleft.image

/-! ## Operations -/

/-- Where the operation answers, `s` leads there; where it raises, a load has failed on the way. -/
structure Res.From {α : Type} (x : Res α) (s : State) : Prop where
  ok : ∀ v t, x = .ok v t → s.LeadsTo t
  raised : ∀ r t, x = .raised r t → r = .memoryIntegrity ∧ s.FailsAt t

theorem from_ok {α : Type} {s t : State} (h : s.LeadsTo t) (v : α) : (Res.ok v t).From s :=
  ⟨fun _ _ e => by cases e; exact h, fun _ _ e => by cases e⟩

theorem Res.From.andThen {α β : Type} {s : State} {x : Res α} {k : α → State → Res β} (h : x.From s)
    (hk : ∀ v u, s.LeadsTo u → (k v u).From s) : (x.andThen k).From s := by
  refine ⟨fun v t e => ?_, fun r t e => ?_⟩
  · obtain ⟨a, u, hx, hku⟩ := Res.andThen_eq_ok.1 e
    exact (hk a u (h.ok a u hx)).ok v t hku
  · rcases Res.andThen_eq_raised.1 e with hx | ⟨a, u, hx, hku⟩
    · exact h.raised r t hx
    · exact (hk a u (h.ok a u hx)).raised r t hku

section
variable {s u : State} (hu : s.LeadsTo u)
include hu

theorem failsAt_of_cacheResolve {a : Addr} {r : FaultReason} {t : State} (h : u.cacheResolve a = .raised r t) :
    r = .memoryIntegrity ∧ s.FailsAt t := by
  obtain ⟨rfl, -, -⟩ := cacheResolve_fails u a r t h
  exact ⟨rfl, u, a, hu, h⟩

theorem readByte_from (a : Addr) : (u.readByte a).From s := by
  refine ⟨fun v t h => hu.read h, fun r t h => ?_⟩
  unfold State.readByte at h
  split at h
  · cases h
  · rcases Res.andThen_eq_raised.1 h with h | ⟨_, _, _, ⟨⟩⟩
    exact failsAt_of_cacheResolve hu h

theorem writeByte_from (a : Addr) (v : Byte) : (u.writeByte a v).From s := by
  refine ⟨fun _ t h => hu.write h, fun r t h => ?_⟩
  unfold State.writeByte at h
  split at h
  · cases h
  · rcases Res.andThen_eq_raised.1 h with h | ⟨_, _, _, ⟨⟩⟩
    exact failsAt_of_cacheResolve hu h

theorem readWord_from (a : Addr) : (u.readWord a).From s :=
  (readByte_from hu a).andThen fun _ _ h => (readByte_from h _).andThen fun _ _ h => from_ok h _

theorem writeWord_from (a v : Addr) : (u.writeWord a v).From s :=
  (writeByte_from hu a _).andThen fun _ _ h => writeByte_from h _ _

theorem fetch8_from : u.fetch8.From s :=
  (readByte_from hu _).andThen fun _ t h => from_ok (t := { t with pc := t.pc + 1 }) (h.update rfl rfl) _

theorem fetch16_from : u.fetch16.From s :=
  (fetch8_from hu).andThen fun _ _ h => (fetch8_from h).andThen fun _ _ h => from_ok h _

theorem fetchInstr_from : u.fetchInstr.From s :=
  (fetch8_from hu).andThen fun op _ h => by
    cases decodeOp op with
    | bare i => exact from_ok h i
    | imm8 k => exact (fetch8_from h).andThen fun _ _ h => from_ok h _
    | imm16 k => exact (fetch16_from h).andThen fun _ _ h => from_ok h _

theorem push16_from (v : Addr) : (u.push16 v).From s :=
  writeWord_from (u := { u with sp := u.sp - 2 }) (hu.update rfl rfl) _ v

theorem pop16_from : u.pop16.From s :=
  (readWord_from hu _).andThen fun _ t h => from_ok (t := { t with sp := t.sp + 2 }) (h.update rfl rfl) _

theorem readOperand_from (o : Operand) : (u.readOperand o).From s := by
  cases o with
  | reg r => exact from_ok hu _
  | m => exact readByte_from hu u.hl

theorem writeOperand_from (o : Operand) (v : Byte) : (u.writeOperand o v).From s := by
  cases o with
  | reg r => exact from_ok (hu.update (u.setReg_mem r v) (u.setReg_control r v)) _
  | m => exact writeByte_from hu u.hl v

end

/-! ## Outcomes -/

/-- A next state, and the state an illegal opcode leaves, have the memory system of a state that `s` leads to; the
state an integrity failure leaves comes of a load that failed on the way (R411, R1101). -/
structure EndsFrom (s : State) (o : Host.Outcome State Fault Refusal) : Prop where
  next : ∀ t, o = .next t → ∃ u, s.LeadsTo u ∧ t.mem = u.mem
  illegal : ∀ t, o = .fault (.illegalOpcode t) → ∃ u, s.LeadsTo u ∧ t.mem = u.mem
  integrity : ∀ t, o = .fault (.memoryIntegrity t) → ∃ u w, s.FailsAt u ∧ t = u.leave w

theorem endsFrom_next {s u t : State} (hu : s.LeadsTo u) (hm : t.mem = u.mem) : EndsFrom s (.next t) where
  next := by rintro _ ⟨⟩; exact ⟨u, hu, hm⟩
  illegal := by rintro _ ⟨⟩
  integrity := by rintro _ ⟨⟩

theorem Res.From.finish {α : Type} {s : State} {x : Res α} {w : Extent}
    {k : α → State → Host.Outcome State Fault Refusal} (h : x.From s)
    (hk : ∀ v u, s.LeadsTo u → EndsFrom s (k v u)) : EndsFrom s (x.finish w k) := by
  cases x with
  | ok v u => exact hk v u (h.ok v u rfl)
  | raised r u =>
    obtain ⟨rfl, hfails⟩ := h.raised r u rfl
    exact ⟨by rintro _ ⟨⟩, by rintro _ ⟨⟩, by rintro _ ⟨⟩; exact ⟨u, w, hfails, rfl⟩⟩

theorem Res.From.outcome {s : State} {x : Res Unit} {w : Extent} (h : x.From s) : EndsFrom s (x.outcome w) :=
  h.finish fun _ _ hu => endsFrom_next hu rfl

section
variable {s u : State} (hu : s.LeadsTo u)
include hu

theorem callTo_ends (a : Addr) : EndsFrom s (u.callTo a) :=
  (push16_from hu u.pc).finish fun _ _ h => endsFrom_next h rfl

theorem ret_ends : EndsFrom s u.ret :=
  (pop16_from hu).finish fun _ _ h => endsFrom_next h rfl

theorem jumpIf_ends (k : Cond) (a : Addr) : EndsFrom s (u.jumpIf k a) := by
  unfold State.jumpIf
  split
  · exact endsFrom_next hu rfl
  · exact endsFrom_next hu rfl

theorem callIf_ends (k : Cond) (a : Addr) : EndsFrom s (u.callIf k a) := by
  unfold State.callIf
  split
  · exact callTo_ends hu a
  · exact endsFrom_next hu rfl

theorem retIf_ends (k : Cond) : EndsFrom s (u.retIf k) := by
  unfold State.retIf
  split
  · exact ret_ends hu
  · exact endsFrom_next hu rfl

theorem undocAsAliased_ends (op : Byte) : EndsFrom s (u.undocAsAliased op) := by
  unfold State.undocAsAliased
  split
  · exact (fetch16_from hu).finish fun _ _ h => endsFrom_next h rfl
  split
  · exact ret_ends hu
  split
  · exact (fetch16_from hu).finish fun a _ h => callTo_ends h a
  · exact endsFrom_next hu rfl

theorem execUndoc_ends (op : Byte) : EndsFrom s (execUndoc op u) := by
  unfold execUndoc
  split
  · exact ⟨by rintro _ ⟨⟩, by rintro _ ⟨⟩; exact ⟨u, hu, rfl⟩, by rintro _ ⟨⟩⟩
  · exact endsFrom_next hu rfl
  · exact undocAsAliased_ends hu op

/-- Every instruction ends from where its fetch led. -/
theorem exec_ends (i : Instr) : EndsFrom s (exec i u) := by
  cases i with
  | mov dst src => exact ((readOperand_from hu src).andThen fun v _ h => writeOperand_from h dst v).outcome
  | mvi dst d8 => exact (writeOperand_from hu dst d8).outcome
  | add src | adc src | sub src | sbb src | ana src | xra src | ora src | cmp src =>
    exact (readOperand_from hu src).finish fun _ _ h => endsFrom_next h rfl
  | inr dst | dcr dst =>
    exact (readOperand_from hu dst).finish fun _ _ h =>
      (writeOperand_from h dst _).finish fun _ _ h => endsFrom_next h rfl
  | lxi rp _ | inx rp | dcx rp => exact endsFrom_next hu (u.setPair_mem rp _)
  | lda _ | ldax _ => exact (readByte_from hu _).finish fun _ _ h => endsFrom_next h rfl
  | sta _ | stax _ => exact (writeByte_from hu _ _).outcome
  | lhld a16 => exact (readWord_from hu a16).finish fun _ _ h => endsFrom_next h rfl
  | shld a16 => exact (writeWord_from hu a16 u.hl).outcome
  | push rp => exact (push16_from hu (u.getStackPair rp)).outcome
  | pop rp => exact (pop16_from hu).finish fun v t h => endsFrom_next h (t.setStackPair_mem rp v)
  | xthl =>
    exact (readWord_from hu u.sp).finish fun _ t h =>
      (writeWord_from h t.sp t.hl).finish fun _ _ h => endsFrom_next h rfl
  | jnz _ | jz _ | jnc _ | jc _ | jpo _ | jpe _ | jp _ | jm _ => exact jumpIf_ends hu _ _
  | cnz _ | cz _ | cnc _ | cc _ | cpo _ | cpe _ | cp _ | cm _ => exact callIf_ends hu _ _
  | rnz | rz | rnc | rc | rpo | rpe | rp | rm => exact retIf_ends hu _
  | call _ | rst _ => exact callTo_ends hu _
  | ret => exact ret_ends hu
  | outp p => exact endsFrom_next hu (u.bankSelect_mem p u.a)
  | undoc op => exact execUndoc_ends hu op
  | xchg | adi _ | aci _ | sui _ | sbi _ | dad _ | daa | ani _ | xri _ | ori _ | cpi _ | cma | cmc | stc | rlc | rrc
  | ral | rar | sphl | jmp _ | pchl | inp _ | ei | di | hlt | nop => exact endsFrom_next hu rfl

end

/-! ## Steps -/

theorem step_ends (s : State) : EndsFrom s (step s) := by
  unfold step State.stepWith
  split
  · exact ⟨by rintro _ ⟨⟩, by rintro _ ⟨⟩, by rintro _ ⟨⟩⟩
  · exact (fetchInstr_from .refl).finish fun i _ hu => exec_ends hu i

theorem step_eq_next {s t : State} (h : step s = .next t) : ∃ i u, s.fetchInstr = .ok i u ∧ exec i u = .next t := by
  unfold step State.stepWith at h
  split at h
  · cases h
  · exact Res.finish_eq_next.1 h

/-- Settles O34: on the way to where a step ends, and in what an integrity failure leaves, the image is what the calls
made of it. -/
theorem imageIsLastWritten : Obligations.ImageIsLastWritten := by
  unfold Obligations.ImageIsLastWritten
  rintro s t hs (h | ⟨r, h, rfl⟩)
  · obtain ⟨u, hu, hm⟩ := (step_ends s).next t h
    exact hm ▸ hu.written hs
  · cases r with
    | memoryIntegrity t =>
      obtain ⟨u, w, hfails, rfl⟩ := (step_ends s).integrity t h
      exact hfails.written hs w
    | illegalOpcode t =>
      obtain ⟨u, hu, hm⟩ := (step_ends s).illegal t h
      exact hm ▸ hu.written hs

/-! ## The invariant -/

/-- What an instruction makes of the Bank Map and the signals meets the invariant (R117, R118, R225). -/
theorem State.Inv.controlAfter {s : State} (h : s.Inv) (i : Instr) :
    (∀ k : BitVec 4, (s.controlAfter i).bank[k.toNat]'k.isLt < s.cfg.banks) ∧
      ((s.controlAfter i).fatal = true → (s.controlAfter i).stop = true) := by
  cases i with
  | hlt => exact ⟨h.banks, fun _ => rfl⟩
  | outp p =>
    have hsel := h.bankSelect p s.a
    exact ⟨s.bankSelect_cfg p s.a ▸ hsel.banks, hsel.signals⟩
  | _ => exact ⟨h.banks, h.signals⟩

/-- Every instruction that completes keeps the invariant: its accesses do, and so does what it makes of the control
state. -/
theorem exec_inv {i : Instr} {s t : State} (hs : s.Inv) (h : exec i s = .next t) : t.Inv := by
  obtain ⟨u, hu, hm⟩ := (exec_ends .refl i).next t h
  have hi := hu.inv hs
  have hc : t.control = s.controlAfter i := exec_control i s t h
  have hcfg : t.cfg = s.cfg := (congrArg ControlState.cfg hc).trans (s.controlAfter_cfg i)
  have hucfg : u.cfg = s.cfg := congrArg ControlState.cfg hu.control
  obtain ⟨hbanks, hsignals⟩ := hs.controlAfter i
  rw [← hc] at hbanks hsignals
  exact
    { mem := hm ▸ hi.mem
      lineCount := by rw [hm, hcfg, ← hucfg]; exact hi.lineCount
      tags := by rw [hm, hcfg, ← hucfg]; exact hi.tags
      config := hcfg ▸ hs.config
      banks := by rw [hcfg]; exact hbanks
      signals := hsignals }

/-- Settles O20: the fetch leads to a state with the invariant, and the instruction keeps it. -/
theorem stepKeepsInvariant : Obligations.StepKeepsInvariant := by
  unfold Obligations.StepKeepsInvariant
  intro s t hs h
  obtain ⟨i, u, hfetch, hexec⟩ := step_eq_next h
  exact exec_inv (((fetchInstr_from .refl).ok i u hfetch).inv hs) hexec

end Sys2Proof.Machine

/-!
What every step keeps of the storage: the premise of R237, the bytes of the banks that are not mapped, and the backend's
blocks outside the core's range (R220, R222, R240). Each is an induction over `LeadsTo`.
-/
namespace Sys2Proof.Machine

/-- A step leads to the memory system it leaves, and writes no parameter (R11). -/
theorem step_leadsTo {s t : State} (h : step s = .next t) : ∃ u, s.LeadsTo u ∧ t.mem = u.mem ∧ t.cfg = s.cfg := by
  obtain ⟨i, v, hfetch, hexec⟩ := step_eq_next h
  obtain ⟨u, hu, hm⟩ := (step_ends s).next t h
  have hcfg : t.cfg = v.cfg :=
    (congrArg ControlState.cfg (exec_control i v t hexec)).trans (v.controlAfter_cfg i)
  exact ⟨u, hu, hm, hcfg.trans (congrArg ControlState.cfg ((fetchInstr_from .refl).ok i v hfetch).control)⟩

theorem State.LeadsTo.cfg {s t : State} (h : s.LeadsTo t) : t.cfg = s.cfg := congrArg ControlState.cfg h.control

theorem State.LeadsTo.bank {s t : State} (h : s.LeadsTo t) : t.bank = s.bank := congrArg ControlState.bank h.control

/-- What is written back on the way carries its checksum (R232, R237). -/
theorem State.LeadsTo.sound {s t : State} (h : s.LeadsTo t) (hs : s.Inv) (hw : s.Sound) : t.Sound := by
  induction h with
  | refl => exact hw
  | read hu h ih => exact (readByte_ok (hu.inv hs) h).2.sound ih
  | write hu h ih => exact (writeByte_ok (hu.inv hs) h).sound ih
  | update _ hm hc ih => exact ih.congr hm (congrArg ControlState.cfg hc)

/-- Settles O21: the accesses of a step keep the storage sound, and its parameters stand. -/
theorem stepKeepsSound : Obligations.StepKeepsSound := by
  unfold Obligations.StepKeepsSound
  intro s t hs hw h
  obtain ⟨u, hu, hm, hcfg⟩ := step_leadsTo h
  exact (hu.sound hs hw).congr hm (hcfg.trans hu.cfg.symm)

/-- A store changes no block but the one its address names (R220). -/
theorem stored_of_blk_ne {s : State} {a : Addr} {n : Nat} (h : s.blk a ≠ n) (v : Byte)
    (L : Nat → Fin lineSize → Byte) (j : Fin lineSize) : s.stored a v L n j = L n j :=
  if_neg fun e => h (congrArg Prod.fst e.2).symm

/-- On the way the Bank Map stands, so a block that no guest address names keeps its logical content (R220, R222). -/
theorem State.LeadsTo.logical_of_unmapped {s t : State} (h : s.LeadsTo t) (hs : s.Inv) {n : Nat}
    (hn : ∀ a : Addr, s.blk a ≠ n) (j : Fin lineSize) : t.mem.logical n j = s.mem.logical n j := by
  induction h with
  | refl => rfl
  | read hu h ih => exact ((readByte_ok (hu.inv hs) h).2.logical n j).trans ih
  | @write u t a v hu h ih =>
    have ha : u.blk a ≠ n := by
      rw [blk_congr hu.bank (by rw [hu.cfg])]
      exact hn a
    exact ((writeByte_ok (hu.inv hs) h).logical n j).trans ((stored_of_blk_ne ha v _ j).trans ih)
  | update _ hm _ ih => exact hm ▸ ih

/-- On the way only blocks of the core's range are written back (R222, R240). -/
theorem State.LeadsTo.outside {s t : State} (h : s.LeadsTo t) (hs : s.Inv) {n : Nat} (hn : ¬ inCore s.cfg n) :
    blockOf t.mem.image n = blockOf s.mem.image n := by
  induction h with
  | refl => rfl
  | read hu h ih => exact ((readByte_ok (hu.inv hs) h).2.outside n (hu.cfg ▸ hn)).trans ih
  | write hu h ih => exact ((writeByte_ok (hu.inv hs) h).outside n (hu.cfg ▸ hn)).trans ih
  | update _ hm _ ih => exact hm ▸ ih

/-- Settles O24: both are kept on the way to the memory system the step leaves. -/
theorem otherBlocksUntouched : Obligations.OtherBlocksUntouched := by
  unfold Obligations.OtherBlocksUntouched
  intro s t n hs h
  obtain ⟨u, hu, hm, -⟩ := step_leadsTo h
  rw [hm]
  exact ⟨fun hn j => hu.logical_of_unmapped hs hn j, hu.outside hs⟩

end Sys2Proof.Machine

/-!
The translation and the ceiling (R210 to R213, R220), the checksum (R241), and a hit, a miss and a sequence of loads in
the cache (R231 to R234).
-/
namespace Sys2Proof.Machine

theorem unmapped_iff (s : State) (a : Addr) : s.unmapped a = true ↔ s.cfg.maxAddr.toNat < a.toNat := by
  simp [State.unmapped, BitVec.lt_def]

theorem readByte_unmapped {s : State} {a : Addr} (h : s.unmapped a = true) : s.readByte a = .ok 0xFF s := if_pos h

theorem writeByte_unmapped {s : State} {a : Addr} (h : s.unmapped a = true) (v : Byte) : s.writeByte a v = .ok () s :=
  if_pos h

/-- Settles O9: the two operations test the ceiling first. -/
theorem ceilingAccess : Obligations.CeilingAccess := by
  unfold Obligations.CeilingAccess
  intro s a v
  have hu := unmapped_iff s a
  exact ⟨hu, fun h => ⟨readByte_unmapped (hu.2 h), writeByte_unmapped (hu.2 h) v⟩⟩

theorem bankIndex_toNat (a : Addr) : (bankIndex a).toNat = a.toNat / 4096 := by
  have := a.isLt
  simp only [bankIndex, BitVec.extractLsb'_toNat, Nat.shiftRight_eq_div_pow]
  omega

/-- Settles O10: a bank's 65536 bytes are whole blocks, so the bank does not move the byte in the block. -/
theorem translationFormula : Obligations.TranslationFormula := by
  unfold Obligations.TranslationFormula
  intro s a
  have hlt : a.toNat / 4096 < nblk := bankIndex_toNat a ▸ (bankIndex a).isLt
  have hbank : s.bankOf a = s.bank[a.toNat / 4096] := by
    simp only [State.bankOf, bankIndex_toNat]
  refine ⟨hlt, ?_, ?_⟩
  · rw [State.blk, State.lin, hbank]
  · rw [off_val]
    generalize s.bank[a.toNat / 4096] = bank
    simp only [lineSize]
    omega

/-! ## The fetch above the ceiling -/

theorem fetch8_unmapped {s : State} (h : s.unmapped s.pc = true) : s.fetch8 = .ok 0xFF { s with pc := s.pc + 1 } := by
  rw [State.fetch8, readByte_unmapped h, Res.andThen_ok]

theorem step_eq_finish {s : State} (h : s.stop = false) : step s = s.fetchInstr.finish s.fetchExtent exec := by
  simp [step, State.stepWith, h]

theorem step_of_fetch {s t : State} {i : Instr} (hstop : s.stop = false) (h : s.fetchInstr = .ok i t) :
    step s = exec i t := by
  rw [step_eq_finish hstop, h, Res.finish_ok]

/-- Settles O8: the opcode byte is 0xFF, which is RST 7, and RST 7 calls 0x0038. -/
theorem fetchAboveCeilingIsRst7 : Obligations.FetchAboveCeilingIsRst7 := by
  unfold Obligations.FetchAboveCeilingIsRst7
  intro s hpc
  have hfetch : s.fetch8 = .ok 0xFF { s with pc := s.pc + 1 } := fetch8_unmapped (decide_eq_true hpc)
  have hinstr : s.fetchInstr = .ok (.rst 7) { s with pc := s.pc + 1 } := by
    rw [State.fetchInstr, hfetch, Res.andThen_ok]
    rfl
  refine ⟨hfetch, fun hstop => ⟨step_of_fetch hstop hinstr, fun hs hw => ?_⟩⟩
  have hnext : State.Inv { s with pc := s.pc + 1 } := hs.congr rfl rfl rfl hs.signals
  obtain ⟨t, hcall, ht⟩ := callTo_total hnext (hw.congr rfl rfl)
  refine ⟨t.mem, ht.logical, ?_⟩
  calc step s = exec (.rst 7) { s with pc := s.pc + 1 } := step_of_fetch hstop hinstr
    _ = .next { t with pc := 0x0038 } := hcall 0x0038
    _ = _ := by rw [ht.rest]

/-! ## The checksum -/

/-- The checksum is the XOR of the bytes, from either end (R241). -/
theorem checksum_eq_foldr (d : Vector Byte lineSize) : checksum d = d.toList.foldr (fun y z => y ^^^ z) 0 :=
  List.foldl_eq_foldr

/-- A byte of a list and its checksum: the byte can be taken out of the XOR. -/
theorem foldr_xor_set (xs : List Byte) (k : Nat) (hk : k < xs.length) (v : Byte) :
    (xs.set k v).foldr (fun y z => y ^^^ z) 0 = v ^^^ (xs[k] ^^^ xs.foldr (fun y z => y ^^^ z) 0) := by
  induction xs generalizing k with
  | nil => cases hk
  | cons x xs ih =>
    cases k with
    | zero => simp
    | succ k =>
      have := ih k (Nat.lt_of_succ_lt_succ hk)
      simp only [List.set_cons_succ, List.foldr_cons, List.getElem_cons_succ, this]
      ac_rfl

theorem checksum_set (d : Vector Byte lineSize) (j : Fin lineSize) (v : Byte) :
    checksum (d.set j v) = v ^^^ (d[j] ^^^ checksum d) := by
  rw [checksum_eq_foldr, checksum_eq_foldr, Vector.toList_set, foldr_xor_set _ _ (by simp)]
  simp

/-- Settles O15: a byte enters the XOR once, so the sum changes with it. -/
theorem oneChangedByteIsDetected : Obligations.OneChangedByteIsDetected := by
  unfold Obligations.OneChangedByteIsDetected
  intro x j v hx
  have hcheck : checksum x.data = x.check := by simpa [Buffer.sound] using hx
  refine ⟨fun hv => ?_, fun hv => ?_⟩
  · refine beq_eq_false_iff_ne.2 fun e => hv ?_
    have hsum : v ^^^ x.data[j] ^^^ x.check = 0#8 ^^^ x.check := by
      rw [BitVec.zero_xor, BitVec.xor_assoc, ← hcheck, ← checksum_set, hcheck]
      exact e
    exact BitVec.xor_eq_zero_iff.1 (BitVec.xor_left_inj x.check |>.1 hsum)
  · exact beq_eq_false_iff_ne.2 fun e => hv (e.symm.trans hcheck)

/-! ## A hit -/

theorem lookup_of_first {m : MemSys} {n i : Nat} {x : Line} (hx : m.lines[i]? = some x) (ht : x.tag = some n)
    (hfirst : ∀ k y, k < i → m.lines[k]? = some y → y.tag ≠ some n) : m.lookup n = some i := by
  obtain ⟨hi, rfl⟩ := List.getElem?_eq_some_iff.1 hx
  refine List.findIdx?_eq_some_iff_getElem.2 ⟨hi, (Line.holds_iff _ n).2 ht, fun k hk hh => ?_⟩
  exact hfirst k _ hk (List.getElem?_eq_getElem (hk.trans hi)) ((Line.holds_iff _ n).1 hh)

/-- A promotion exchanges the line with the next one (R231). -/
theorem swapUp_eq_set : ∀ {i : Nat} {ls : List Line} {x y : Line}, ls[i]? = some x → ls[i + 1]? = some y →
    swapUp i ls = (ls.set i y).set (i + 1) x
  | 0, a :: b :: t, x, y, hx, hy => by cases hx; cases hy; rfl
  | i + 1, a :: t, x, y, hx, hy => by
    rw [List.getElem?_cons_succ] at hx hy
    exact congrArg (a :: ·) (swapUp_eq_set hx hy)

/-- The MRU line stays (R231). -/
theorem swapUp_of_last : ∀ {i : Nat} {ls : List Line}, ls[i + 1]? = none → swapUp i ls = ls
  | 0, [], _ => rfl
  | 0, [_], _ => rfl
  | _ + 1, [], _ => rfl
  | i + 1, a :: t, h => congrArg (a :: ·) (swapUp_of_last (by rwa [List.getElem?_cons_succ] at h))

/-- Settles O12: the lookup finds the first line with the tag, and `Promote` moves it. -/
theorem hitPromotesOneStep : Obligations.HitPromotesOneStep := by
  unfold Obligations.HitPromotesOneStep
  intro m n i x hx ht hfirst
  have hres : m.resolve n = .ready (m.promote i).1 (m.promote i).2 := by
    rw [MemSys.resolve, lookup_of_first hx ht hfirst]
  refine ⟨fun y hy => ?_, fun hnone => ?_⟩
  · obtain ⟨hlt, -⟩ := List.getElem?_eq_some_iff.1 hy
    rw [hres, MemSys.promote, if_pos hlt, swapUp_eq_set hx hy]
  · rw [hres, MemSys.promote, if_neg (by simpa using hnone), swapUp_of_last hnone]

/-! ## A miss -/

theorem flushVictim_of_dirty {m : MemSys} {x : Line} {t : List Line} (hl : m.lines = x :: t) {k : Nat}
    (ht : x.tag = some k) (hd : x.dirty = true) : m.flushVictim = m.writeBlock k (Buffer.ofData x.data) := by
  simp only [MemSys.flushVictim, hl, ht, hd]

theorem flushVictim_of_clean {m : MemSys} {x : Line} {t : List Line} (hl : m.lines = x :: t)
    (h : x.dirty = false ∨ x.tag = none) : m.flushVictim = m := by
  rcases h with h | h
  · cases ht : x.tag <;> simp only [MemSys.flushVictim, hl, ht, h]
  · simp only [MemSys.flushVictim, hl, h]

/-- A miss on a block whose checksum in the image, after the victim's write-back, is right (R232 to R234). -/
theorem resolve_miss_eq {m : MemSys} {x : Line} {t : List Line} (hl : m.lines = x :: t) {n : Nat}
    (hno : ∀ y ∈ m.lines, y.tag ≠ some n) (hs : (blockOf m.flushVictim.image n).sound = true) :
    m.resolve n = .ready t.length
      { lines := t ++ [{ tag := some n, dirty := false, data := (blockOf m.flushVictim.image n).data }]
        image := m.flushVictim.image
        calls := m.flushVictim.calls ++ [.readBlock n] } := by
  rw [MemSys.resolve, lookup_none.2 hno]
  simp only [miss_eq m hl n, hs, if_true]

/-- Settles O13: the load reads the image the write-back of the victim has left, which holds the block asked for as
before. -/
theorem missEvictsAndLoads : Obligations.MissEvictsAndLoads := by
  unfold Obligations.MissEvictsAndLoads
  intro m n x t hm hl hno hs
  have hblock : blockOf m.flushVictim.image n = blockOf m.image n := by
    rw [(flushVictim_image hm.imageWf hl).2, if_neg fun e => hno x (by simp [hl]) e.1]
  refine ⟨m.flushVictim.image, m.flushVictim.calls, ?_, fun k hd ht => ?_, fun h => ?_⟩
  · rw [resolve_miss_eq hl hno (hblock.symm ▸ hs), hblock]
  · rw [flushVictim_of_dirty hl ht hd]
    have hput := blockOf_putBlock hm.imageWf k (Buffer.ofData x.data)
    refine ⟨rfl, ?_, ?_, fun j hj => (hput j).trans (if_neg hj)⟩
    · exact congrArg Buffer.data ((hput k).trans (if_pos rfl))
    · exact (congrArg Buffer.check ((hput k).trans (if_pos rfl))).trans (checksum_eq_foldr x.data)
  · rw [flushVictim_of_clean hl h]
    exact ⟨rfl, rfl⟩

/-! ## Loads into a clean cache -/

/-- In a clean cache the victim is not written back: the tags move down by one, and the block's comes last. -/
theorem resolve_clean {m : MemSys} (hclean : ∀ x ∈ m.lines, x.dirty = false) (hne : m.lines ≠ []) {n : Nat}
    (hno : some n ∉ m.lines.map fun x => x.tag) (hs : (blockOf m.image n).sound = true) :
    ∃ i u, m.resolve n = .ready i u ∧ u.image = m.image ∧ (∀ x ∈ u.lines, x.dirty = false) ∧
      u.lines.map (fun x => x.tag) = (m.lines.map (fun x => x.tag) ++ [some n]).drop 1 := by
  obtain ⟨x, t, hl⟩ := List.exists_cons_of_ne_nil hne
  have hflush : m.flushVictim = m := flushVictim_of_clean hl (.inl (hclean x (by simp [hl])))
  have hres := resolve_miss_eq hl (fun y hy e => hno (List.mem_map.2 ⟨y, hy, e⟩)) (hflush.symm ▸ hs)
  refine ⟨_, _, hres, by rw [hflush], fun y hy => ?_, by simp [hl]⟩
  rcases List.mem_append.1 hy with hy | hy
  · exact hclean y (by simp [hl, hy])
  · rw [List.mem_singleton.1 hy]

/-- Requests for distinct blocks that no line of a clean cache holds: each moves the tags down by one and puts its own
last (R233, R234). -/
theorem requestAll_clean : ∀ (ks : List Nat) {m : MemSys}, (∀ x ∈ m.lines, x.dirty = false) → m.lines ≠ [] →
    ks.Nodup → (∀ k ∈ ks, some k ∉ m.lines.map fun x => x.tag) → (∀ k ∈ ks, (blockOf m.image k).sound = true) →
    ∃ u, m.requestAll ks = some u ∧ u.image = m.image ∧
      u.lines.map (fun x => x.tag) = (m.lines.map (fun x => x.tag) ++ ks.map some).drop ks.length
  | [], m, _, _, _, _, _ => ⟨m, rfl, rfl, by simp⟩
  | k :: ks, m, hclean, hne, hnd, hno, hs => by
    obtain ⟨hk, hnd⟩ := List.nodup_cons.1 hnd
    obtain ⟨i, v, hres, himage, hclean', htags⟩ := resolve_clean hclean hne (hno k (by simp)) (hs k (by simp))
    have hlen := congrArg List.length htags
    have hne' : v.lines ≠ [] := by
      intro e
      simp [e, hne] at hlen
    have hno' : ∀ j ∈ ks, some j ∉ v.lines.map fun x => x.tag := by
      intro j hj h
      rw [htags] at h
      rcases List.mem_append.1 (List.mem_of_mem_drop h) with h | h
      · exact hno j (by simp [hj]) h
      · cases List.mem_singleton.1 h
        exact hk hj
    have hs' : ∀ j ∈ ks, (blockOf v.image j).sound = true := fun j hj => himage ▸ hs j (by simp [hj])
    obtain ⟨u, hreq, himage', htags'⟩ := requestAll_clean ks hclean' hne' hnd hno' hs'
    refine ⟨u, by rw [MemSys.requestAll, hres]; exact hreq, himage'.trans himage, ?_⟩
    obtain ⟨x, t, hl⟩ := List.exists_cons_of_ne_nil hne
    rw [htags', htags, hl]
    simp

/-- Settles O14: the empty lines move out first, and then the block loaded first. -/
theorem coldCacheEvictsFirstLoaded : Obligations.ColdCacheEvictsFirstLoaded := by
  unfold Obligations.ColdCacheEvictsFirstLoaded
  intro m b bs n hcold hlen hnd hs
  have htags : m.lines.map (fun x => x.tag) = List.replicate (b :: bs).length none := by
    rw [hlen]
    exact List.map_eq_replicate_iff.2 fun x hx => (hcold x hx).1
  have hclean : ∀ x ∈ m.lines, x.dirty = false := fun x hx => (hcold x hx).2
  have hne : m.lines ≠ [] := by
    rintro e
    simp [e] at hlen
  have hno : ∀ k : Nat, some k ∉ m.lines.map fun x => x.tag := by simp [htags]
  obtain ⟨u, hu, -, hutags⟩ := requestAll_clean (b :: bs) hclean hne (List.nodup_append.1 hnd).1 (fun k _ => hno k)
    fun k hk => hs k (List.mem_append_left _ hk)
  obtain ⟨v, hv, himage, hvtags⟩ := requestAll_clean (b :: bs ++ [n]) hclean hne hnd (fun k _ => hno k) hs
  refine ⟨u, v, hu, ?_, hv, ?_, himage⟩
  · rw [hutags, htags]
    simp
  · rw [hvtags, htags, List.length_append, ← List.drop_drop]
    simp

/-! ## Sequences of accesses -/

/-- What R250 expects of a sequence looks at the translation state only. -/
theorem expectedReads_congr : ∀ (xs : List Access) {s t : State}, t.bank = s.bank → t.cfg = s.cfg →
    t.mmuBlock = s.mmuBlock → ∀ L, t.expectedReads L xs = s.expectedReads L xs
  | [], _, _, _, _, _, _ => rfl
  | .read a :: xs, s, t, hb, hc, hm, L => by
    have hloc : t.loc a = s.loc a := by rw [State.loc, State.loc, blk_congr hb (by rw [hc])]
    have hu : t.unmapped a = s.unmapped a := by rw [State.unmapped, State.unmapped, hc]
    rw [State.expectedReads, State.expectedReads, hloc, hu, expectedReads_congr xs hb hc hm L]
  | .write a v :: xs, s, t, hb, hc, hm, L => by
    simp only [State.expectedReads, stored_congr hb hc, expectedReads_congr xs hb hc hm]
  | .select p v :: xs, s, t, hb, hc, hm, L => by
    obtain ⟨hb', hm'⟩ := bankSelect_congr hb hm hc p v
    exact expectedReads_congr xs hb' (by simp [hc]) hm' L

theorem Touched.expectedReads {s t : State} {L : Nat → Fin lineSize → Byte} (h : Touched s t L) (xs : List Access) :
    t.expectedReads t.mem.logical xs = s.expectedReads L xs := by
  rw [h.logical_eq]
  exact expectedReads_congr xs h.bank h.cfg (by rw [h.rest]) L

/-- Settles O11, by induction on the sequence: each access leaves the logical memory that R250 expects. -/
theorem memoryIsSequential : Obligations.MemoryIsSequential := by
  unfold Obligations.MemoryIsSequential
  intro s xs
  induction xs generalizing s with
  | nil => exact fun _ _ => ⟨s, rfl⟩
  | cons x xs ih =>
    intro hs hw
    cases x with
    | read a =>
      obtain ⟨t, hread, ht⟩ := readByte_total hs hw a
      obtain ⟨u, hu⟩ := ih t ht.inv (ht.sound hw)
      refine ⟨u, ?_⟩
      rw [State.runAccesses, hread, Res.andThen_ok, hu, Res.andThen_ok, ht.expectedReads]
      rfl
    | write a v =>
      obtain ⟨t, hwrite, ht⟩ := writeByte_total hs hw a v
      obtain ⟨u, hu⟩ := ih t ht.inv (ht.sound hw)
      refine ⟨u, ?_⟩
      rw [State.runAccesses, hwrite, Res.andThen_ok, hu, ht.expectedReads]
      rfl
    | select p v =>
      obtain ⟨u, hu⟩ := ih (s.bankSelect p v) (hs.bankSelect p v) (hw.congr (by simp) (by simp))
      refine ⟨u, ?_⟩
      rw [State.runAccesses, hu, State.bankSelect_mem]
      rfl

end Sys2Proof.Machine

/-!
The outcome of an instruction and of a step is that of its accesses (R205, R401, R1103): a next state where they answer,
and the integrity failure where one of them loads a line with a wrong checksum. `exec_endsAs` says it once for every
instruction.
-/
namespace Sys2Proof.Machine

/-! ## Outcomes of sequences -/

/-- The outcome is that of these accesses: a next state with the memory system they leave, or, where one of them raises,
the integrity failure with both signals set (R1100). -/
def EndsAs (o : Host.Outcome State Fault Refusal) (s : State) (xs : List Access) : Prop :=
  (∃ vs u t, s.runAccesses xs = .ok vs u ∧ o = .next t ∧ t.mem = u.mem) ∨
    ∃ u t, s.runAccesses xs = .raised .memoryIntegrity u ∧ o = .fault (.memoryIntegrity t) ∧ t.stop = true ∧
      t.fatal = true

theorem SameForAccess.symm {s t : State} (h : SameForAccess s t) : SameForAccess t s :=
  ⟨h.mem.symm, h.bank.symm, h.cfg.symm, h.mmuBlock.symm⟩

theorem endsAs_next {s t : State} (h : t.mem = s.mem) : EndsAs (.next t) s [] := .inl ⟨[], s, t, rfl, rfl, h⟩

/-- The outcome of a sequence is that from any state that accesses see alike. -/
theorem EndsAs.from {o : Host.Outcome State Fault Refusal} {s t : State} {xs : List Access} (h : EndsAs o t xs)
    (hst : SameForAccess s t) : EndsAs o s xs := by
  have alike := runAccesses_congr xs hst
  rcases h with ⟨vs, u, v, hrun, ho, hm⟩ | ⟨u, v, hrun, ho⟩
  · rw [hrun] at alike
    cases e : s.runAccesses xs with
    | raised r y => rw [e] at alike; exact alike.elim
    | ok ws y =>
      rw [e] at alike
      exact .inl ⟨ws, y, v, e, ho, hm.trans alike.2.mem⟩
  · rw [hrun] at alike
    cases e : s.runAccesses xs with
    | ok ws y => rw [e] at alike; exact alike.elim
    | raised r y =>
      rw [e] at alike
      obtain rfl : FaultReason.memoryIntegrity = r := alike
      exact .inr ⟨y, v, e, ho⟩

/-- The accesses of an operation, and then those of the rest of the step. -/
theorem Res.Makes.finish {α : Type} {x : Res α} {s : State} {xs ys : List Access} {w : Extent}
    {k : α → State → Host.Outcome State Fault Refusal} (h : x.Makes s xs) (hf : x.FailsAlone)
    (hk : ∀ v t, x = .ok v t → EndsAs (k v t) t ys) : EndsAs (x.finish w k) s (xs ++ ys) := by
  cases x with
  | ok v t =>
    obtain ⟨vs, u, hrun, hut⟩ := h.ok v t rfl
    simp only [EndsAs, runAccesses_append, hrun, Res.andThen_ok, Res.finish_ok]
    rcases (hk v t rfl).from hut with ⟨ws, y, z, hrest, ho, hm⟩ | ⟨y, z, hrest, ho⟩
    · exact .inl ⟨vs ++ ws, y, z, by rw [hrest, Res.andThen_ok], ho, hm⟩
    · exact .inr ⟨y, z, by rw [hrest, Res.andThen_raised], ho⟩
  | raised r t =>
    obtain ⟨rfl, hstop, hfatal⟩ := hf r t rfl
    obtain ⟨u, hrun⟩ := h.raised .memoryIntegrity t rfl
    exact .inr ⟨u, t.leave w, by rw [runAccesses_append, hrun, Res.andThen_raised], rfl, hstop, hfatal⟩

/-- The rest of the step makes no access. -/
theorem Res.Makes.finish_last {α : Type} {x : Res α} {s : State} {xs : List Access} {w : Extent}
    {k : α → State → Host.Outcome State Fault Refusal} (h : x.Makes s xs) (hf : x.FailsAlone)
    (hk : ∀ v t, x = .ok v t → EndsAs (k v t) t []) : EndsAs (x.finish w k) s xs := by
  have := h.finish (w := w) hf hk
  rwa [List.append_nil] at this

theorem Res.Makes.outcome {x : Res Unit} {s : State} {xs : List Access} {w : Extent} (h : x.Makes s xs)
    (hf : x.FailsAlone) : EndsAs (x.outcome w) s xs :=
  h.finish_last hf fun _ _ _ => endsAs_next rfl

theorem Res.outcome_andThen {α : Type} (x : Res α) (k : α → State → Res Unit) (w : Extent) :
    (x.andThen k).outcome w = x.finish w fun v t => (k v t).outcome w := by
  cases x <;> rfl

/-! ## The instructions -/

theorem callTo_endsAs (s : State) (a : Addr) : EndsAs (s.callTo a) s (writesWord (s.sp - 2) s.pc) :=
  (push16_makes s s.pc).finish_last (push16_fails s s.pc) fun _ _ _ => endsAs_next rfl

theorem ret_endsAs (s : State) : EndsAs s.ret s (readsWord s.sp) :=
  (pop16_makes s).finish_last (pop16_fails s) fun _ _ _ => endsAs_next rfl

theorem jumpIf_endsAs (s : State) (k : Cond) (a : Addr) : EndsAs (s.jumpIf k a) s [] := by
  cases h : k.holds s.f
  · rw [jumpIf_not_taken h]; exact endsAs_next rfl
  · rw [jumpIf_taken h]; exact endsAs_next rfl

theorem callIf_endsAs {s : State} {k : Cond} {taken : Bool} (h : taken = k.holds s.f) (a : Addr) :
    EndsAs (s.callIf k a) s (if taken then writesWord (s.sp - 2) s.pc else []) := by
  cases taken
  · rw [callIf_not_taken h.symm]; exact endsAs_next rfl
  · rw [callIf_taken h.symm]; exact callTo_endsAs s a

theorem retIf_endsAs {s : State} {k : Cond} {taken : Bool} (h : taken = k.holds s.f) :
    EndsAs (s.retIf k) s (if taken then readsWord s.sp else []) := by
  cases taken
  · rw [retIf_not_taken h.symm]; exact endsAs_next rfl
  · rw [retIf_taken h.symm]; exact ret_endsAs s

theorem execUndoc_endsAs {s : State} (h : s.cfg.undocPolicy ≠ .fault) (op : Byte) :
    EndsAs (execUndoc op s) s (undocAccesses s op) := by
  unfold execUndoc undocAccesses
  cases hp : s.cfg.undocPolicy with
  | fault => exact absurd hp h
  | nop => exact endsAs_next rfl
  | siliconAlias =>
    simp only [State.undocAsAliased]
    split
    · exact (fetch16_makes s).finish_last (fetch16_fails s) fun _ _ _ => endsAs_next rfl
    split
    · exact ret_endsAs s
    split
    · refine (fetch16_makes s).finish (fetch16_fails s) fun a t ht => ?_
      have hcall := callTo_endsAs t a
      have hrest := fetch16_rest ht
      rwa [show t.sp = s.sp by rw [hrest], show t.pc = s.pc + 2 by rw [hrest]] at hcall
    · exact endsAs_next rfl

/-- The byte that reading an operand answers, if it does. -/
theorem readOperand_answer (s : State) (o : Operand) :
    ∃ v, (s.Inv → v = s.operandByte o) ∧ ∀ w t, s.readOperand o = .ok w t → w = v := by
  cases h : s.readOperand o with
  | ok v t => exact ⟨v, fun hs => (readOperand_ok hs h).1, by rintro _ _ ⟨⟩; rfl⟩
  | raised r t => exact ⟨s.operandByte o, fun _ => rfl, by rintro _ _ ⟨⟩⟩

/-- An operand is read, and a byte made of it is written to an operand (R403). -/
theorem readThenWrite_endsAs (s : State) (src dst : Operand) (g : Byte → Byte) (w : Extent)
    (k : Byte → State → State) (hk : ∀ v u, (k v u).mem = u.mem) :
    ∃ v, (s.Inv → v = s.operandByte src) ∧
      EndsAs ((s.readOperand src).finish w fun old t =>
        (t.writeOperand dst (g old)).finish w fun _ u => .next (k old u)) s
        (readsOperand s src ++ writesOperand s dst (g v)) := by
  obtain ⟨v, hv, hanswer⟩ := readOperand_answer s src
  refine ⟨v, hv, (readOperand_makes s src).finish (readOperand_fails s src) fun old t ht => ?_⟩
  have hwrite := (writeOperand_makes t dst (g old)).finish_last (w := w) (k := fun _ u => .next (k old u))
    (writeOperand_fails t dst (g old)) fun _ u _ => endsAs_next (hk old u)
  have hsame : writesOperand t dst (g old) = writesOperand s dst (g v) := by
    rw [hanswer old t ht, readOperand_rest ht]
    rfl
  rwa [hsame] at hwrite

/-- Whether an operand's write is an access does not depend on the byte. -/
theorem writesOperand_nil {s : State} {o : Operand} {v : Byte} (h : writesOperand s o v = []) (w : Byte) :
    writesOperand s o w = [] := by
  cases o with
  | reg r => rfl
  | m => cases h

/-- The instruction's outcome is that of its accesses, which are those of `accessesOf`; where the invariant does not
hold, a byte read, and so one written, may be another than the logical one. -/
def EndsAsAccessed (i : Instr) (s : State) : Prop :=
  ∃ xs, EndsAs (exec i s) s xs ∧ (accessesOf s i = [] → xs = []) ∧ (s.Inv → xs = accessesOf s i)

theorem EndsAsAccessed.of {i : Instr} {s : State} (h : EndsAs (exec i s) s (accessesOf s i)) : EndsAsAccessed i s :=
  ⟨_, h, id, fun _ => rfl⟩

theorem readThenWrite_accessed {i : Instr} {s : State} {src dst : Operand} {g : Byte → Byte}
    (ha : accessesOf s i = readsOperand s src ++ writesOperand s dst (g (s.operandByte src)))
    (h : ∃ v, (s.Inv → v = s.operandByte src) ∧
      EndsAs (exec i s) s (readsOperand s src ++ writesOperand s dst (g v))) : EndsAsAccessed i s := by
  obtain ⟨v, hv, hends⟩ := h
  refine ⟨_, hends, fun hnil => ?_, fun hs => by rw [ha, hv hs]⟩
  obtain ⟨hr, hw⟩ := List.append_eq_nil_iff.1 (ha ▸ hnil)
  rw [hr, writesOperand_nil hw]
  rfl

/-- Every instruction but an illegal opcode ends as its accesses do (R205). -/
theorem exec_endsAs {i : Instr} {s : State} (hi : s.cfg.undocPolicy = .fault → ∀ op, i ≠ .undoc op) :
    EndsAsAccessed i s := by
  cases i with
  | mov dst src =>
    refine readThenWrite_accessed (g := id) rfl ?_
    have h := readThenWrite_endsAs s src dst id (s.extent (.mov dst src)) (fun _ u => u) fun _ _ => rfl
    rw [exec, execMov, Res.outcome_andThen]
    exact h
  | inr o => exact readThenWrite_accessed (g := (· + 1)) rfl (readThenWrite_endsAs s o o (· + 1) _ _ fun _ _ => rfl)
  | dcr o => exact readThenWrite_accessed (g := (· - 1)) rfl (readThenWrite_endsAs s o o (· - 1) _ _ fun _ _ => rfl)
  | mvi dst d8 => exact .of ((writeOperand_makes s dst d8).outcome (writeOperand_fails s dst d8))
  | add src | adc src | sub src | sbb src | ana src | xra src | ora src | cmp src =>
    exact .of ((readOperand_makes s src).finish_last (readOperand_fails s src) fun _ _ _ => endsAs_next rfl)
  | lda _ | ldax _ =>
    exact .of ((readByte_makes s _).finish_last (readByte_fails s _) fun _ _ _ => endsAs_next rfl)
  | sta _ | stax _ => exact .of ((writeByte_makes s _ s.a).outcome (writeByte_fails s _ s.a))
  | lhld a16 =>
    exact .of ((readWord_makes s a16).finish_last (readWord_fails s a16) fun _ _ _ => endsAs_next rfl)
  | shld a16 => exact .of ((writeWord_makes s a16 s.hl).outcome (writeWord_fails s a16 s.hl))
  | push rp =>
    exact .of ((push16_makes s (s.getStackPair rp)).outcome (push16_fails s (s.getStackPair rp)))
  | pop rp =>
    exact .of ((pop16_makes s).finish_last (pop16_fails s) fun v t _ => endsAs_next (t.setStackPair_mem rp v))
  | xthl =>
    refine .of ((readWord_makes s s.sp).finish (readWord_fails s s.sp) fun v t ht => ?_)
    have hwrite := (writeWord_makes t t.sp t.hl).finish_last (w := s.extent .xthl) (k := fun _ u => .next (u.setHL v))
      (writeWord_fails t t.sp t.hl) fun _ _ _ => endsAs_next rfl
    have hrest := readWord_rest ht
    have hsame : writesWord t.sp t.hl = writesWord s.sp s.hl := by
      rw [hrest]
      rfl
    exact hsame ▸ hwrite
  | jnz _ | jz _ | jnc _ | jc _ | jpo _ | jpe _ | jp _ | jm _ => exact .of (jumpIf_endsAs s _ _)
  | cnz _ | cz _ | cnc _ | cc _ | cpo _ | cpe _ | cp _ | cm _ =>
    exact .of (callIf_endsAs (by simp [State.takes, condition, Cond.holds, flagZ, flagCY, flagP, flagS]) _)
  | rnz | rz | rnc | rc | rpo | rpe | rp | rm =>
    exact .of (retIf_endsAs (by simp [State.takes, condition, Cond.holds, flagZ, flagCY, flagP, flagS]))
  | call _ | rst _ => exact .of (callTo_endsAs s _)
  | ret => exact .of (ret_endsAs s)
  | undoc op => exact .of (execUndoc_endsAs (fun h => hi h op rfl) op)
  | lxi rp _ | inx rp | dcx rp => exact .of (endsAs_next (s.setPair_mem rp _))
  | outp p => exact .of (endsAs_next (s.bankSelect_mem p s.a))
  | xchg | adi _ | aci _ | sui _ | sbi _ | dad _ | daa | ani _ | xri _ | ori _ | cpi _ | cma | cmc | stc | rlc | rrc
  | ral | rar | sphl | jmp _ | pchl | inp _ | ei | di | hlt | nop => exact .of (endsAs_next rfl)

/-- An illegal opcode sets `stop` and leaves everything else but `pc` (R1101). -/
theorem exec_undoc_fault {s : State} (h : s.cfg.undocPolicy = .fault) (op : Byte) :
    ∃ pc, exec (.undoc op) s = .fault (.illegalOpcode { s with pc := pc, stop := true }) := by
  refine ⟨(Config.leftByFault { s with stop := true }).pc, ?_⟩
  simp only [exec, execUndoc, h, raise, Res.outcome_raised, Fault.ofRaised]

/-- Every instruction is an illegal opcode or ends as its accesses do. -/
theorem exec_cases (i : Instr) (s : State) :
    ((∃ op, i = .undoc op) ∧ s.cfg.undocPolicy = .fault ∧
      ∃ pc, exec i s = .fault (.illegalOpcode { s with pc := pc, stop := true })) ∨ EndsAsAccessed i s := by
  by_cases h : ∃ op, i = .undoc op
  · obtain ⟨op, rfl⟩ := h
    by_cases hp : s.cfg.undocPolicy = .fault
    · exact .inl ⟨⟨op, rfl⟩, hp, exec_undoc_fault hp op⟩
    · exact .inr (exec_endsAs fun e => absurd e hp)
  · exact .inr (exec_endsAs fun _ op e => h ⟨op, e⟩)

/-- Settles O29: an instruction with no access has no access that could raise. -/
theorem faultsAreTheTwoReasons : Obligations.FaultsAreTheTwoReasons := by
  unfold Obligations.FaultsAreTheTwoReasons
  intro i s
  rcases exec_cases i s with ⟨⟨op, rfl⟩, hp, pc, hexec⟩ | ⟨xs, hends, hnil, -⟩
  · rw [hexec]
    refine ⟨?_, fun _ e => (nomatch e), fun _ hno => absurd rfl (hno hp op)⟩
    rintro _ ⟨⟩
    exact .inr ⟨pc, rfl, hp, op, rfl⟩
  · rcases hends with ⟨vs, u, t, hrun, hexec, hm⟩ | ⟨u, t, hrun, hexec, hstop, hfatal⟩
    · rw [hexec]
      exact ⟨fun _ e => (nomatch e), fun _ e => (nomatch e), fun _ _ => ⟨t, rfl⟩⟩
    · have hne : accessesOf s i ≠ [] := by
        intro e
        rw [hnil e] at hrun
        cases hrun
      rw [hexec]
      refine ⟨?_, fun _ e => (nomatch e), fun e => absurd e hne⟩
      rintro _ ⟨⟩
      exact .inl ⟨t, rfl, hstop, hfatal, hne⟩

end Sys2Proof.Machine

/-!
What the accesses of an instruction and of a fetch do to the logical memory (R205, R236, R250), where they fail (R234,
R1120), and that none does in sound storage (R237).
-/
namespace Sys2Proof.Machine

/-! ## Reads, then writes -/

/-- The accesses are reads and then the writes of these bytes, which are at distinct addresses. -/
def ReadsThenWrites (xs : List Access) (ws : List (Addr × Byte)) : Prop :=
  ∃ rs : List Addr, xs = rs.map .read ++ ws.map (fun w => .write w.1 w.2) ∧ (ws.map Prod.fst).Nodup

theorem readsThenWrites_nil : ReadsThenWrites [] [] := ⟨[], rfl, List.nodup_nil⟩

theorem readsWord_readsThenWrites (a : Addr) : ReadsThenWrites (readsWord a) [] := ⟨[a, a + 1], rfl, List.nodup_nil⟩

theorem writesWord_readsThenWrites (a v : Addr) : ReadsThenWrites (writesWord a v) [(a, lo v), (a + 1, hi v)] :=
  ⟨[], rfl, by simp⟩

theorem readsOperand_readsThenWrites (s : State) (o : Operand) : ReadsThenWrites (readsOperand s o) [] := by
  cases o with
  | reg r => exact readsThenWrites_nil
  | m => exact ⟨[s.hl], rfl, List.nodup_nil⟩

theorem write_readsThenWrites (a : Addr) (v : Byte) : ReadsThenWrites [.write a v] [(a, v)] := ⟨[], rfl, by simp⟩

theorem writesOperand_readsThenWrites (s : State) (o : Operand) (v : Byte) :
    ∃ ws, ReadsThenWrites (writesOperand s o v) ws := by
  cases o with
  | reg r => exact ⟨[], readsThenWrites_nil⟩
  | m => exact ⟨_, write_readsThenWrites s.hl v⟩

/-- Reads may come before. -/
theorem ReadsThenWrites.after_reads {xs ys : List Access} {ws : List (Addr × Byte)} (h : ReadsThenWrites xs [])
    (k : ReadsThenWrites ys ws) : ReadsThenWrites (xs ++ ys) ws := by
  obtain ⟨rs, rfl, -⟩ := h
  obtain ⟨qs, rfl, hnd⟩ := k
  exact ⟨rs ++ qs, by simp, hnd⟩

theorem readsOperand_writesOperand_readsThenWrites (s : State) (src dst : Operand) (v : Byte) :
    ∃ ws, ReadsThenWrites (readsOperand s src ++ writesOperand s dst v) ws := by
  obtain ⟨ws, hws⟩ := writesOperand_readsThenWrites s dst v
  exact ⟨ws, (readsOperand_readsThenWrites s src).after_reads hws⟩

theorem ite_readsThenWrites {c : Bool} {xs : List Access} {ws : List (Addr × Byte)} (h : ReadsThenWrites xs ws) :
    ∃ vs, ReadsThenWrites (if c then xs else []) vs := by
  cases c with
  | true => exact ⟨ws, h⟩
  | false => exact ⟨[], readsThenWrites_nil⟩

theorem undocAccesses_readsThenWrites (s : State) (op : Byte) : ∃ ws, ReadsThenWrites (undocAccesses s op) ws := by
  unfold undocAccesses
  split
  · exact ⟨_, readsThenWrites_nil⟩
  · exact ⟨_, readsThenWrites_nil⟩
  · split
    · exact ⟨_, readsWord_readsThenWrites s.pc⟩
    split
    · exact ⟨_, readsWord_readsThenWrites s.sp⟩
    split
    · exact ⟨_, (readsWord_readsThenWrites s.pc).after_reads (writesWord_readsThenWrites _ _)⟩
    · exact ⟨_, readsThenWrites_nil⟩

/-- Every instruction reads before it writes, and writes no byte twice (R205). -/
theorem accessesOf_readsThenWrites (s : State) (i : Instr) : ∃ ws, ReadsThenWrites (accessesOf s i) ws := by
  cases i with
  | mov dst src => exact readsOperand_writesOperand_readsThenWrites s src dst _
  | inr o | dcr o => exact readsOperand_writesOperand_readsThenWrites s o o _
  | mvi dst d8 => exact writesOperand_readsThenWrites s dst d8
  | add o | adc o | sub o | sbb o | ana o | xra o | ora o | cmp o => exact ⟨_, readsOperand_readsThenWrites s o⟩
  | lda a => exact ⟨[], [a], rfl, List.nodup_nil⟩
  | ldax p => exact ⟨[], [s.getIndexPair p], rfl, List.nodup_nil⟩
  | sta _ | stax _ => exact ⟨_, write_readsThenWrites _ s.a⟩
  | lhld a => exact ⟨_, readsWord_readsThenWrites a⟩
  | shld a => exact ⟨_, writesWord_readsThenWrites a s.hl⟩
  | pop _ => exact ⟨_, readsWord_readsThenWrites s.sp⟩
  | push p => exact ⟨_, writesWord_readsThenWrites _ (s.getStackPair p)⟩
  | xthl => exact ⟨_, (readsWord_readsThenWrites s.sp).after_reads (writesWord_readsThenWrites s.sp s.hl)⟩
  | ret => exact ⟨_, readsWord_readsThenWrites s.sp⟩
  | rnz | rz | rnc | rc | rpo | rpe | rp | rm => exact ite_readsThenWrites (readsWord_readsThenWrites s.sp)
  | call _ | rst _ => exact ⟨_, writesWord_readsThenWrites (s.sp - 2) s.pc⟩
  | cnz _ | cz _ | cnc _ | cc _ | cpo _ | cpe _ | cp _ | cm _ =>
    exact ite_readsThenWrites (writesWord_readsThenWrites (s.sp - 2) s.pc)
  | undoc op => exact undocAccesses_readsThenWrites s op
  | lxi _ _ | xchg | adi _ | aci _ | sui _ | sbi _ | inx _ | dcx _ | dad _ | daa | ani _ | xri _ | ori _ | cpi _ | cma
  | cmc | stc | rlc | rrc | ral | rar | sphl | jmp _ | jnz _ | jz _ | jnc _ | jc _ | jpo _ | jpe _ | jp _ | jm _ | pchl
  | inp _ | outp _ | ei | di | hlt | nop => exact ⟨[], readsThenWrites_nil⟩

theorem ReadsThenWrites.stores {xs : List Access} {ws : List (Addr × Byte)} (h : ReadsThenWrites xs ws) :
    xs.filterMap Access.store = ws := by
  obtain ⟨rs, rfl, -⟩ := h
  have hreads : (rs.map Access.read).filterMap Access.store = [] := by
    simp [List.filterMap_map, Access.store]
  have hwrites : (ws.map fun w => Access.write w.1 w.2).filterMap Access.store = ws := by
    simp [List.filterMap_map, Function.comp_def, Access.store]
  rw [List.filterMap_append, hreads, hwrites, List.nil_append]

theorem accessesOf_storeOf (s : State) (i : Instr) : ReadsThenWrites (accessesOf s i) (storeOf s i) := by
  obtain ⟨ws, h⟩ := accessesOf_readsThenWrites s i
  rw [storeOf, h.stores]
  exact h

/-! ## The logical memory after a sequence -/

theorem storedAll_congr {s t : State} (hb : t.bank = s.bank) (hc : t.cfg = s.cfg) (ws : List (Addr × Byte)) :
    t.storedAll ws = s.storedAll ws := by
  funext L
  simp only [State.storedAll, stored_congr hb hc]

theorem Touched.reads {rs : List Addr} : ∀ {s t : State} {vs : List Byte}, s.Inv →
    s.runAccesses (rs.map .read) = .ok vs t → Touched s t s.mem.logical := by
  induction rs with
  | nil =>
    rintro s _ _ hs ⟨⟩
    exact .refl hs
  | cons a rs ih =>
    intro s t vs hs h
    obtain ⟨v, u, hread, h⟩ := Res.andThen_eq_ok.1 h
    obtain ⟨_, w, hrest, ⟨⟩⟩ := Res.andThen_eq_ok.1 h
    obtain ⟨-, hu⟩ := readByte_ok hs hread
    have hw := ih hu.inv hrest
    rw [hu.logical_eq] at hw
    exact hu.trans hw

theorem Touched.writes {ws : List (Addr × Byte)} : ∀ {s t : State} {vs : List Byte}, s.Inv →
    s.runAccesses (ws.map fun w => .write w.1 w.2) = .ok vs t → Touched s t (s.storedAll ws s.mem.logical) := by
  induction ws with
  | nil =>
    rintro s _ _ hs ⟨⟩
    exact .refl hs
  | cons w ws ih =>
    intro s t vs hs h
    obtain ⟨⟨⟩, u, hwrite, hrest⟩ := Res.andThen_eq_ok.1 h
    have hu := writeByte_ok hs hwrite
    have ht := ih hu.inv hrest
    rw [hu.logical_eq, storedAll_congr hu.bank hu.cfg] at ht
    exact hu.trans ht

/-- Reads and then writes leave the logical memory with the bytes written stored (R236). -/
theorem ReadsThenWrites.touched {xs : List Access} {ws : List (Addr × Byte)} (h : ReadsThenWrites xs ws) {s t : State}
    {vs : List Byte} (hs : s.Inv) (hrun : s.runAccesses xs = .ok vs t) :
    Touched s t (s.storedAll ws s.mem.logical) := by
  obtain ⟨rs, rfl, -⟩ := h
  rw [runAccesses_append] at hrun
  obtain ⟨_, u, hreads, hrun⟩ := Res.andThen_eq_ok.1 hrun
  obtain ⟨_, _, hwrites, ⟨⟩⟩ := Res.andThen_eq_ok.1 hrun
  have hu := Touched.reads hs hreads
  have ht := Touched.writes hu.inv hwrites
  rw [hu.logical_eq, storedAll_congr hu.bank hu.cfg] at ht
  exact hu.trans ht

/-- What an instruction that completes makes of the logical memory (R205, R236). -/
theorem exec_logical {i : Instr} {s t : State} (hs : s.Inv) (h : exec i s = .next t) :
    t.mem.logical = s.storedAll (storeOf s i) s.mem.logical := by
  rcases exec_cases i s with ⟨-, -, pc, hexec⟩ | ⟨xs, hends, -, hxs⟩
  · cases hexec.symm.trans h
  · rcases hends with ⟨vs, u, v, hrun, hexec, hm⟩ | ⟨u, v, hrun, hexec, -⟩
    · cases hexec.symm.trans h
      rw [hxs hs] at hrun
      rw [hm]
      exact ((accessesOf_storeOf s i).touched hs hrun).logical_eq
    · cases hexec.symm.trans h

/-- Stores at other addresses leave a guest address's byte. -/
theorem storedAll_other {s : State} {b : Addr} {ws : List (Addr × Byte)} (h : ∀ w ∈ ws, w.1 ≠ b)
    (L : Nat → Fin lineSize → Byte) : s.storedAll ws L (s.blk b) (off b) = L (s.blk b) (off b) := by
  induction ws generalizing L with
  | nil => rfl
  | cons w ws ih =>
    have hrest := ih (fun v hv => h v (List.mem_cons_of_mem _ hv)) (s.stored w.1 w.2 L)
    exact hrest.trans (stored_other (h w List.mem_cons_self).symm)

/-- A byte stored once at its address is there. -/
theorem storedAll_mem {s : State} {w : Addr × Byte} {ws : List (Addr × Byte)} (hnd : (ws.map Prod.fst).Nodup)
    (hw : w ∈ ws) (hu : s.unmapped w.1 = false) (L : Nat → Fin lineSize → Byte) :
    s.storedAll ws L (s.blk w.1) (off w.1) = w.2 := by
  induction ws generalizing L with
  | nil => cases hw
  | cons v ws ih =>
    obtain ⟨hv, hnd⟩ := List.nodup_cons.1 hnd
    rcases List.mem_cons.1 hw with rfl | hw
    · have hother : ∀ x ∈ ws, x.1 ≠ w.1 := fun x hx e => hv (e ▸ List.mem_map_of_mem hx)
      exact (storedAll_other hother (s.stored w.1 w.2 L)).trans (stored_same hu)
    · exact ih hnd hw _

/-- Settles O28: the logical memory is the one after the stores, and only OUT changes what an address names. -/
theorem storesAndNothingElse : Obligations.StoresAndNothingElse := by
  unfold Obligations.StoresAndNothingElse
  intro i s t hs _ h
  have hlogical := exec_logical hs h
  have hcontrol : t.control = s.controlAfter i := exec_control i s t h
  have hcfg : t.cfg = s.cfg := (congrArg ControlState.cfg hcontrol).trans (s.controlAfter_cfg i)
  have hguest (hout : ∀ p, i ≠ .outp p) (b : Addr) : t.guestByte b =
      if s.unmapped b then 0xFF else s.storedAll (storeOf s i) s.mem.logical (s.blk b) (off b) := by
    have hbank : t.bank = s.bank :=
      (congrArg ControlState.bank hcontrol).trans (s.controlAfter_bank hout).1
    rw [guestByte_congr hbank hcfg, hlogical]
  refine ⟨fun n j => by rw [hlogical], fun hout b hb => ?_, fun w hw => ?_⟩
  · rw [hguest hout, storedAll_other hb]
    rfl
  · have hout : ∀ p, i ≠ .outp p := by
      rintro p rfl
      cases hw
    obtain ⟨-, -, hnd⟩ := accessesOf_storeOf s i
    rw [hguest hout]
    cases hu : s.unmapped w.1 with
    | true => rfl
    | false => exact storedAll_mem hnd hw hu _

/-! ## Failing accesses -/

/-- An instruction fails its integrity check exactly where its accesses do (R1100, R1120). -/
theorem exec_integrity_iff {s : State} (hs : s.Inv) (i : Instr) :
    (∃ t, exec i s = .fault (.memoryIntegrity t)) ↔ s.FailsIn (accessesOf s i) := by
  rw [failsIn_iff _ hs]
  rcases exec_cases i s with ⟨⟨op, rfl⟩, hp, pc, hexec⟩ | ⟨xs, hends, -, hxs⟩
  · have hnone : accessesOf s (.undoc op) = [] := by
      simp only [accessesOf, undocAccesses, hp]
    rw [hexec, hnone]
    exact ⟨fun ⟨_, e⟩ => (nomatch e), fun ⟨_, _, e⟩ => (nomatch e)⟩
  · rw [← hxs hs]
    rcases hends with ⟨vs, u, t, hrun, hexec, -⟩ | ⟨u, t, hrun, hexec, -⟩
    · rw [hexec, hrun]
      exact ⟨fun ⟨_, e⟩ => (nomatch e), fun ⟨_, _, e⟩ => (nomatch e)⟩
    · exact ⟨fun _ => ⟨_, u, hrun⟩, fun _ => ⟨t, hexec⟩⟩

/-- The reads of the operand bytes that a row asks for, from this address on (R300, R401). -/
def rowReads (r : Row) (a : Addr) : List Access :=
  match r with
  | .bare _ => []
  | .imm8 _ => [.read a]
  | .imm16 _ => readsWord a

theorem fetchAccesses_eq (s : State) :
    fetchAccesses s = .read s.pc :: rowReads (decodeOp (s.guestByte s.pc)) (s.pc + 1) := by
  unfold fetchAccesses instrLength
  cases decodeOp (s.guestByte s.pc) with
  | bare _ => simp [Row.operandBytes, rowReads]
  | imm8 _ => simp [Row.operandBytes, rowReads, List.range_succ]
  | imm16 _ => simp [Row.operandBytes, rowReads, List.range_succ, readsWord, BitVec.add_assoc]

/-- The fetch of an instruction makes the reads of `fetchAccesses` (R205, R401). -/
theorem fetchInstr_makes {s : State} (hs : s.Inv) : s.fetchInstr.Makes s (fetchAccesses s) := by
  rw [fetchAccesses_eq]
  refine (fetch8_makes s).andThen fun op t h => ?_
  have hpc : t.pc = s.pc + 1 := by rw [fetch8_rest h]
  rw [(fetch8_ok hs h).1, ← hpc]
  cases decodeOp (s.guestByte s.pc) with
  | bare i => exact makes_ok (.refl t) i
  | imm8 k => exact (fetch8_makes t).then fun _ u _ => makes_ok (.refl u) _
  | imm16 k => exact (fetch16_makes t).then fun _ u _ => makes_ok (.refl u) _

theorem fetchInstr_raised_iff {s : State} (hs : s.Inv) :
    (∃ r t, s.fetchInstr = .raised r t) ↔ s.FailsIn (fetchAccesses s) := by
  rw [failsIn_iff _ hs]
  have hmakes := fetchInstr_makes hs
  cases h : s.fetchInstr with
  | ok i t =>
    obtain ⟨vs, u, hrun, -⟩ := hmakes.ok i t h
    rw [hrun]
    exact ⟨fun ⟨_, _, e⟩ => (nomatch e), fun ⟨_, _, e⟩ => (nomatch e)⟩
  | raised r t =>
    obtain ⟨u, hrun⟩ := hmakes.raised r t h
    exact ⟨fun _ => ⟨r, u, hrun⟩, fun _ => ⟨r, t, rfl⟩⟩

theorem exec_integrity_signals {i : Instr} {s t : State} (h : exec i s = .fault (.memoryIntegrity t)) :
    t.stop = true ∧ t.fatal = true := by
  rcases exec_cases i s with ⟨-, -, pc, hexec⟩ | ⟨xs, ⟨vs, u, v, -, hexec, -⟩ | ⟨u, v, -, hexec, hsignals⟩, -⟩
  · cases hexec.symm.trans h
  · cases hexec.symm.trans h
  · cases hexec.symm.trans h
    exact hsignals

theorem step_integrity_signals {s t : State} (h : step s = .fault (.memoryIntegrity t)) :
    t.stop = true ∧ t.fatal = true := by
  unfold step State.stepWith at h
  split at h
  · cases h
  · rcases (fetchInstr_fails s).finish s.fetchExtent exec with ⟨u, hu, hsignals⟩ | ⟨i, u, -, hu⟩
    · cases hu.symm.trans h
      exact hsignals
    · exact exec_integrity_signals (hu.symm.trans h)

/-- Settles O30: the fetch and the instruction fetched each fail where their accesses do. -/
theorem failedLoadFaults : Obligations.FailedLoadFaults := by
  unfold Obligations.FailedLoadFaults
  intro s hs
  refine ⟨exec_integrity_iff hs, fun hstop => ?_, fun t => step_integrity_signals⟩
  rw [← fetchInstr_raised_iff hs, step_eq_finish hstop]
  cases h : s.fetchInstr with
  | raised r u =>
    obtain ⟨rfl, -⟩ := fetchInstr_fails s r u h
    exact ⟨fun _ => .inl ⟨_, u, rfl⟩, fun _ => ⟨_, rfl⟩⟩
  | ok i u =>
    obtain ⟨pc, hu⟩ := fetchInstr_ok hs h
    rw [Res.finish_ok, exec_integrity_iff hu.inv]
    constructor
    · exact fun hfails => .inr ⟨i, u, rfl, hfails⟩
    · rintro (⟨_, _, e⟩ | ⟨_, _, ⟨⟩, hfails⟩)
      · cases e
      · exact hfails

/-! ## Progress -/

theorem not_failsIn_of_sound {s : State} (hs : s.Inv) (hw : s.Sound) (xs : List Access) : ¬ s.FailsIn xs := by
  intro h
  obtain ⟨r, u, hraised⟩ := (failsIn_iff xs hs).1 h
  obtain ⟨t, hanswers⟩ := memoryIsSequential s xs hs hw
  cases hraised.symm.trans hanswers

/-- In sound storage the fetch answers, and moves `pc` and the cache only (R237). -/
theorem fetchInstr_total {s : State} (hs : s.Inv) (hw : s.Sound) :
    ∃ i t pc, s.fetchInstr = .ok i t ∧ Touched { s with pc := pc } t s.mem.logical := by
  cases h : s.fetchInstr with
  | ok i t =>
    obtain ⟨pc, ht⟩ := fetchInstr_ok hs h
    exact ⟨i, t, pc, rfl, ht⟩
  | raised r t => exact absurd ((fetchInstr_raised_iff hs).1 ⟨r, t, h⟩) (not_failsIn_of_sound hs hw _)

/-- In sound storage an instruction completes or is an illegal opcode (R237, R1101). -/
theorem exec_total {s : State} (hs : s.Inv) (hw : s.Sound) (i : Instr) : (∃ t, exec i s = .next t) ∨
    (∃ op, i = .undoc op) ∧ s.cfg.undocPolicy = .fault ∧
      ∃ pc, exec i s = .fault (.illegalOpcode { s with pc := pc, stop := true }) := by
  rcases exec_cases i s with h | ⟨xs, ⟨vs, u, t, -, hexec, -⟩ | ⟨u, t, -, hexec, -⟩, -⟩
  · exact .inr h
  · exact .inl ⟨t, hexec⟩
  · exact absurd ((exec_integrity_iff hs i).1 ⟨t, hexec⟩) (not_failsIn_of_sound hs hw _)

end Sys2Proof.Machine

/-!
Which opcode bytes decode to an undocumented instruction (R330), and progress (R237, R1006).
-/
namespace Sys2Proof.Machine

/-! ## The rows of the undocumented opcodes -/

/-- The row gives this instruction, for some operand. -/
def RowGives (r : Row) (i : Instr) : Prop :=
  match r with
  | .bare j => j = i
  | .imm8 k => ∃ d, k d = i
  | .imm16 k => ∃ v, k v = i

@[simp] theorem rowGives_bare (j i : Instr) : RowGives (.bare j) i ↔ j = i := .rfl
@[simp] theorem rowGives_imm8 (k : Byte → Instr) (i : Instr) : RowGives (.imm8 k) i ↔ ∃ d, k d = i := .rfl
@[simp] theorem rowGives_imm16 (k : Addr → Instr) (i : Instr) : RowGives (.imm16 k) i ↔ ∃ v, k v = i := .rfl

theorem decodeRcc_ne_undoc (b v : Byte) : decodeRcc b ≠ .undoc v := by
  unfold decodeRcc
  split <;> simp

theorem decodeJcc_ne_undoc (b v : Byte) (a : Addr) : decodeJcc b a ≠ .undoc v := by
  generalize hk : decodeJcc b = k
  unfold decodeJcc at hk
  split at hk <;> simp [← hk]

theorem decodeCcc_ne_undoc (b v : Byte) (a : Addr) : decodeCcc b a ≠ .undoc v := by
  generalize hk : decodeCcc b = k
  unfold decodeCcc at hk
  split at hk <;> simp [← hk]

theorem decodeAluImm_ne_undoc (b v d : Byte) : decodeAluImm b d ≠ .undoc v := by
  generalize hk : decodeAluImm b = k
  unfold decodeAluImm at hk
  split at hk <;> simp [← hk]

theorem decodeQ0_undoc {b v : Byte} (h : RowGives (decodeQ0 b) (.undoc v)) : fieldZ b = 0 ∧ fieldY b ≠ 0 := by
  unfold decodeQ0 at h
  split at h
  case h_1 hz =>
    split at h
    · simp at h
    · next hy => exact ⟨hz, hy⟩
  all_goals repeat' split at h
  all_goals simp at h

theorem decodeQ1_undoc {b v : Byte} (h : RowGives (decodeQ1 b) (.undoc v)) : False := by
  unfold decodeQ1 at h
  split at h <;> simp at h

theorem decodeQ2_undoc {b v : Byte} (h : RowGives (decodeQ2 b) (.undoc v)) : False := by
  unfold decodeQ2 at h
  split at h <;> simp at h

theorem decodeQ3_undoc {b v : Byte} (h : RowGives (decodeQ3 b) (.undoc v)) :
    (fieldZ b = 1 ∧ b.getLsbD 3 = true ∧ fieldP b = 1) ∨ (fieldZ b = 3 ∧ fieldY b = 1) ∨
      (fieldZ b = 5 ∧ b.getLsbD 3 = true ∧ fieldP b ≠ 0) := by
  unfold decodeQ3 at h
  split at h
  case h_2 hz =>
    split at h
    · next hbit =>
      split at h
      case h_2 hp => exact .inl ⟨hz, hbit, hp⟩
      all_goals simp at h
    · simp at h
  case h_4 hz =>
    split at h
    case h_2 hy => exact .inr (.inl ⟨hz, hy⟩)
    all_goals simp at h
  case h_6 hz =>
    split at h
    · next hbit =>
      split at h
      · simp at h
      · next hp => exact .inr (.inr ⟨hz, hbit, hp⟩)
    · simp at h
  all_goals
    simp [decodeRcc_ne_undoc, decodeJcc_ne_undoc, decodeCcc_ne_undoc, decodeAluImm_ne_undoc] at h

/-- The bytes of these fields are the undocumented ones (R330). -/
theorem mem_undocOpcodes_of_fields : ∀ b : Byte,
    (b.extractLsb' 6 2 = 0#2 → fieldZ b = 0 → fieldY b ≠ 0 → b ∈ undocOpcodes) ∧
    (b.extractLsb' 6 2 = 3#2 →
      (fieldZ b = 1 ∧ b.getLsbD 3 = true ∧ fieldP b = 1) ∨ (fieldZ b = 3 ∧ fieldY b = 1) ∨
        (fieldZ b = 5 ∧ b.getLsbD 3 = true ∧ fieldP b ≠ 0) → b ∈ undocOpcodes) := by
  decide

/-- Only an undocumented byte decodes as undocumented (R330). -/
theorem decodeOp_undoc {b v : Byte} (h : RowGives (decodeOp b) (.undoc v)) : b ∈ undocOpcodes := by
  unfold decodeOp at h
  split at h
  case h_1 hq =>
    obtain ⟨hz, hy⟩ := decodeQ0_undoc h
    exact (mem_undocOpcodes_of_fields b).1 hq hz hy
  case h_2 => exact (decodeQ1_undoc h).elim
  case h_3 => exact (decodeQ2_undoc h).elim
  case h_4 hq0 hq1 hq2 =>
    have hq : b.extractLsb' 6 2 = 3#2 := by
      generalize b.extractLsb' 6 2 = q at hq0 hq1 hq2
      revert q
      decide
    exact (mem_undocOpcodes_of_fields b).2 hq (decodeQ3_undoc h)

theorem fetchInstr_gives {s t : State} {i : Instr} (hs : s.Inv) (h : s.fetchInstr = .ok i t) :
    RowGives (decodeOp (s.guestByte s.pc)) i := by
  obtain ⟨op, u, hop, hrest⟩ := Res.andThen_eq_ok.1 h
  rw [← (fetch8_ok hs hop).1]
  cases hrow : decodeOp op with
  | bare j =>
    rw [hrow] at hrest
    cases hrest
    rfl
  | imm8 k =>
    rw [hrow] at hrest
    obtain ⟨d, _, -, ⟨⟩⟩ := Res.andThen_eq_ok.1 hrest
    exact ⟨d, rfl⟩
  | imm16 k =>
    rw [hrow] at hrest
    obtain ⟨v, _, -, ⟨⟩⟩ := Res.andThen_eq_ok.1 hrest
    exact ⟨v, rfl⟩

/-- Settles O22: in sound storage no access fails, so only an illegal opcode does not complete. -/
theorem soundMachineProgresses : Obligations.SoundMachineProgresses := by
  unfold Obligations.SoundMachineProgresses
  intro s hs hw hstop
  obtain ⟨i, u, pc, hfetch, hu⟩ := fetchInstr_total hs hw
  rw [step_of_fetch hstop hfetch]
  rcases exec_total hu.inv (hu.sound hw) i with hnext | ⟨⟨op, rfl⟩, hp, pc', hexec⟩
  · exact .inl hnext
  · refine .inr ⟨hu.cfg ▸ hp, decodeOp_undoc (fetchInstr_gives hs hfetch), pc', u.mem, hu.logical, ?_⟩
    rw [hexec, hu.rest]

end Sys2Proof.Machine

/-!
What an integrity failure of each instruction leaves alone, within the extent `State.extent` gives the instruction, and
the line whose load failed (R411, D21).
-/
namespace Sys2Proof.Machine

/-! ## Extents -/

/-- An extent that another one contains. -/
structure Extent.Le (w w' : Extent) : Prop where
  regs : ∀ r ∈ w.regs, r ∈ w'.regs
  flags : ∀ k, w'.flags.getLsbD k = false → w.flags.getLsbD k = false
  sp : w'.sp = false → w.sp = false
  ie : w'.ie = false → w.ie = false
  reads : ∀ a ∈ w.reads, a ∈ w'.reads
  stores : ∀ a ∈ w.stores, a ∈ w'.stores

theorem Kept.mono {w w' : Extent} {s t : State} (h : Kept w s t) (hle : w.Le w') : Kept w' s t where
  regs r hr := h.regs r fun e => hr (hle.regs r e)
  flags k hk hf := h.flags k hk (hle.flags k hf)
  sp hf := h.sp (hle.sp hf)
  ie hf := h.ie (hle.ie hf)
  bytes n j hn := h.bytes n j fun a ha => hn a (hle.stores a ha)
  image := h.image

theorem MemSys.KeepsFailed.mono {m : MemSys} {w w' : Extent} {s : State} (h : m.KeepsFailed w s) (hle : w.Le w') :
    m.KeepsFailed w' s := by
  obtain ⟨x, n, after, hfailed, halone⟩ := h
  refine ⟨x, n, after, hfailed, fun hblk => halone fun a ha => hblk a ?_⟩
  rcases List.mem_append.1 ha with ha | ha
  · exact List.mem_append_left _ (hle.reads a ha)
  · exact List.mem_append_right _ (hle.stores a ha)

/-- An extent with no H and no L leaves HL. -/
theorem Kept.hl {w : Extent} {s u : State} (h : Kept w s u) (hh : .h ∉ w.regs) (hl : .l ∉ w.regs) : u.hl = s.hl :=
  congrArg₂ join (h.regs .h hh) (h.regs .l hl)

theorem extent_onlyIf {s : State} {k : Cond} {w : Extent} (h : k.holds s.f = true) (hf : w.flags = 0x00) :
    { s.onlyIf k w with flags := 0x00 } = w := by
  rw [State.onlyIf, if_pos h, ← hf]

theorem extent_undoc (s : State) (op : Byte) : s.extent (.undoc op) = s.undocExtent op := by
  have hflags : (s.undocExtent op).flags = 0x00 := by
    unfold State.undocExtent
    repeat' split
    all_goals rfl
  rw [State.extent, State.placesTouched, flagMask, ← hflags]

/-! ## Outcomes that fail within an extent -/

/-- An integrity failure leaves alone what is outside the extent, and the line whose load failed. -/
def FailsWithin (w : Extent) (s : State) (o : Host.Outcome State Fault Refusal) : Prop :=
  ∀ t, o = .fault (.memoryIntegrity t) → Kept w s t ∧ SameHostSide s t ∧ t.mem.KeepsFailed w s

theorem failsWithin_next (w : Extent) (s t : State) : FailsWithin w s (.next t) := by
  rintro _ ⟨⟩

theorem Res.Within.finish_within {α : Type} {w : Extent} {s : State} {x : Res α}
    {k : α → State → Host.Outcome State Fault Refusal} (h : x.Within w s)
    (hk : ∀ v u, x = .ok v u → Kept w s u → SameHostSide s u → u.Inv → FailsWithin w s (k v u)) :
    FailsWithin w s (x.finish w k) := by
  intro t e
  rcases h.finish e with hleft | ⟨v, u, hx, hrest⟩
  · exact hleft
  · obtain ⟨hkept, hside, hinv⟩ := h.ok v u hx
    exact hk v u hx hkept hside hinv t hrest

theorem Res.Within.finish_next {α : Type} {w : Extent} {s : State} {x : Res α} {f : α → State → State}
    (h : x.Within w s) : FailsWithin w s (x.finish w fun v u => .next (f v u)) :=
  h.finish_within fun v u _ _ _ _ => failsWithin_next w s (f v u)

theorem Res.Within.outcome {w : Extent} {s : State} {x : Res Unit} (h : x.Within w s) :
    FailsWithin w s (x.outcome w) :=
  h.finish_next

/-- A failure within an extent, from a state on the way, within a larger extent. -/
theorem FailsWithin.after {w w' : Extent} {s u : State} {o : Host.Outcome State Fault Refusal}
    (h : FailsWithin w u o) (hkept : Kept w' s u) (hside : SameHostSide s u) (hle : w.Le w') : FailsWithin w' s o := by
  intro t e
  obtain ⟨hk, hs, hf⟩ := h t e
  exact ⟨hkept.trans hside (hk.mono hle), hside.trans hs, (hf.mono hle).congr hside⟩

/-! ## The instructions -/

/-- A write to an operand, in an extent that has it. -/
theorem writeOperand_within {w : Extent} {s u : State} (hk : Kept w s u) (hside : SameHostSide s u) (hi : u.Inv)
    (o : Operand) (hregs : w.regs = (s.operandExtent o).regs) (hstores : w.stores = (s.operandExtent o).stores)
    (v : Byte) : (u.writeOperand o v).Within w s := by
  cases o with
  | reg r => exact writeOperand_reg_within hk hside hi (hregs ▸ List.mem_cons_self) v
  | m =>
    have hnone : ∀ r : Reg, r ∉ w.regs := fun r h => by
      rw [hregs] at h
      cases h
    have hhl : u.hl ∈ w.stores := by
      rw [hstores, hk.hl (hnone .h) (hnone .l)]
      exact List.mem_cons_self
    exact writeOperand_m_within hk hside hi hhl v

theorem jumpIf_failsWithin (w : Extent) (s : State) (k : Cond) (a : Addr) : FailsWithin w s (s.jumpIf k a) := by
  cases h : k.holds s.f
  · rw [jumpIf_not_taken h]; exact failsWithin_next w s s
  · rw [jumpIf_taken h]; exact failsWithin_next w s _

section
variable {s : State} (hs : s.Inv)
include hs

theorem push16_pushExtent_within (v : Addr) : (s.push16 v).Within s.pushExtent s := by
  have hnext : s.sp - 2 + 1 = s.sp - 1 := by bv_omega
  refine push16_within (.refl _ s) (.refl s) hs rfl List.mem_cons_self ?_ v
  rw [hnext]
  exact List.mem_cons_of_mem _ List.mem_cons_self

theorem callTo_failsWithin (a : Addr) : FailsWithin s.pushExtent s (s.callTo a) :=
  (push16_pushExtent_within hs s.pc).finish_next

theorem ret_failsWithin : FailsWithin s.retExtent s s.ret :=
  (pop16_within (.refl _ s) (.refl s) hs rfl).finish_next

theorem callIf_failsWithin {w : Extent} {k : Cond} (hw : k.holds s.f = true → w = s.pushExtent) (a : Addr) :
    FailsWithin w s (s.callIf k a) := by
  cases h : k.holds s.f
  · rw [callIf_not_taken h]; exact failsWithin_next w s s
  · rw [callIf_taken h, hw h]; exact callTo_failsWithin hs a

theorem retIf_failsWithin {w : Extent} {k : Cond} (hw : k.holds s.f = true → w = s.retExtent) :
    FailsWithin w s (s.retIf k) := by
  cases h : k.holds s.f
  · rw [retIf_not_taken h]; exact failsWithin_next w s s
  · rw [retIf_taken h, hw h]; exact ret_failsWithin hs

theorem execUndoc_failsWithin (op : Byte) : FailsWithin (s.undocExtent op) s (execUndoc op s) := by
  unfold execUndoc
  cases hp : s.cfg.undocPolicy with
  | fault => rintro _ ⟨⟩
  | nop => exact failsWithin_next _ s s
  | siliconAlias =>
    have hfetch : s.fetch16.Within (s.undocExtent op) s := fetch16_within (.refl _ s) (.refl s) hs
    simp only [State.undocAsAliased]
    split
    · exact hfetch.finish_next
    next hcb =>
    split
    · next hd9 =>
      have hext : s.undocExtent op = s.retExtent := by simp only [State.undocExtent, hp, if_neg hcb, if_pos hd9]
      exact hext ▸ ret_failsWithin hs
    next hd9 =>
    split
    · next hcall =>
      refine hfetch.finish_within fun a u hu hkept hside hinv => ?_
      have hpush : u.pushExtent = s.pushExtent := by rw [fetch16_rest hu]; rfl
      have hext : s.undocExtent op = { s.pushExtent with reads := [s.pc, s.pc + 1] } := by
        simp only [State.undocExtent, hp, if_neg hcb, if_neg hd9, if_pos hcall]
      refine (callTo_failsWithin hinv a).after hkept hside ?_
      rw [hpush, hext]
      exact ⟨fun _ h => h, fun _ h => h, id, id, nofun, fun _ h => h⟩
    · exact failsWithin_next _ s s

/-- Every instruction fails within its extent (R411). -/
theorem exec_failsWithin (i : Instr) : FailsWithin (s.extent i) s (exec i s) := by
  have hk (w : Extent) : Kept w s s := .refl w s
  have hh : SameHostSide s s := .refl s
  cases i with
  | mov dst src =>
    exact ((readOperand_within (hk (s.extent (.mov dst src))) hh hs src).andThen fun v _ hu hside hi =>
      writeOperand_within hu hside hi dst rfl rfl v).outcome
  | mvi dst d8 => exact (writeOperand_within (hk (s.extent (.mvi dst d8))) hh hs dst rfl rfl d8).outcome
  | inr o | dcr o =>
    exact (readOperand_within (hk _) hh hs o).finish_within fun v u _ hu hside hi =>
      (writeOperand_within hu hside hi o rfl rfl _).finish_next
  | add src | adc src | sub src | sbb src | ana src | xra src | ora src | cmp src =>
    exact (readOperand_within (hk _) hh hs src).finish_next
  | lda _ | ldax _ => exact (readByte_within (hk _) hh hs _).finish_next
  | sta _ | stax _ => exact (writeByte_within (hk _) hh hs List.mem_cons_self s.a).outcome
  | lhld a16 => exact (readWord_within (hk _) hh hs a16).finish_next
  | shld a16 =>
    exact (writeWord_within (hk _) hh hs List.mem_cons_self (List.mem_cons_of_mem _ List.mem_cons_self) s.hl).outcome
  | push rp => exact (push16_pushExtent_within hs (s.getStackPair rp)).outcome
  | pop rp => cases rp <;> exact (pop16_within (hk _) hh hs rfl).finish_next
  | xthl =>
    refine (readWord_within (hk _) hh hs s.sp).finish_within fun v u _ hu hside hi => ?_
    have hsp : u.sp = s.sp := hu.sp rfl
    have hlow : u.sp ∈ (s.extent .xthl).stores := hsp ▸ List.mem_cons_self
    have hhigh : u.sp + 1 ∈ (s.extent .xthl).stores := hsp ▸ List.mem_cons_of_mem _ List.mem_cons_self
    exact (writeWord_within hu hside hi hlow hhigh u.hl).finish_next
  | jnz _ | jz _ | jnc _ | jc _ | jpo _ | jpe _ | jp _ | jm _ => exact jumpIf_failsWithin _ s _ _
  | cnz _ | cz _ | cnc _ | cc _ | cpo _ | cpe _ | cp _ | cm _ =>
    exact callIf_failsWithin hs (fun h => extent_onlyIf h rfl) _
  | rnz | rz | rnc | rc | rpo | rpe | rp | rm => exact retIf_failsWithin hs fun h => extent_onlyIf h rfl
  | call _ | rst _ => exact callTo_failsWithin hs _
  | ret => exact ret_failsWithin hs
  | undoc op => exact extent_undoc s op ▸ execUndoc_failsWithin hs op
  | lxi _ _ | xchg | adi _ | aci _ | sui _ | sbi _ | inx _ | dcx _ | dad _ | daa | ani _ | xri _ | ori _ | cpi _ | cma
  | cmc | stc | rlc | rrc | ral | rar | sphl | jmp _ | pchl | inp _ | outp _ | ei | di | hlt | nop =>
    exact failsWithin_next _ s _

end

/-- A failure leaves the line whose load failed, whatever its extent (D21). -/
theorem State.FailsAt.failedLoad {s t : State} (h : s.FailsAt t) (hs : s.Inv) (w : Extent) :
    ∃ x n after, (t.leave w).mem.FailedLoad x n after := by
  obtain ⟨u, a, hu, hraised⟩ := h
  obtain ⟨-, -, hok, _, _, hlast, hfailed⟩ :=
    (cacheResolve_within (.refl w u) (.refl u) (hu.inv hs) a).raised _ _ hraised
  obtain ⟨-, -, x, n, after, hx, -⟩ := leave_kept hok hlast hfailed w
  exact ⟨x, n, after, hx⟩

/-- Settles O33: the failure is raised where a load failed, and what it leaves keeps that line. -/
theorem failedLineStands : Obligations.FailedLineStands := by
  unfold Obligations.FailedLineStands
  intro s t hs
  refine ⟨fun h => ?_, fun i h => ?_⟩
  · obtain ⟨u, w, hfails, rfl⟩ := (step_ends s).integrity t h
    exact hfails.failedLoad hs w
  · obtain ⟨-, -, hkeeps⟩ := exec_failsWithin hs i t h
    exact hkeeps

end Sys2Proof.Machine

/-!
Two machines that differ only in their caches step alike (R236, R129): in sound storage every access answers with the
logical byte, so each operation gives the same value, in states that again differ only there.
-/
namespace Sys2Proof.Machine

/-! ## States that differ only in their caches -/

/-- The state with another memory system and number of lines. -/
def State.withCache (s : State) (m : MemSys) (nLines : Nat) : State :=
  { s with mem := m, cfg := { s.cfg with nLines := nLines } }

theorem sameGuestView_iff {s t : State} :
    SameGuestView s t ↔ ∃ m n, t = s.withCache m n ∧ SameContent s.mem m := by
  constructor
  · rintro ⟨ht, hm⟩
    exact ⟨t.mem, t.cfg.nLines, ht, hm⟩
  · rintro ⟨m, n, rfl, hm⟩
    exact ⟨rfl, hm⟩

/-- An update that does not look at the cache, and leaves it, keeps the guest's view. -/
theorem SameGuestView.map {s t : State} (h : SameGuestView s t) {f : State → State}
    (hf : ∀ m n, f (s.withCache m n) = (f s).withCache m n) (hm : (f s).mem = s.mem) :
    SameGuestView (f s) (f t) := by
  obtain ⟨m, n, rfl, hcontent⟩ := sameGuestView_iff.1 h
  exact sameGuestView_iff.2 ⟨m, n, hf m n, hm.symm ▸ hcontent⟩

theorem selectBank_withCache (s : State) (v : Byte) (m : MemSys) (n : Nat) :
    (s.withCache m n).selectBank v = (s.selectBank v).withCache m n := by
  unfold State.selectBank
  by_cases hv : v.toNat < s.cfg.banks
  · rw [if_pos hv, if_pos (by exact hv)]; rfl
  · rw [if_neg hv, if_neg (by exact hv)]

/-- The bank-select device does not look at the cache (R225). -/
theorem bankSelect_withCache (s : State) (p v : Byte) (m : MemSys) (n : Nat) :
    (s.withCache m n).bankSelect p v = (s.bankSelect p v).withCache m n := by
  have hblock : (if p = (s.withCache m n).cfg.portMmuBlock then (s.withCache m n).selectBlock v else s.withCache m n) =
      (if p = s.cfg.portMmuBlock then s.selectBlock v else s).withCache m n := by
    by_cases hp : p = s.cfg.portMmuBlock
    · rw [if_pos hp, if_pos (by exact hp)]; rfl
    · rw [if_neg hp, if_neg (by exact hp)]
  simp only [State.bankSelect, hblock, selectBank_withCache]
  by_cases hp : p = s.cfg.portMmuBank
  · rw [if_pos hp, if_pos (by exact hp)]
  · rw [if_neg hp, if_neg (by exact hp)]

/-- Two machines with the invariant and sound storage that differ only in their caches. -/
structure SoundView (s t : State) : Prop where
  view : SameGuestView s t
  inv : s.Inv
  inv' : t.Inv
  sound : s.Sound
  sound' : t.Sound

/-- An update of neither the memory system nor the control state keeps all of it. -/
theorem SoundView.map {s t : State} (h : SoundView s t) {f : State → State}
    (hf : ∀ m n, f (s.withCache m n) = (f s).withCache m n) (hm : ∀ u, (f u).mem = u.mem)
    (hc : ∀ u, (f u).control = u.control) : SoundView (f s) (f t) where
  view := h.view.map hf (hm s)
  inv := h.inv.of_control (hm s) (hc s)
  inv' := h.inv'.of_control (hm t) (hc t)
  sound := h.sound.congr (hm s) (congrArg ControlState.cfg (hc s))
  sound' := h.sound'.congr (hm t) (congrArg ControlState.cfg (hc t))

theorem SoundView.touched {s t s' t' : State} {L : Nat → Fin lineSize → Byte} (h : SoundView s t)
    (hs : Touched s s' L) (ht : Touched t t' L) : SoundView s' t' where
  view := by
    obtain ⟨m, n, rfl, -⟩ := sameGuestView_iff.1 h.view
    refine sameGuestView_iff.2 ⟨t'.mem, n, ?_, fun k j => by rw [ht.logical, hs.logical]⟩
    rw [ht.rest, hs.rest]
    rfl
  inv := hs.inv
  inv' := ht.inv
  sound := hs.sound h.sound
  sound' := ht.sound h.sound'

theorem SameGuestView.logical_eq {s t : State} (h : SameGuestView s t) : t.mem.logical = s.mem.logical := by
  funext n j
  exact h.2 n j

theorem SameGuestView.guestByte {s t : State} (h : SameGuestView s t) (a : Addr) : t.guestByte a = s.guestByte a := by
  have hlogical := h.logical_eq
  obtain ⟨m, n, rfl, -⟩ := sameGuestView_iff.1 h
  rw [State.guestByte, hlogical]
  rfl

theorem SameGuestView.stored {s t : State} (h : SameGuestView s t) (a : Addr) (v : Byte) :
    t.stored a v t.mem.logical = s.stored a v s.mem.logical := by
  have hlogical := h.logical_eq
  obtain ⟨m, n, rfl, -⟩ := sameGuestView_iff.1 h
  rw [hlogical]
  rfl

/-! ## Operations -/

/-- Both operations answer with the same value, in states that differ only in their caches. -/
def Res.Alike {α : Type} (x y : Res α) : Prop := ∃ v s t, x = .ok v s ∧ y = .ok v t ∧ SoundView s t

theorem alike_ok {α : Type} {s t : State} (h : SoundView s t) (v : α) : (Res.ok v s).Alike (.ok v t) :=
  ⟨v, s, t, rfl, rfl, h⟩

theorem Res.Alike.andThen {α β : Type} {x y : Res α} {k l : α → State → Res β} (h : x.Alike y)
    (hk : ∀ v s t, SoundView s t → (k v s).Alike (l v t)) : (x.andThen k).Alike (y.andThen l) := by
  obtain ⟨v, s, t, rfl, rfl, hst⟩ := h
  exact hk v s t hst

section
variable {s t : State} (h : SoundView s t)
include h

theorem readByte_alike (a : Addr) : (s.readByte a).Alike (t.readByte a) := by
  obtain ⟨s', hs, hs'⟩ := readByte_total h.inv h.sound a
  obtain ⟨t', ht, ht'⟩ := readByte_total h.inv' h.sound' a
  rw [h.view.guestByte] at ht
  rw [h.view.logical_eq] at ht'
  exact ⟨_, s', t', hs, ht, h.touched hs' ht'⟩

theorem writeByte_alike (a : Addr) (v : Byte) : (s.writeByte a v).Alike (t.writeByte a v) := by
  obtain ⟨s', hs, hs'⟩ := writeByte_total h.inv h.sound a v
  obtain ⟨t', ht, ht'⟩ := writeByte_total h.inv' h.sound' a v
  rw [h.view.stored] at ht'
  exact ⟨_, s', t', hs, ht, h.touched hs' ht'⟩

theorem readWord_alike (a : Addr) : (s.readWord a).Alike (t.readWord a) :=
  (readByte_alike h a).andThen fun _ _ _ h => (readByte_alike h _).andThen fun _ _ _ h => alike_ok h _

theorem writeWord_alike (a v : Addr) : (s.writeWord a v).Alike (t.writeWord a v) :=
  (writeByte_alike h a _).andThen fun _ _ _ h => writeByte_alike h _ _

theorem fetch8_alike : s.fetch8.Alike t.fetch8 := by
  have hpc : t.pc = s.pc := by rw [h.view.1]
  rw [State.fetch8, State.fetch8, hpc]
  refine (readByte_alike h s.pc).andThen fun v u u' h => alike_ok ?_ v
  exact h.map (f := fun u => { u with pc := u.pc + 1 }) (fun _ _ => rfl) (fun _ => rfl) fun _ => rfl

theorem fetch16_alike : s.fetch16.Alike t.fetch16 :=
  (fetch8_alike h).andThen fun _ _ _ h => (fetch8_alike h).andThen fun _ _ _ h => alike_ok h _

theorem fetchInstr_alike : s.fetchInstr.Alike t.fetchInstr :=
  (fetch8_alike h).andThen fun op _ _ h => by
    cases decodeOp op with
    | bare i => exact alike_ok h i
    | imm8 k => exact (fetch8_alike h).andThen fun _ _ _ h => alike_ok h _
    | imm16 k => exact (fetch16_alike h).andThen fun _ _ _ h => alike_ok h _

theorem push16_alike (v : Addr) : (s.push16 v).Alike (t.push16 v) := by
  have hsp : t.sp = s.sp := by rw [h.view.1]
  simp only [State.push16, hsp]
  exact writeWord_alike
    (h.map (f := fun u => { u with sp := s.sp - 2 }) (fun _ _ => rfl) (fun _ => rfl) fun _ => rfl) _ v

theorem pop16_alike : s.pop16.Alike t.pop16 := by
  have hsp : t.sp = s.sp := by rw [h.view.1]
  rw [State.pop16, State.pop16, hsp]
  refine (readWord_alike h s.sp).andThen fun v u u' h => alike_ok ?_ v
  exact h.map (f := fun u => { u with sp := u.sp + 2 }) (fun _ _ => rfl) (fun _ => rfl) fun _ => rfl

theorem readOperand_alike (o : Operand) : (s.readOperand o).Alike (t.readOperand o) := by
  obtain ⟨m, n, rfl, -⟩ := sameGuestView_iff.1 h.view
  cases o with
  | reg r =>
    have hreg : (s.withCache m n).getReg r = s.getReg r := by cases r <;> rfl
    rw [State.readOperand, State.readOperand, hreg]
    exact alike_ok h _
  | m => exact readByte_alike h s.hl

theorem writeOperand_alike (o : Operand) (v : Byte) : (s.writeOperand o v).Alike (t.writeOperand o v) := by
  cases o with
  | reg r =>
    exact alike_ok (h.map (f := fun u => u.setReg r v) (fun _ _ => by cases r <;> rfl) (fun u => u.setReg_mem r v)
      fun u => u.setReg_control r v) ()
  | m =>
    have hhl : t.hl = s.hl := by rw [h.view.1]; rfl
    rw [writeOperand_m, writeOperand_m, hhl]
    exact writeByte_alike h s.hl v

end

/-! ## Outcomes -/

/-- Both steps give next states that differ only in their caches, or the illegal-opcode fault in states that differ only
there and in `pc` (R1101). -/
def OutcomesAlike (o p : Host.Outcome State Fault Refusal) : Prop :=
  (∃ u v, o = .next u ∧ p = .next v ∧ SameGuestView u v) ∨
    ∃ u v, o = .fault (.illegalOpcode u) ∧ p = .fault (.illegalOpcode v) ∧ SameGuestView { u with pc := v.pc } v

theorem alike_next {u v : State} (h : SameGuestView u v) : OutcomesAlike (.next u) (.next v) :=
  .inl ⟨u, v, rfl, rfl, h⟩

theorem Res.Alike.finish {α : Type} {x y : Res α} {w w' : Extent}
    {k l : α → State → Host.Outcome State Fault Refusal} (h : x.Alike y)
    (hk : ∀ v s t, SoundView s t → OutcomesAlike (k v s) (l v t)) : OutcomesAlike (x.finish w k) (y.finish w' l) := by
  obtain ⟨v, s, t, rfl, rfl, hst⟩ := h
  exact hk v s t hst

/-- The rest of the step is an update that does not look at the cache. -/
theorem Res.Alike.finish_next {α : Type} {x y : Res α} {w w' : Extent} {f : α → State → State} (h : x.Alike y)
    (hf : ∀ v s m n, f v (s.withCache m n) = (f v s).withCache m n) (hm : ∀ v s, (f v s).mem = s.mem) :
    OutcomesAlike (x.finish w fun v s => .next (f v s)) (y.finish w' fun v s => .next (f v s)) :=
  h.finish fun v s _ hst => alike_next (hst.view.map (f := f v) (hf v s) (hm v s))

theorem Res.Alike.outcome {x y : Res Unit} {w w' : Extent} (h : x.Alike y) :
    OutcomesAlike (x.outcome w) (y.outcome w') :=
  h.finish_next (fun _ _ _ _ => rfl) fun _ _ => rfl

section
variable {s t : State} (h : SoundView s t)
include h

theorem callTo_alike (a : Addr) : OutcomesAlike (s.callTo a) (t.callTo a) := by
  have hpc : t.pc = s.pc := by rw [h.view.1]
  rw [State.callTo, State.callTo, hpc]
  exact (push16_alike h s.pc).finish_next (fun _ _ _ _ => rfl) fun _ _ => rfl

theorem ret_alike : OutcomesAlike s.ret t.ret :=
  (pop16_alike h).finish_next (fun _ _ _ _ => rfl) fun _ _ => rfl

theorem jump_alike (a : Addr) : OutcomesAlike (s.jump a) (t.jump a) :=
  alike_next (h.view.map (f := fun u => { u with pc := a }) (fun _ _ => rfl) rfl)

theorem jumpIf_alike (k : Cond) (a : Addr) : OutcomesAlike (s.jumpIf k a) (t.jumpIf k a) := by
  have hf : t.f = s.f := by rw [h.view.1]
  cases hk : k.holds s.f
  · rw [jumpIf_not_taken hk, jumpIf_not_taken (hf ▸ hk)]; exact alike_next h.view
  · rw [jumpIf_taken hk, jumpIf_taken (hf ▸ hk)]; exact jump_alike h a

theorem callIf_alike (k : Cond) (a : Addr) : OutcomesAlike (s.callIf k a) (t.callIf k a) := by
  have hf : t.f = s.f := by rw [h.view.1]
  cases hk : k.holds s.f
  · rw [callIf_not_taken hk, callIf_not_taken (hf ▸ hk)]; exact alike_next h.view
  · rw [callIf_taken hk, callIf_taken (hf ▸ hk)]; exact callTo_alike h a

theorem retIf_alike (k : Cond) : OutcomesAlike (s.retIf k) (t.retIf k) := by
  have hf : t.f = s.f := by rw [h.view.1]
  cases hk : k.holds s.f
  · rw [retIf_not_taken hk, retIf_not_taken (hf ▸ hk)]; exact alike_next h.view
  · rw [retIf_taken hk, retIf_taken (hf ▸ hk)]; exact ret_alike h

theorem undocAsAliased_alike (op : Byte) : OutcomesAlike (s.undocAsAliased op) (t.undocAsAliased op) := by
  unfold State.undocAsAliased
  split
  · exact (fetch16_alike h).finish fun a _ _ h => jump_alike h a
  split
  · exact ret_alike h
  split
  · exact (fetch16_alike h).finish fun a _ _ h => callTo_alike h a
  · exact alike_next h.view

theorem execUndoc_alike (op : Byte) : OutcomesAlike (execUndoc op s) (execUndoc op t) := by
  have hpolicy : t.cfg.undocPolicy = s.cfg.undocPolicy := by rw [h.view.1]
  unfold execUndoc
  rw [hpolicy]
  cases s.cfg.undocPolicy with
  | fault =>
    refine .inr ⟨_, _, rfl, rfl, ?_⟩
    exact h.view.map (f := fun u => { u with stop := true, pc := _ }) (fun _ _ => rfl) rfl
  | nop => exact alike_next h.view
  | siliconAlias => exact undocAsAliased_alike h op

/-- Every instruction ends alike in machines that differ only in their caches. -/
theorem exec_alike (i : Instr) : OutcomesAlike (exec i s) (exec i t) := by
  obtain ⟨m, n, rfl, hm⟩ := sameGuestView_iff.1 h.view
  cases i with
  | mov dst src => exact ((readOperand_alike h src).andThen fun v _ _ h => writeOperand_alike h dst v).outcome
  | mvi dst d8 => exact (writeOperand_alike h dst d8).outcome
  | add src | adc src | sub src | sbb src | ana src | xra src | ora src | cmp src =>
    exact (readOperand_alike h src).finish_next (fun _ _ _ _ => rfl) fun _ _ => rfl
  | inr o | dcr o =>
    exact (readOperand_alike h o).finish fun _ _ _ h =>
      (writeOperand_alike h o _).finish_next (fun _ _ _ _ => rfl) fun _ _ => rfl
  | lxi rp _ | inx rp | dcx rp => cases rp <;> exact alike_next ⟨rfl, hm⟩
  | dad rp => cases rp <;> exact alike_next ⟨rfl, hm⟩
  | lda a => exact (readByte_alike h a).finish_next (fun _ _ _ _ => rfl) fun _ _ => rfl
  | ldax rp => cases rp <;> exact (readByte_alike h _).finish_next (fun _ _ _ _ => rfl) fun _ _ => rfl
  | sta a => exact (writeByte_alike h a s.a).outcome
  | stax rp => cases rp <;> exact (writeByte_alike h _ s.a).outcome
  | lhld a => exact (readWord_alike h a).finish_next (fun _ _ _ _ => rfl) fun _ _ => rfl
  | shld a => exact (writeWord_alike h a s.hl).outcome
  | push rp => cases rp <;> exact (push16_alike h _).outcome
  | pop rp => cases rp <;> exact (pop16_alike h).finish_next (fun _ _ _ _ => rfl) fun _ _ => rfl
  | xthl =>
    refine (readWord_alike h s.sp).finish fun v u _ h => ?_
    obtain ⟨m, n, rfl, -⟩ := sameGuestView_iff.1 h.view
    exact (writeWord_alike h u.sp u.hl).finish_next (fun _ _ _ _ => rfl) fun _ _ => rfl
  | jnz a | jz a | jnc a | jc a | jpo a | jpe a | jp a | jm a => exact jumpIf_alike h _ a
  | cnz a | cz a | cnc a | cc a | cpo a | cpe a | cp a | cm a => exact callIf_alike h _ a
  | rnz | rz | rnc | rc | rpo | rpe | rp | rm => exact retIf_alike h _
  | call _ | rst _ => exact callTo_alike h _
  | ret => exact ret_alike h
  | undoc op => exact execUndoc_alike h op
  | outp p =>
    exact alike_next (h.view.map (f := fun u => { u.bankSelect p s.a with ports := s.ports ++ [.sent p s.a] })
      (fun m n => by rw [bankSelect_withCache]; rfl) (s.bankSelect_mem p s.a))
  | xchg | adi _ | aci _ | sui _ | sbi _ | daa | ani _ | xri _ | ori _ | cpi _ | cma | cmc | stc | rlc | rrc | ral | rar
  | sphl | jmp _ | pchl | inp _ | ei | di | hlt | nop => exact alike_next ⟨rfl, hm⟩

theorem step_alike (hstop : s.stop = false) : OutcomesAlike (step s) (step t) := by
  have hstop' : t.stop = false := by rw [h.view.1]; exact hstop
  rw [step_eq_finish hstop, step_eq_finish hstop']
  exact (fetchInstr_alike h).finish fun i _ _ h => exec_alike h i

end

theorem step_stopped {s : State} (h : s.stop = true) : step s = .refused .runEnded := by
  simp [step, State.stepWith, h]

/-- Settles O23: a stopped machine is refused, and any other steps alike. -/
theorem cacheIsInvisible : Obligations.CacheIsInvisible := by
  unfold Obligations.CacheIsInvisible
  intro s t hs ht hsound hsound' hview
  cases hstop : s.stop with
  | true =>
    have hstop' : t.stop = true := by rw [hview.1]; exact hstop
    rw [step_stopped hstop, step_stopped hstop']
    exact ⟨fun _ e => (nomatch e), fun _ e => (nomatch e), fun _ e => e⟩
  | false =>
    rcases step_alike ⟨hview, hs, ht, hsound, hsound'⟩ hstop with ⟨u, v, hu, hv, huv⟩ | ⟨u, v, hu, hv, huv⟩
    · rw [hu, hv]
      refine ⟨?_, fun _ e => (nomatch e), fun _ e => (nomatch e)⟩
      rintro _ ⟨⟩
      exact ⟨v, rfl, huv⟩
    · rw [hu, hv]
      refine ⟨fun _ e => (nomatch e), ?_, fun _ e => (nomatch e)⟩
      rintro _ ⟨⟩
      exact ⟨u, v, rfl, rfl, huv⟩

end Sys2Proof.Machine

/-!
The opcode map as a table, read both ways (R300 to R315, R330 to R332): what a row decodes to is well-formed and encodes
to the row's bytes, and every well-formed instruction stands in a row.
-/
namespace Sys2Proof

open Machine (lo_join)

/-! ## Rows with their operand -/

/-- The instruction of a row whose operand bytes are those of `v`: byte 2 is `lo v`, byte 3 is `hi v` (R308). -/
def Row.instr (v : Addr) : Row → Instr
  | .bare i => i
  | .imm8 k => k (lo v)
  | .imm16 k => k v

/-- The operand bytes that `v` gives a row (R300, R308). -/
def Row.operands (v : Addr) : Row → List Byte
  | .bare _ => []
  | .imm8 _ => [lo v]
  | .imm16 _ => [lo v, hi v]

theorem Row.instr_join_of_imm8 {r : Row} {k : Byte → Instr} {d : Byte} (h : r = .imm8 k) :
    r.instr (join 0 d) = k d := by
  rw [h, Row.instr, lo_join]

theorem decode_row (op : Byte) (v : Addr) (rest : List Byte) :
    decode (op :: ((decodeOp op).operands v ++ rest)) = .ok ((decodeOp op).instr v, rest) := by
  cases h : decodeOp op <;> simp [decode, h, Row.operands, Row.instr]

/-- Enough bytes are the operand bytes of some `v` and a tail. -/
theorem Row.exists_operands (r : Row) {rest : List Byte} (h : r.operandBytes ≤ rest.length) :
    ∃ v, rest = r.operands v ++ rest.drop r.operandBytes := by
  match r, rest, h with
  | .bare _, _, _ => exact ⟨0, rfl⟩
  | .imm8 _, d :: _, _ => exact ⟨join 0 d, by simp [Row.operands, Row.operandBytes]⟩
  | .imm16 _, l :: h :: _, _ => exact ⟨join h l, by simp [Row.operands, Row.operandBytes]⟩

theorem decode_of_enough {op : Byte} {rest : List Byte} (h : (decodeOp op).operandBytes ≤ rest.length) :
    ∃ v, decode (op :: rest) = .ok ((decodeOp op).instr v, rest.drop (decodeOp op).operandBytes) := by
  obtain ⟨v, hv⟩ := (decodeOp op).exists_operands h
  exact ⟨v, by rw [← decode_row, ← hv]⟩

theorem decode_of_missing {op : Byte} {rest : List Byte} (h : rest.length < (decodeOp op).operandBytes) :
    decode (op :: rest) = .error (.missingOperand op) := by
  cases hr : decodeOp op with
  | bare i => simp [hr, Row.operandBytes] at h
  | imm8 k =>
    obtain rfl : rest = [] := by simpa [hr, Row.operandBytes] using h
    simp [decode, hr]
  | imm16 k =>
    match rest, h with
    | [], _ | [_], _ => simp [decode, hr]
    | _ :: _ :: _, h => simp [hr, Row.operandBytes] at h

theorem Row.operandBytes_le (r : Row) : r.operandBytes ≤ 2 := by
  cases r <;> simp [Row.operandBytes]

/-- Bytes that decode are an opcode, the operand bytes of its row, and the tail. -/
theorem decode_eq_ok {bytes rest : List Byte} {i : Instr} (h : decode bytes = .ok (i, rest)) :
    ∃ op v, bytes = op :: ((decodeOp op).operands v ++ rest) ∧ i = (decodeOp op).instr v := by
  match bytes with
  | [] => cases h
  | op :: tail =>
    have henough : (decodeOp op).operandBytes ≤ tail.length :=
      not_lt.1 fun hlt => nomatch (decode_of_missing hlt).symm.trans h
    obtain ⟨v, hv⟩ := (decodeOp op).exists_operands henough
    rw [hv, decode_row] at h
    cases h
    exact ⟨op, v, congrArg _ hv, rfl⟩

/-! ## The fields of an opcode byte -/

/-- A 3-bit field has one of eight values. -/
theorem bits3_cases {P : BitVec 3 → Prop} (v0 : P 0#3) (v1 : P 1#3) (v2 : P 2#3) (v3 : P 3#3) (v4 : P 4#3)
    (v5 : P 5#3) (v6 : P 6#3) (v7 : P 7#3) (y : BitVec 3) : P y := by
  have h : ∀ y : BitVec 3, y = 0 ∨ y = 1 ∨ y = 2 ∨ y = 3 ∨ y = 4 ∨ y = 5 ∨ y = 6 ∨ y = 7 := by decide
  rcases h y with rfl | rfl | rfl | rfl | rfl | rfl | rfl | rfl <;> assumption

/-- An opcode byte is its quadrant and two 3-bit fields (R302). -/
theorem eq_append_fields (op : Byte) : op = op.extractLsb' 6 2 ++ fieldY op ++ fieldZ op := by
  revert op
  decide

@[simp] theorem fieldY_append (q : BitVec 2) (y z : BitVec 3) : fieldY (q ++ y ++ z) = y := by
  revert q y z
  decide

@[simp] theorem fieldZ_append (q : BitVec 2) (y z : BitVec 3) : fieldZ (q ++ y ++ z) = z := by
  revert q y z
  decide

@[simp] theorem Operand.bits_ofBits (y : BitVec 3) : (Operand.ofBits y).bits = y := by
  cases y using bits3_cases <;> rfl

@[simp] theorem Operand.ofBits_eq_m {y : BitVec 3} : Operand.ofBits y = .m ↔ y = 6#3 := by
  revert y
  decide

/-! ## What a row gives encodes to the row's bytes -/

/-- A row's instruction is well-formed and encodes to the opcode and the row's operand bytes. -/
def Row.Encodes (r : Row) (op : Byte) : Prop :=
  ∀ v, (r.instr v).wellFormed = true ∧ encode (r.instr v) = op :: r.operands v

theorem Instr.wellFormed_mov {d s : Operand} (h : ¬(d = .m ∧ s = .m)) : (Instr.mov d s).wellFormed = true := by
  rcases d with _ | _ <;> rcases s with _ | _
  case m.m => exact absurd ⟨rfl, rfl⟩ h
  all_goals rfl

/-- Register fields go back by `bits_ofBits`; the other rows are a table over `op[5:3]`. -/
theorem decodeQ0_encodes (y z : BitVec 3) : (decodeQ0 (0#2 ++ y ++ z)).Encodes (0#2 ++ y ++ z) := by
  cases z using bits3_cases
  case v4 | v5 | v6 =>
    simp [Row.Encodes, decodeQ0, Row.instr, Row.operands, Instr.wellFormed, encode]
  all_goals cases y using bits3_cases <;> exact fun _ => ⟨rfl, rfl⟩

theorem decodeQ1_encodes (y z : BitVec 3) : (decodeQ1 (1#2 ++ y ++ z)).Encodes (1#2 ++ y ++ z) := by
  intro v
  unfold decodeQ1
  split
  · next h => exact ⟨rfl, by rw [h]; rfl⟩
  · next h =>
    rw [fieldY_append, fieldZ_append]
    refine ⟨Instr.wellFormed_mov ?_, by simp [encode, Row.instr, Row.operands]⟩
    rintro ⟨hy, hz⟩
    obtain ⟨rfl, rfl⟩ := And.intro (Operand.ofBits_eq_m.1 hy) (Operand.ofBits_eq_m.1 hz)
    exact h rfl

theorem encodeAlu_ofBits (y z : BitVec 3) : encodeAlu y (Operand.ofBits z) = [2#2 ++ y ++ z] := by
  simp [encodeAlu]

theorem decodeQ2_encodes (y z : BitVec 3) : (decodeQ2 (2#2 ++ y ++ z)).Encodes (2#2 ++ y ++ z) := by
  unfold decodeQ2
  rw [fieldY_append, fieldZ_append]
  cases y using bits3_cases <;> exact fun _ => ⟨rfl, encodeAlu_ofBits _ z⟩

/-- A table over `op[2:0]` and `op[5:3]`: with both fixed, row and encoding evaluate to the same bytes. -/
theorem decodeQ3_encodes (y z : BitVec 3) : (decodeQ3 (3#2 ++ y ++ z)).Encodes (3#2 ++ y ++ z) := by
  cases z using bits3_cases
  all_goals cases y using bits3_cases <;> exact fun _ => ⟨rfl, rfl⟩

theorem decodeOp_encodes (op : Byte) : (decodeOp op).Encodes op := by
  have hop := eq_append_fields op
  unfold decodeOp
  split
  case h_1 hq => rw [hop, hq]; exact decodeQ0_encodes _ _
  case h_2 hq => rw [hop, hq]; exact decodeQ1_encodes _ _
  case h_3 hq => rw [hop, hq]; exact decodeQ2_encodes _ _
  case h_4 hq0 hq1 hq2 =>
    have hq : op.extractLsb' 6 2 = 3#2 := by
      generalize op.extractLsb' 6 2 = q at hq0 hq1 hq2
      revert q
      decide
    rw [hop, hq]; exact decodeQ3_encodes _ _

/-! ## Every well-formed instruction stands in a row -/

/-- The row of an instruction's first byte gives the instruction, for some operand. -/
theorem exists_row_of_wellFormed {i : Instr} (h : i.wellFormed = true) :
    ∃ op args v, encode i = op :: args ∧ (decodeOp op).instr v = i := by
  cases i with
  | mov dst src =>
    refine ⟨_, _, 0, rfl, ?_⟩
    cases dst with
    | reg r => cases r <;> rcases src with (_ | _ | _ | _ | _ | _ | _) | _ <;> rfl
    | m =>
      cases src with
      | reg r => cases r <;> rfl
      | m => cases h
  | mvi dst d8 =>
    refine ⟨_, _, join 0 d8, rfl, Row.instr_join_of_imm8 ?_⟩
    rcases dst with (_ | _ | _ | _ | _ | _ | _) | _ <;> rfl
  | add o | adc o | sub o | sbb o | ana o | xra o | ora o | cmp o | inr o | dcr o =>
    exact ⟨_, _, 0, rfl, by rcases o with (_ | _ | _ | _ | _ | _ | _) | _ <;> rfl⟩
  | adi d8 | aci d8 | sui d8 | sbi d8 | ani d8 | xri d8 | ori d8 | cpi d8 | inp d8 | outp d8 =>
    exact ⟨_, _, join 0 d8, rfl, Row.instr_join_of_imm8 rfl⟩
  | lxi p d16 => exact ⟨_, _, d16, rfl, by cases p <;> rfl⟩
  | ldax p | stax p | inx p | dcx p | dad p | push p | pop p => exact ⟨_, _, 0, rfl, by cases p <;> rfl⟩
  | lda a | sta a | lhld a | shld a | jmp a | jnz a | jz a | jnc a | jc a | jpo a | jpe a | jp a | jm a | call a | cnz a
  | cz a | cnc a | cc a | cpo a | cpe a | cp a | cm a => exact ⟨_, _, a, rfl, rfl⟩
  | xchg | daa | cma | cmc | stc | rlc | rrc | ral | rar | xthl | sphl | ret | rnz | rz | rnc | rc | rpo | rpe | rp | rm
  | pchl | ei | di | hlt | nop => exact ⟨_, _, 0, rfl, rfl⟩
  | rst n => exact ⟨_, _, 0, rfl, by cases n using bits3_cases <;> rfl⟩
  | undoc op => exact ⟨_, _, 0, rfl, by revert op; decide⟩

/-! ## The statements -/

/-- Settles O1: the instruction stands in a row, and that row encodes to the bytes decoded. -/
theorem decodeEncode : Obligations.DecodeEncode := by
  unfold Obligations.DecodeEncode
  intro i rest hwf
  obtain ⟨op, _, v, -, rfl⟩ := exists_row_of_wellFormed hwf
  rw [(decodeOp_encodes op v).2, List.cons_append, decode_row]

/-- Settles O2: the bytes are an opcode with the operand bytes of its row, which is what the row encodes to. -/
theorem encodeDecode : Obligations.EncodeDecode := by
  unfold Obligations.EncodeDecode
  intro bytes i rest h
  obtain ⟨op, v, rfl, rfl⟩ := decode_eq_ok h
  obtain ⟨hwf, henc⟩ := decodeOp_encodes op v
  exact ⟨hwf, by rw [henc, List.cons_append]⟩

/-- An undocumented instruction comes from its own byte, which is one of the 12 (O2), and each of the 12 decodes to it
(O1). -/
theorem decode_undoc_iff (op : Byte) (rest : List Byte) :
    (∃ v t, decode (op :: rest) = .ok (.undoc v, t)) ↔ op ∈ undocOpcodes := by
  constructor
  · rintro ⟨v, t, h⟩
    obtain ⟨hwf, henc⟩ := encodeDecode _ _ _ h
    cases henc
    exact List.contains_iff_mem.1 hwf
  · intro h
    exact ⟨op, rest, decodeEncode (.undoc op) rest (List.contains_iff_mem.2 h)⟩

/-- Settles O3, by the number of operand bytes of the opcode's row and, for the 12 values, by O1 and O2. -/
theorem decoderIsTotal : Obligations.DecoderIsTotal := by
  unfold Obligations.DecoderIsTotal
  intro op rest
  have hlen : instrLength op = (decodeOp op).operandBytes + 1 := Nat.add_comm _ _
  have hle := (decodeOp op).operandBytes_le
  refine ⟨⟨by omega, by omega⟩, fun h => ?_, fun h => decode_of_missing (by omega), decode_undoc_iff op rest⟩
  rw [hlen, Nat.add_sub_cancel]
  obtain ⟨v, hv⟩ := decode_of_enough (op := op) (rest := rest) (by omega)
  exact ⟨_, hv⟩

end Sys2Proof

/-!
The step as fetch and instruction: what runs, on which state, and where there is no step (R400 to R402, R414).
-/
namespace Sys2Proof.Machine

/-- Settles O5: a running machine finishes its fetch with the meaning of the instruction fetched. -/
theorem stepRunsDecodedInstruction : Obligations.StepRunsDecodedInstruction := by
  unfold Obligations.StepRunsDecodedInstruction
  exact fun _ _ _ hstop hfetch => step_of_fetch hstop hfetch

theorem exec_ne_refused (i : Instr) (s : State) (r : Refusal) : exec i s ≠ .refused r := by
  obtain ⟨-, hrefused, -⟩ := faultsAreTheTwoReasons i s
  exact hrefused r

/-- Settles O7: a stopped machine is refused by that name, and where it runs neither the fetch nor a meaning refuses. -/
theorem stepRefusesOnlyWhenStopped : Obligations.StepRefusesOnlyWhenStopped := by
  unfold Obligations.StepRefusesOnlyWhenStopped
  intro s r
  cases hstop : s.stop with
  | true =>
    rw [step_stopped hstop]
    exact ⟨fun h => by cases h; exact ⟨rfl, rfl⟩, fun ⟨_, hr⟩ => hr ▸ rfl⟩
  | false =>
    refine ⟨fun h => ?_, fun ⟨h, _⟩ => nomatch h⟩
    rw [step_eq_finish hstop] at h
    cases hfetch : s.fetchInstr with
    | ok i u =>
      rw [hfetch, Res.finish_ok] at h
      exact absurd h (exec_ne_refused i u r)
    | raised q u =>
      rw [hfetch, Res.finish_raised] at h
      cases h

/-! ## The bytes at `pc` -/

/-- The operand bytes of any row are among the two that follow the opcode. -/
theorem decode_guestBytes (s : State) : ∃ rest,
    decode [s.guestByte s.pc, s.guestByte (s.pc + 1), s.guestByte (s.pc + 2)] =
      .ok ((decodeOp (s.guestByte s.pc)).instr (s.guestWord (s.pc + 1)), rest) := by
  cases hrow : decodeOp (s.guestByte s.pc) <;> simp [decode, hrow, Row.instr, State.guestWord, BitVec.add_assoc]

/-- A touch does not look at `pc`. -/
theorem Touched.withPc {s t : State} {L : Nat → Fin lineSize → Byte} (h : Touched s t L) (pc : Addr) :
    Touched { s with pc := pc } { t with pc := pc } L where
  rest := by rw [h.rest]
  logical := h.logical
  inv := h.inv.congr rfl rfl rfl h.inv.signals
  sound := h.sound
  outside := h.outside

/-- In sound storage the fetch reads the row of the opcode with the operand bytes after it, moves `pc` past them, and
changes nothing else but the cache (R401, R402). -/
theorem fetchInstr_at_pc {s : State} (hs : s.Inv) (hw : s.Sound) :
    ∃ t, s.fetchInstr = .ok ((decodeOp (s.guestByte s.pc)).instr (s.guestWord (s.pc + 1))) t ∧
      Touched { s with pc := s.pc + BitVec.ofNat 16 (instrLength (s.guestByte s.pc)) } t s.mem.logical := by
  obtain ⟨u, hop, hu⟩ := fetch8_total hs hw
  have hpc : u.pc = s.pc + 1 := congrArg State.pc hu.rest
  have hword : u.guestWord u.pc = s.guestWord (s.pc + 1) := by
    rw [hpc]
    exact congrArg₂ join (hu.guestByte _) (hu.guestByte _)
  have hbyte : u.guestByte u.pc = lo (s.guestWord (s.pc + 1)) := by
    rw [← hword, State.guestWord, lo_join]
  have hmoved {t : State} {n : Nat} (ht : Touched { u with pc := u.pc + BitVec.ofNat 16 n } t u.mem.logical) :
      Touched { s with pc := s.pc + BitVec.ofNat 16 (1 + n) } t s.mem.logical := by
    have hadd : u.pc + BitVec.ofNat 16 n = s.pc + BitVec.ofNat 16 (1 + n) := by
      rw [hpc, BitVec.add_assoc, BitVec.ofNat_add]
      rfl
    rw [hadd, hu.logical_eq] at ht
    exact (hu.withPc _).trans ht
  simp only [State.fetchInstr, hop, Res.andThen_ok, instrLength]
  cases decodeOp (s.guestByte s.pc) with
  | bare i => exact ⟨u, rfl, hu⟩
  | imm8 k =>
    obtain ⟨t, hd, ht⟩ := fetch8_total hu.inv (hu.sound hw)
    exact ⟨t, by simp only [hd, Res.andThen_ok, hbyte, Row.instr], hmoved ht⟩
  | imm16 k =>
    obtain ⟨t, hv, ht⟩ := fetch16_total hu.inv (hu.sound hw)
    exact ⟨t, by simp only [hv, Res.andThen_ok, hword, Row.instr], hmoved ht⟩

/-- A row encodes to as many bytes as its opcode's instructions have (R300). -/
theorem encode_row_length (op : Byte) (v : Addr) : (encode ((decodeOp op).instr v)).length = instrLength op := by
  rw [(decodeOp_encodes op v).2, instrLength]
  cases decodeOp op <;> rfl

/-- Settles O6: the bytes decode to what the fetch reads, and the fetch moves `pc` by the length of that instruction. -/
theorem stepRunsBytesAtPc : Obligations.StepRunsBytesAtPc := by
  unfold Obligations.StepRunsBytesAtPc
  intro s i rest hs hw hstop hdecode
  obtain ⟨_, hrow⟩ := decode_guestBytes s
  cases hdecode.symm.trans hrow
  obtain ⟨t, hfetch, ht⟩ := fetchInstr_at_pc hs hw
  refine ⟨(decodeOp_encodes _ _).1, t.mem, t, ht.logical, ?_, ht.inv, ht.sound hw, step_of_fetch hstop hfetch⟩
  rw [encode_row_length, BitVec.ofNat_add, BitVec.ofNat_toNat, BitVec.setWidth_eq]
  exact ht.rest

end Sys2Proof.Machine

/-!
What an integrity failure of a step leaves alone: what is outside the extent of the fetch that fails, or of the
instruction fetched (R411).
-/
namespace Sys2Proof.Machine

theorem step_running_of_fault {s : State} {r : Fault} (h : step s = .fault r) : s.stop = false := by
  cases hstop : s.stop with
  | false => rfl
  | true => cases (step_stopped hstop).symm.trans h

/-- A fetch stays within any extent: it stores nothing and writes no register but `pc` (R401, R402). -/
theorem fetchInstr_within {s : State} (hs : s.Inv) (w : Extent) : s.fetchInstr.Within w s :=
  (fetch8_within (.refl w s) (.refl s) hs).andThen fun op _ hk hh hi => by
    cases decodeOp op with
    | bare i => exact within_ok hk hh hi i
    | imm8 k => exact (fetch8_within hk hh hi).andThen fun _ _ hk hh hi => within_ok hk hh hi _
    | imm16 k => exact (fetch16_within hk hh hi).andThen fun _ _ hk hh hi => within_ok hk hh hi _

/-- A step that ends in an integrity failure left alone all that is outside the extent of its fetch, or fetched an
instruction that left alone all that is outside its own. -/
theorem step_integrity_cases {s t : State} (hs : s.Inv) (h : step s = .fault (.memoryIntegrity t)) :
    (Kept s.fetchExtent s t ∧ SameHostSide s t) ∨
      ∃ i u, s.fetchInstr = .ok i u ∧ u.Inv ∧ exec i u = .fault (.memoryIntegrity t) := by
  rw [step_eq_finish (step_running_of_fault h)] at h
  have hfetch := fetchInstr_within hs s.fetchExtent
  rcases hfetch.finish h with ⟨hkept, hside, -⟩ | ⟨i, u, hok, hexec⟩
  · exact .inl ⟨hkept, hside⟩
  · exact .inr ⟨i, u, hok, (hfetch.ok i u hok).2.2, hexec⟩

/-- A block that no guest address names is outside every extent (R220). -/
theorem Kept.logical_of_unmapped {w : Extent} {s t : State} (h : Kept w s t) {n : Nat} (hn : ∀ a : Addr, s.blk a ≠ n)
    (j : Fin lineSize) : t.mem.logical n j = s.mem.logical n j :=
  h.bytes n j fun a _ e => hn a (congrArg Prod.fst e)

/-- Settles O32: the failing instruction, or the failing fetch, stays within its extent. -/
theorem integrityFaultFrame : Obligations.IntegrityFaultFrame := by
  unfold Obligations.IntegrityFaultFrame
  intro s t hs
  refine ⟨fun i h => ?_, fun r u hraised h => ?_, fun h => ?_⟩
  · obtain ⟨hkept, hside, -⟩ := exec_failsWithin hs i t h
    exact ⟨hkept, hside⟩
  · rcases step_integrity_cases hs h with ⟨hkept, -⟩ | ⟨i, u, hok, -⟩
    · exact hkept
    · cases hok.symm.trans hraised
  · rcases step_integrity_cases hs h with ⟨hkept, hside⟩ | ⟨i, u, hok, hi, hexec⟩
    · exact ⟨hside, fun n hn => hkept.logical_of_unmapped hn⟩
    · obtain ⟨hfetched, hside, -⟩ := (fetchInstr_within hs {}).ok i u hok
      obtain ⟨hkept, hside', -⟩ := exec_failsWithin hi i t hexec
      refine ⟨hside.trans hside', fun n hn j => ?_⟩
      have hn' : ∀ a : Addr, u.blk a ≠ n := fun a e => hn a ((congrArg Prod.fst (hside.loc a)).symm.trans e)
      exact (hkept.logical_of_unmapped hn' j).trans (hfetched.logical_of_unmapped hn j)

end Sys2Proof.Machine

/-!
How a run ends, as the steps it took: the signals a step leaves, and an induction over the polls of the run loop (R414,
R1121, R1141).
-/
namespace Sys2Proof.Machine

/-- The illegal-opcode fault requests the stop and is not fatal (R116, R117, R1101). -/
theorem step_illegal_signals {s t : State} (h : step s = .fault (.illegalOpcode t)) :
    t.stop = true ∧ t.fatal = s.fatal := by
  rw [step_eq_finish (step_running_of_fault h)] at h
  rcases (fetchInstr_fails s).finish s.fetchExtent exec with ⟨_, hfails, -⟩ | ⟨i, u, hfetch, hexec⟩
  · cases hfails.symm.trans h
  · obtain ⟨hfault, -, -⟩ := faultsAreTheTwoReasons i u
    rcases hfault _ (hexec.symm.trans h) with ⟨_, ⟨⟩, -⟩ | ⟨pc, ⟨⟩, -⟩
    exact ⟨rfl, congrArg ControlState.fatal ((fetchInstr_from .refl).ok i u hfetch).control⟩

/-- A step that completes leaves the fatal signal (R117). -/
theorem step_fatal {s t : State} (h : step s = .next t) : t.fatal = s.fatal := by
  obtain ⟨i, u, hfetch, hexec⟩ := step_eq_next h
  obtain ⟨-, hfatal, -⟩ := controlStateWriters i u t hexec
  exact hfatal.trans (congrArg ControlState.fatal ((fetchInstr_from .refl).ok i u hfetch).control)

/-- The polls before the `k`-th requested no stop, and `k + 1` steps come to this outcome. -/
def StepsUnpolled (polls : List Bool) (s : State) (k : Nat) (o : Host.Outcome State Fault Refusal) : Prop :=
  (∀ j < k, polls[j]? = some false) ∧ Host.Core.run Sys2Proof.core (k + 1) s = o

/-- How a run that stands so has come there, in terms of its steps (R414, R1121, R1141). -/
def RunStands (polls : List Bool) (s : State) : RunStatus → Prop
  | .halted t => t.stop = true ∧ t.fatal = false ∧ ∃ k < polls.length, StepsUnpolled polls s k (.next t)
  | .faulted r => (∃ k < polls.length, StepsUnpolled polls s k (.fault r)) ∧
      ((∃ t, r = .memoryIntegrity t ∧ t.stop = true ∧ t.fatal = true) ∨
        ∃ t, r = .illegalOpcode t ∧ t.stop = true ∧ t.fatal = false)
  | .stoppedByHost t => t.fatal = false ∧ ∃ k u, StepsUnpolled polls s k (.next u) ∧ polls[k]? = some true ∧
      u.stop = false ∧ t = u.hostStop
  | .refused _ => False
  | .running t => t.stop = false ∧ (∀ b ∈ polls, b = false) ∧
      Host.Core.run Sys2Proof.core polls.length s = .next t

/-- The first step of a run. -/
theorem stepsUnpolled_zero {polls : List Bool} {s : State} {o : Host.Outcome State Fault Refusal}
    (h : Host.Core.run Sys2Proof.core 1 s = o) : StepsUnpolled polls s 0 o :=
  ⟨nofun, h⟩

/-- A step more at the front, after which no stop was requested. -/
theorem StepsUnpolled.cons {polls : List Bool} {s t : State} {k : Nat} {o : Host.Outcome State Fault Refusal}
    (h : StepsUnpolled polls t k o) (hstep : step s = .next t) : StepsUnpolled (false :: polls) s (k + 1) o := by
  obtain ⟨hpolls, hrun⟩ := h
  refine ⟨fun j hj => ?_, (run_next hstep (k + 1)).trans hrun⟩
  cases j with
  | zero => rfl
  | succ j => exact hpolls j (Nat.lt_of_succ_lt_succ hj)

theorem RunStands.cons {polls : List Bool} {s t : State} {x : RunStatus} (h : RunStands polls t x)
    (hstep : step s = .next t) : RunStands (false :: polls) s x := by
  cases x with
  | halted u =>
    obtain ⟨hstop, hfatal, k, hk, hsteps⟩ := h
    exact ⟨hstop, hfatal, k + 1, Nat.succ_lt_succ hk, hsteps.cons hstep⟩
  | faulted r =>
    obtain ⟨⟨k, hk, hsteps⟩, hsignals⟩ := h
    exact ⟨⟨k + 1, Nat.succ_lt_succ hk, hsteps.cons hstep⟩, hsignals⟩
  | stoppedByHost u =>
    obtain ⟨hfatal, k, v, hsteps, hpoll, hstopped⟩ := h
    exact ⟨hfatal, k + 1, v, hsteps.cons hstep, hpoll, hstopped⟩
  | refused r => exact h
  | running u =>
    obtain ⟨hstop, hpolls, hrun⟩ := h
    exact ⟨hstop, List.forall_mem_cons.2 ⟨rfl, hpolls⟩, (run_next hstep polls.length).trans hrun⟩

/-- A running machine under the invariant has no fatal signal (R117). -/
theorem State.Inv.fatal_of_running {s : State} (hs : s.Inv) (hstop : s.stop = false) : s.fatal = false :=
  Bool.eq_false_iff.2 fun hfatal => nomatch (hs.signals hfatal).symm.trans hstop

/-- The fault of a step sets `stop`, and `fatal` exactly where it is the integrity failure (R1100, R1101). -/
theorem step_fault_signals {s : State} {r : Fault} (hfatal : s.fatal = false) (h : step s = .fault r) :
    (∃ t, r = .memoryIntegrity t ∧ t.stop = true ∧ t.fatal = true) ∨
      ∃ t, r = .illegalOpcode t ∧ t.stop = true ∧ t.fatal = false := by
  cases r with
  | memoryIntegrity t => exact .inl ⟨t, rfl, step_integrity_signals h⟩
  | illegalOpcode t =>
    obtain ⟨hstop, hkept⟩ := step_illegal_signals h
    exact .inr ⟨t, rfl, hstop, hkept.trans hfatal⟩

/-- Every run stands as its steps have taken it, by induction on the polls: each poll is one turn of the loop. -/
theorem runLoop_stands (polls : List Bool) : ∀ {s : State}, s.Inv → s.stop = false →
    RunStands polls s (runLoop polls s) := by
  induction polls with
  | nil =>
    intro s _ hstop
    rw [runLoop, if_neg (by simp [hstop])]
    exact ⟨hstop, nofun, run_zero s⟩
  | cons hostStops polls ih =>
    intro s hs hstop
    have hfatal := hs.fatal_of_running hstop
    rw [runLoop, if_neg (by simp [hstop])]
    cases hstep : step s with
    | fault r =>
      exact ⟨⟨0, Nat.succ_pos _, stepsUnpolled_zero (run_fault hstep 0)⟩, step_fault_signals hfatal hstep⟩
    | refused r =>
      obtain ⟨hstopped, -⟩ := (stepRefusesOnlyWhenStopped s r).1 hstep
      cases hstopped.symm.trans hstop
    | next t =>
      have hfirst : Host.Core.run Sys2Proof.core 1 s = .next t := run_next hstep 0
      have htfatal : t.fatal = false := (step_fatal hstep).trans hfatal
      cases htstop : t.stop with
      | true =>
        simp only [htstop, if_true]
        exact ⟨htstop, htfatal, 0, Nat.succ_pos _, stepsUnpolled_zero hfirst⟩
      | false =>
        cases hostStops with
        | true =>
          simp only [htstop, if_true]
          exact ⟨htfatal, 0, t, stepsUnpolled_zero hfirst, rfl, htstop, rfl⟩
        | false =>
          simp only [htstop]
          exact (ih (stepKeepsInvariant s t hs hstep) htstop).cons hstep

/-- Settles O25: each clause is how a run that stands so has come there. -/
theorem runEndsAreClassified : Obligations.RunEndsAreClassified := by
  unfold Obligations.RunEndsAreClassified
  intro polls s hs hstop
  have hstands := runLoop_stands polls hs hstop
  refine ⟨fun t h => ?_, fun r h => ?_, fun t h => ?_, fun r h => ?_, fun t h => ?_⟩ <;> rw [h] at hstands
  · exact hstands
  · exact hstands
  · obtain ⟨hfatal, k, u, ⟨hpolls, hrun⟩, hpoll, hstopped⟩ := hstands
    exact ⟨hfatal, k, u, hpolls, hpoll, hrun, hstopped⟩
  · exact hstands
  · exact hstands

end Sys2Proof.Machine

/-!
The registers, FLAGS and `sp` that an instruction leaves: those outside its extent (R112, R409, R411), in every state.
`exec_keepsRegs` says it once for each instruction.
-/
namespace Sys2Proof.Machine

/-! ## FLAGS under a mask -/

/-- The FLAGS bits outside the mask stand (R409). -/
def FlagsKept (mask old new : Byte) : Prop := ∀ k < 8, mask.getLsbD k = false → new.getLsbD k = old.getLsbD k

theorem FlagsKept.refl (mask f : Byte) : FlagsKept mask f f := fun _ _ _ => rfl

/-- Every bit is inside the mask. -/
theorem flagsKept_all (old new : Byte) : FlagsKept 0xFF old new := by
  intro k hk hmask
  have hall : ∀ k < 8, (0xFF : Byte).getLsbD k = true := by decide
  exact nomatch (hall k hk).symm.trans hmask

section
variable {mask old f : Byte} (h : FlagsKept mask old f)
include h

theorem FlagsKept.put {i : Nat} (hi : i < 8) (hmask : mask.getLsbD i = true) (v : Bool) :
    FlagsKept mask old (flagPut f i v) := by
  intro k hk hout
  have hne : i ≠ k := fun e => nomatch (e ▸ hmask).symm.trans hout
  rw [flagPut_bit f i v k hi hk, if_neg hne]
  exact h k hk hout

theorem FlagsKept.setCY (hmask : mask.getLsbD 0 = true) (v : Bool) : FlagsKept mask old (setCY v f) :=
  h.put (by decide) hmask v

theorem FlagsKept.setAC (hmask : mask.getLsbD 4 = true) (v : Bool) : FlagsKept mask old (setAC v f) :=
  h.put (by decide) hmask v

theorem FlagsKept.setZSP (hz : mask.getLsbD 6 = true) (hs : mask.getLsbD 7 = true) (hp : mask.getLsbD 2 = true)
    (r : Byte) : FlagsKept mask old (setZSP r f) :=
  ((h.put (by decide) hz _).put (by decide) hs _).put (by decide) hp _

end

theorem sumFlags_kept (x : Sum) (f : Byte) : FlagsKept 0xD5 f (sumFlags x f) :=
  (((FlagsKept.refl _ f).setZSP rfl rfl rfl x.r).setCY rfl x.cy).setAC rfl x.ac

theorem logicFlags_kept (r : Byte) (ac : Bool) (f : Byte) : FlagsKept 0xD5 f (logicFlags r ac f) :=
  (((FlagsKept.refl _ f).setZSP rfl rfl rfl r).setCY rfl false).setAC rfl ac

theorem stepFlags_kept (r : Byte) (ac : Bool) (f : Byte) : FlagsKept 0xD4 f (stepFlags r ac f) :=
  ((FlagsKept.refl _ f).setZSP rfl rfl rfl r).setAC rfl ac

theorem setCY_kept (v : Bool) (f : Byte) : FlagsKept 0x01 f (setCY v f) := (FlagsKept.refl _ f).setCY rfl v

/-- DAA writes Sign under `DAA_SIGN = from_result` only (R619). -/
theorem daaFlags_kept (k : DaaSign) (a f : Byte) : FlagsKept (flagMask k .daa) f (daaFlags k a f) := by
  have hcommon {mask : Byte} (hz : mask.getLsbD 6 = true) (hp : mask.getLsbD 2 = true) (hac : mask.getLsbD 4 = true)
      (hcy : mask.getLsbD 0 = true) : FlagsKept mask f (daaFlags .unchanged a f) :=
    ((((FlagsKept.refl mask f).put (by decide) hz _).put (by decide) hp _).setAC hac _).setCY hcy _
  cases k with
  | unchanged => exact hcommon rfl rfl rfl rfl
  | fromResult => exact (hcommon rfl rfl rfl rfl).put (by decide) rfl _

/-! ## Registers outside an extent -/

/-- The registers, FLAGS bits and `sp` outside the extent are as before. -/
structure RegsKept (w : Extent) (s t : State) : Prop where
  regs : ∀ r, r ∉ w.regs → t.getReg r = s.getReg r
  flags : FlagsKept w.flags s.f t.f
  sp : w.sp = false → t.sp = s.sp

theorem RegsKept.refl (w : Extent) (s : State) : RegsKept w s s := ⟨fun _ _ => rfl, .refl _ _, fun _ => rfl⟩

section
variable {w : Extent} {s u : State} (h : RegsKept w s u)
include h

theorem RegsKept.setReg {r : Reg} (hr : r ∈ w.regs) (v : Byte) : RegsKept w s (u.setReg r v) where
  regs q hq := by
    have hne : q ≠ r := fun e => hq (e ▸ hr)
    rw [State.getReg_setReg, if_neg hne]
    exact h.regs q hq
  flags := (u.setReg_f r v).symm ▸ h.flags
  sp hsp := (u.setReg_sp r v).trans (h.sp hsp)

theorem RegsKept.setHL (hh : .h ∈ w.regs) (hl : .l ∈ w.regs) (v : Addr) : RegsKept w s (u.setHL v) :=
  (h.setReg hh (hi v)).setReg hl (lo v)

theorem RegsKept.setDE (hd : .d ∈ w.regs) (he : .e ∈ w.regs) (v : Addr) : RegsKept w s (u.setDE v) :=
  (h.setReg hd (hi v)).setReg he (lo v)

theorem RegsKept.setBC (hb : .b ∈ w.regs) (hc : .c ∈ w.regs) (v : Addr) : RegsKept w s (u.setBC v) :=
  (h.setReg hb (hi v)).setReg hc (lo v)

/-- Other fields are not of the registers. -/
theorem RegsKept.rest {t : State} {pc : Addr} {ie stop : Bool} {m : MemSys} {ports : List PortEvent} {n : Nat}
    (e : t = { u with pc := pc, ie := ie, stop := stop, mem := m, ports := ports, inDraws := n }) : RegsKept w s t := by
  subst e
  exact ⟨fun r hr => (by cases r <;> rfl : State.getReg _ r = u.getReg r).trans (h.regs r hr), h.flags, h.sp⟩

theorem RegsKept.withSp (hw : w.sp = true) (v : Addr) : RegsKept w s { u with sp := v } :=
  ⟨fun r hr => (by cases r <;> rfl : State.getReg _ r = u.getReg r).trans (h.regs r hr), h.flags,
    fun hsp => nomatch hw.symm.trans hsp⟩

theorem RegsKept.withFlags {f : Byte} (hf : FlagsKept w.flags u.f f) : RegsKept w s { u with f := f } :=
  ⟨fun r hr => (by cases r <;> rfl : State.getReg _ r = u.getReg r).trans (h.regs r hr),
    fun k hk hout => (hf k hk hout).trans (h.flags k hk hout), h.sp⟩

/-- A result in A, with its flags. -/
theorem RegsKept.withA (ha : .a ∈ w.regs) (v : Byte) {f : Byte} (hf : FlagsKept w.flags u.f f) :
    RegsKept w s { u with a := v, f := f } :=
  (h.setReg ha v).withFlags (f := f) hf

end

/-- A write to a pair (R304). -/
theorem setPair_keepsRegs {w : Extent} (s : State) (p : Pair) (hregs : w.regs = (pairExtent p).regs)
    (hsp : w.sp = (pairExtent p).sp) (v : Addr) : RegsKept w s (s.setPair p v) := by
  have h := RegsKept.refl w s
  cases p with
  | bc => exact h.setBC (by simp [hregs, pairExtent]) (by simp [hregs, pairExtent]) v
  | de => exact h.setDE (by simp [hregs, pairExtent]) (by simp [hregs, pairExtent]) v
  | hl => exact h.setHL (by simp [hregs, pairExtent]) (by simp [hregs, pairExtent]) v
  | sp => exact h.withSp hsp v

/-- A pop writes its pair, and only POP PSW writes FLAGS (R304, R853). -/
theorem setStackPair_keepsRegs {s u : State} {p : StackPair} (h : RegsKept (s.extent (.pop p)) s u) (v : Addr) :
    RegsKept (s.extent (.pop p)) s (u.setStackPair p v) := by
  have hfirst {r q : Reg} : r ∈ [r, q] := List.mem_cons_self
  have hsecond {r q : Reg} : q ∈ [r, q] := List.mem_cons_of_mem r List.mem_cons_self
  cases p with
  | bc => exact h.setBC hfirst hsecond v
  | de => exact h.setDE hfirst hsecond v
  | hl => exact h.setHL hfirst hsecond v
  | psw => exact h.withA List.mem_cons_self (hi v) (flagsKept_all u.f (lo v))

/-! ## Operations and outcomes -/

/-- If the operation answers, the registers outside the extent are as in `s`. -/
def Res.KeepsRegs {α : Type} (x : Res α) (w : Extent) (s : State) : Prop := ∀ v t, x = .ok v t → RegsKept w s t

/-- If the step gives a next state, the registers outside the extent are as in `s`. -/
def NextKeepsRegs (w : Extent) (s : State) (o : Host.Outcome State Fault Refusal) : Prop :=
  ∀ t, o = .next t → RegsKept w s t

theorem RegsKept.next {w : Extent} {s t : State} (h : RegsKept w s t) : NextKeepsRegs w s (.next t) := by
  rintro _ ⟨⟩
  exact h

theorem Res.KeepsRegs.andThen {α β : Type} {x : Res α} {k : α → State → Res β} {w : Extent} {s : State}
    (h : x.KeepsRegs w s) (hk : ∀ v u, RegsKept w s u → (k v u).KeepsRegs w s) : (x.andThen k).KeepsRegs w s := by
  intro v t e
  obtain ⟨a, u, hx, hku⟩ := Res.andThen_eq_ok.1 e
  exact hk a u (h a u hx) v t hku

theorem Res.KeepsRegs.finish {α : Type} {x : Res α} {w w' : Extent} {s : State}
    {k : α → State → Host.Outcome State Fault Refusal} (h : x.KeepsRegs w s)
    (hk : ∀ v u, RegsKept w s u → NextKeepsRegs w s (k v u)) : NextKeepsRegs w s (x.finish w' k) := by
  intro t e
  obtain ⟨a, u, hx, hku⟩ := Res.finish_eq_next.1 e
  exact hk a u (h a u hx) t hku

theorem Res.KeepsRegs.outcome {x : Res Unit} {w w' : Extent} {s : State} (h : x.KeepsRegs w s) :
    NextKeepsRegs w s (x.outcome w') :=
  h.finish fun _ _ hu => hu.next

section
variable {w : Extent} {s u : State} (h : RegsKept w s u)
include h

theorem readByte_keepsRegs (a : Addr) : (u.readByte a).KeepsRegs w s := fun _ _ e => h.rest (readByte_rest e)

theorem writeByte_keepsRegs (a : Addr) (v : Byte) : (u.writeByte a v).KeepsRegs w s :=
  fun _ _ e => h.rest (writeByte_rest e)

theorem readWord_keepsRegs (a : Addr) : (u.readWord a).KeepsRegs w s := fun _ _ e => h.rest (readWord_rest e)

theorem writeWord_keepsRegs (a v : Addr) : (u.writeWord a v).KeepsRegs w s := fun _ _ e => h.rest (writeWord_rest e)

theorem fetch16_keepsRegs : u.fetch16.KeepsRegs w s := fun _ _ e => h.rest (fetch16_rest e)

theorem push16_keepsRegs (hw : w.sp = true) (v : Addr) : (u.push16 v).KeepsRegs w s :=
  fun _ _ e => (h.withSp hw (u.sp - 2)).rest (push16_rest e)

theorem pop16_keepsRegs (hw : w.sp = true) : u.pop16.KeepsRegs w s :=
  fun _ _ e => (h.withSp hw (u.sp + 2)).rest (pop16_rest e)

theorem readOperand_keepsRegs (o : Operand) : (u.readOperand o).KeepsRegs w s :=
  fun _ _ e => h.rest (readOperand_rest e)

theorem writeOperand_keepsRegs (o : Operand) (hregs : w.regs = (s.operandExtent o).regs) (v : Byte) :
    (u.writeOperand o v).KeepsRegs w s := by
  cases o with
  | reg r =>
    rintro _ _ ⟨⟩
    exact h.setReg (hregs ▸ List.mem_cons_self) v
  | m => exact writeByte_keepsRegs h u.hl v

theorem jump_keepsRegs (a : Addr) : NextKeepsRegs w s (u.jump a) := (h.rest rfl).next

theorem callTo_keepsRegs (hw : w.sp = true) (a : Addr) : NextKeepsRegs w s (u.callTo a) :=
  (push16_keepsRegs h hw u.pc).finish fun _ _ hv => jump_keepsRegs hv a

theorem ret_keepsRegs (hw : w.sp = true) : NextKeepsRegs w s u.ret :=
  (pop16_keepsRegs h hw).finish fun v _ hv => jump_keepsRegs hv v

theorem jumpIf_keepsRegs (k : Cond) (a : Addr) : NextKeepsRegs w s (u.jumpIf k a) := by
  unfold State.jumpIf
  split
  · exact jump_keepsRegs h a
  · exact h.next

end

section
variable {w : Extent} {s : State}

theorem callIf_keepsRegs {k : Cond} (hw : k.holds s.f = true → w.sp = true) (a : Addr) :
    NextKeepsRegs w s (s.callIf k a) := by
  cases hk : k.holds s.f
  · rw [callIf_not_taken hk]; exact (RegsKept.refl w s).next
  · rw [callIf_taken hk]; exact callTo_keepsRegs (.refl w s) (hw hk) a

theorem retIf_keepsRegs {k : Cond} (hw : k.holds s.f = true → w.sp = true) : NextKeepsRegs w s (s.retIf k) := by
  cases hk : k.holds s.f
  · rw [retIf_not_taken hk]; exact (RegsKept.refl w s).next
  · rw [retIf_taken hk]; exact ret_keepsRegs (.refl w s) (hw hk)

end

theorem execUndoc_keepsRegs (s : State) (op : Byte) : NextKeepsRegs (s.undocExtent op) s (execUndoc op s) := by
  have hs := RegsKept.refl (s.undocExtent op) s
  unfold execUndoc
  cases hp : s.cfg.undocPolicy with
  | fault => rintro _ ⟨⟩
  | nop => exact hs.next
  | siliconAlias =>
    simp only [State.undocAsAliased]
    split
    · exact (fetch16_keepsRegs hs).finish fun a _ hu => jump_keepsRegs hu a
    next hcb =>
    split
    · next hd9 =>
      have hsp : (s.undocExtent op).sp = true := by simp only [State.undocExtent, hp, if_neg hcb, if_pos hd9]; rfl
      exact ret_keepsRegs hs hsp
    next hd9 =>
    split
    · next hcall =>
      have hsp : (s.undocExtent op).sp = true := by
        simp only [State.undocExtent, hp, if_neg hcb, if_neg hd9, if_pos hcall]
        rfl
      exact (fetch16_keepsRegs hs).finish fun a _ hu => callTo_keepsRegs hu hsp a
    · exact hs.next

/-! ## Every instruction -/

/-- An instruction that completes has written no register, FLAGS bit or `sp` outside its extent (R112, R409). -/
theorem exec_keepsRegs (i : Instr) (s : State) : NextKeepsRegs (s.extent i) s (exec i s) := by
  have hs := RegsKept.refl (s.extent i) s
  have hsp {k : Cond} {w : Extent} {m : Byte} (hw : w.sp = true) (hk : k.holds s.f = true) :
      ({ s.onlyIf k w with flags := m } : Extent).sp = true := by
    rw [State.onlyIf, if_pos hk, hw]
  cases i with
  | mov dst src =>
    exact ((readOperand_keepsRegs hs src).andThen fun v _ hu => writeOperand_keepsRegs hu dst rfl v).outcome
  | mvi dst d8 => exact (writeOperand_keepsRegs hs dst rfl d8).outcome
  | add src | adc src | sub src | sbb src =>
    exact (readOperand_keepsRegs hs src).finish fun _ u hu =>
      (hu.withA List.mem_cons_self _ (sumFlags_kept _ u.f)).next
  | ana src | xra src | ora src =>
    exact (readOperand_keepsRegs hs src).finish fun _ u hu =>
      (hu.withA List.mem_cons_self _ (logicFlags_kept _ _ u.f)).next
  | cmp src => exact (readOperand_keepsRegs hs src).finish fun _ u hu => (hu.withFlags (sumFlags_kept _ u.f)).next
  | inr o | dcr o =>
    exact (readOperand_keepsRegs hs o).finish fun _ _ hu =>
      (writeOperand_keepsRegs hu o rfl _).finish fun _ v hv => (hv.withFlags (stepFlags_kept _ _ v.f)).next
  | adi _ | aci _ | sui _ | sbi _ => exact (hs.withA List.mem_cons_self _ (sumFlags_kept _ s.f)).next
  | ani _ | xri _ | ori _ => exact (hs.withA List.mem_cons_self _ (logicFlags_kept _ _ s.f)).next
  | cpi _ => exact (hs.withFlags (sumFlags_kept _ s.f)).next
  | daa => exact (hs.withA List.mem_cons_self _ (daaFlags_kept _ s.a s.f)).next
  | rlc | rrc | ral | rar => exact (hs.withA List.mem_cons_self _ (setCY_kept _ s.f)).next
  | cmc | stc => exact (hs.withFlags (setCY_kept _ s.f)).next
  | dad rp =>
    have hhl := hs.setHL List.mem_cons_self (List.mem_cons_of_mem _ List.mem_cons_self) (s.hl + s.getPair rp)
    exact (hhl.withFlags (setCY_kept _ s.f)).next
  | lxi rp _ | inx rp | dcx rp => exact (setPair_keepsRegs s rp (by rfl) (by rfl) _).next
  | lda _ | ldax _ => exact (readByte_keepsRegs hs _).finish fun v _ hu => (hu.setReg List.mem_cons_self v).next
  | sta _ | stax _ => exact (writeByte_keepsRegs hs _ s.a).outcome
  | lhld a16 =>
    exact (readWord_keepsRegs hs a16).finish fun v _ hu =>
      (hu.setHL List.mem_cons_self (List.mem_cons_of_mem _ List.mem_cons_self) v).next
  | shld a16 => exact (writeWord_keepsRegs hs a16 s.hl).outcome
  | xchg =>
    have hmem {r : Reg} (hr : r ∈ [Reg.d, .e, .h, .l]) : r ∈ (s.extent .xchg).regs := hr
    exact ((hs.setHL (hmem (by decide)) (hmem (by decide)) s.de).setDE (hmem (by decide)) (hmem (by decide)) s.hl).next
  | push rp => exact (push16_keepsRegs hs rfl (s.getStackPair rp)).outcome
  | pop rp =>
    exact (pop16_keepsRegs hs (by cases rp <;> rfl)).finish fun v _ hu => (setStackPair_keepsRegs hu v).next
  | xthl =>
    exact (readWord_keepsRegs hs s.sp).finish fun v t ht =>
      (writeWord_keepsRegs ht t.sp t.hl).finish fun _ _ hu =>
        (hu.setHL List.mem_cons_self (List.mem_cons_of_mem _ List.mem_cons_self) v).next
  | sphl => exact (hs.withSp rfl s.hl).next
  | jnz _ | jz _ | jnc _ | jc _ | jpo _ | jpe _ | jp _ | jm _ => exact jumpIf_keepsRegs hs _ _
  | cnz _ | cz _ | cnc _ | cc _ | cpo _ | cpe _ | cp _ | cm _ => exact callIf_keepsRegs (hsp rfl) _
  | rnz | rz | rnc | rc | rpo | rpe | rp | rm => exact retIf_keepsRegs (hsp rfl)
  | call _ | rst _ => exact callTo_keepsRegs hs rfl _
  | ret => exact ret_keepsRegs hs rfl
  | undoc op => exact extent_undoc s op ▸ execUndoc_keepsRegs s op
  | cma => exact (hs.setReg List.mem_cons_self _).next
  | inp p => exact ((hs.setReg List.mem_cons_self (Config.hostIn s.inDraws p)).rest rfl).next
  | outp p =>
    refine RegsKept.next (t := { s.bankSelect p s.a with ports := s.ports ++ [.sent p s.a] }) ⟨fun r _ => ?_, ?_, ?_⟩
    · cases r <;> simp [State.getReg]
    · simpa using hs.flags
    · simp
  | jmp _ | pchl | ei | di | hlt | nop => exact (hs.rest rfl).next

/-- Settles O27: the mask of R112 is the extent's. -/
theorem flagsWrittenAsIndexed : Obligations.FlagsWrittenAsIndexed := by
  unfold Obligations.FlagsWrittenAsIndexed
  exact fun i s t h => (exec_keepsRegs i s t h).flags

end Sys2Proof.Machine

/-!
The places of an extent are those of the instruction's accesses (R205), so an instruction that completes has written
nothing outside its extent (R411).
-/
namespace Sys2Proof.Machine

/-! ## Accesses inside an extent -/

/-- The extent names the address of each of these accesses. -/
def Extent.Covers (w : Extent) (xs : List Access) : Prop :=
  (∀ a, .read a ∈ xs → a ∈ w.reads) ∧ ∀ a v, .write a v ∈ xs → a ∈ w.stores

theorem covers_nil (w : Extent) : w.Covers [] := ⟨nofun, nofun⟩

theorem Extent.Covers.append {w : Extent} {xs ys : List Access} (h : w.Covers xs) (k : w.Covers ys) :
    w.Covers (xs ++ ys) :=
  ⟨fun a ha => (List.mem_append.1 ha).elim (h.1 a) (k.1 a),
    fun a v ha => (List.mem_append.1 ha).elim (h.2 a v) (k.2 a v)⟩

theorem covers_read {w : Extent} {a : Addr} (h : a ∈ w.reads) : w.Covers [.read a] := by
  simpa [Extent.Covers] using h

theorem covers_write {w : Extent} {a : Addr} (h : a ∈ w.stores) (v : Byte) : w.Covers [.write a v] := by
  simpa [Extent.Covers] using h

theorem covers_readsWord {w : Extent} {a : Addr} (h : w.reads = [a, a + 1]) : w.Covers (readsWord a) :=
  (covers_read (h ▸ List.mem_cons_self)).append
    (covers_read (h ▸ List.mem_cons_of_mem a List.mem_cons_self))

theorem covers_writesWord {w : Extent} {a : Addr} (h : w.stores = [a, a + 1]) (v : Addr) :
    w.Covers (writesWord a v) :=
  (covers_write (h ▸ List.mem_cons_self) (lo v)).append
    (covers_write (h ▸ List.mem_cons_of_mem a List.mem_cons_self) (hi v))

/-- The two bytes of a push (R420). -/
theorem covers_push {w : Extent} {s : State} (h : w.stores = s.pushExtent.stores) (v : Addr) :
    w.Covers (writesWord (s.sp - 2) v) := by
  have hnext : s.sp - 1 = s.sp - 2 + 1 := by bv_omega
  refine covers_writesWord ?_ v
  rw [h, ← hnext]
  rfl

theorem covers_readsOperand {w : Extent} {s : State} {o : Operand} (h : w.reads = s.operandReads o) :
    w.Covers (readsOperand s o) := by
  cases o with
  | reg r => exact covers_nil w
  | m => exact covers_read (h ▸ List.mem_cons_self)

theorem covers_writesOperand {w : Extent} {s : State} {o : Operand} (h : w.stores = (s.operandExtent o).stores)
    (v : Byte) : w.Covers (writesOperand s o v) := by
  cases o with
  | reg r => exact covers_nil w
  | m => exact covers_write (h ▸ List.mem_cons_self) v

/-- Accesses that are made where a condition holds, and the extent of what it then does (R911, R921). -/
theorem covers_onlyIf {s : State} {k : Cond} {w : Extent} {taken : Bool} {xs : List Access}
    (htaken : taken = k.holds s.f) (hflags : w.flags = 0x00) (h : w.Covers xs) :
    ({ s.onlyIf k w with flags := 0x00 } : Extent).Covers (if taken then xs else []) := by
  cases hk : k.holds s.f with
  | false =>
    rw [htaken, hk]
    exact covers_nil _
  | true =>
    rw [htaken, hk, extent_onlyIf hk hflags]
    exact h

theorem covers_undocAccesses (s : State) (op : Byte) : (s.undocExtent op).Covers (undocAccesses s op) := by
  unfold State.undocExtent undocAccesses
  cases s.cfg.undocPolicy with
  | fault => exact covers_nil _
  | nop => exact covers_nil _
  | siliconAlias =>
    dsimp only
    split_ifs
    · exact covers_readsWord rfl
    · exact covers_readsWord rfl
    · exact (covers_readsWord rfl).append (covers_push (by rfl) (s.pc + 2))
    · exact covers_nil _

/-- The extent of an instruction names the address of each of its accesses (R205). -/
theorem extent_covers (s : State) (i : Instr) : (s.extent i).Covers (accessesOf s i) := by
  cases i with
  | mov _ _ | inr _ | dcr _ => exact (covers_readsOperand (by rfl)).append (covers_writesOperand (by rfl) _)
  | mvi dst d8 => exact covers_writesOperand rfl d8
  | add o | adc o | sub o | sbb o | ana o | xra o | ora o | cmp o => exact covers_readsOperand rfl
  | lda _ | ldax _ => exact covers_read List.mem_cons_self
  | sta _ | stax _ => exact covers_write List.mem_cons_self s.a
  | lhld a => exact covers_readsWord rfl
  | shld a => exact covers_writesWord rfl s.hl
  | pop p => exact covers_readsWord (by cases p <;> rfl)
  | push p => exact covers_push rfl (s.getStackPair p)
  | xthl => exact (covers_readsWord rfl).append (covers_writesWord rfl s.hl)
  | ret => exact covers_readsWord rfl
  | call _ | rst _ => exact covers_push rfl s.pc
  | rnz | rz | rnc | rc | rpo | rpe | rp | rm =>
    exact covers_onlyIf (by simp [State.takes, condition, Cond.holds, flagZ, flagCY, flagP, flagS]) rfl
      (covers_readsWord rfl)
  | cnz _ | cz _ | cnc _ | cc _ | cpo _ | cpe _ | cp _ | cm _ =>
    exact covers_onlyIf (by simp [State.takes, condition, Cond.holds, flagZ, flagCY, flagP, flagS]) rfl
      (covers_push rfl s.pc)
  | undoc op => exact extent_undoc s op ▸ covers_undocAccesses s op
  | lxi _ _ | xchg | adi _ | aci _ | sui _ | sbi _ | inx _ | dcx _ | dad _ | daa | ani _ | xri _ | ori _ | cpi _ | cma
  | cmc | stc | rlc | rrc | ral | rar | sphl | jmp _ | jnz _ | jz _ | jnc _ | jc _ | jpo _ | jpe _ | jp _ | jm _ | pchl
  | inp _ | outp _ | ei | di | hlt | nop => exact covers_nil _

/-! ## What an instruction that completes keeps -/

theorem mem_storeOf {s : State} {i : Instr} {w : Addr × Byte} :
    w ∈ storeOf s i ↔ .write w.1 w.2 ∈ accessesOf s i := by
  rw [storeOf, List.mem_filterMap]
  constructor
  · rintro ⟨x, hx, hstore⟩
    cases x with
    | write a v => cases hstore; exact hx
    | read a => cases hstore
    | select p v => cases hstore
  · exact fun h => ⟨_, h, rfl⟩

/-- Stores leave the bytes whose place none of them names. -/
theorem storedAll_of_loc_ne {s : State} {n : Nat} {j : Fin lineSize} {ws : List (Addr × Byte)}
    (h : ∀ w ∈ ws, s.loc w.1 ≠ (n, j)) (L : Nat → Fin lineSize → Byte) : s.storedAll ws L n j = L n j := by
  induction ws generalizing L with
  | nil => rfl
  | cons w ws ih =>
    have hrest := ih (fun v hv => h v (List.mem_cons_of_mem _ hv)) (s.stored w.1 w.2 L)
    exact hrest.trans (if_neg fun e => h w List.mem_cons_self e.2.symm)

/-- An instruction that completes has written nothing outside its extent (R112, R205). -/
theorem exec_kept {i : Instr} {s t : State} (hs : s.Inv) (h : exec i s = .next t) : Kept (s.extent i) s t := by
  obtain ⟨hregs, hflags, hsp⟩ := exec_keepsRegs i s t h
  obtain ⟨-, -, hie, -⟩ := controlStateWriters i s t h
  obtain ⟨u, hu, hm⟩ := (exec_ends .refl i).next t h
  obtain ⟨-, hstores⟩ := extent_covers s i
  refine ⟨hregs, hflags, hsp, fun hout => hie ?_ ?_, fun n j hn => ?_, hm ▸ hu.written hs⟩
  · rintro rfl
    cases hout
  · rintro rfl
    cases hout
  · rw [exec_logical hs h]
    exact storedAll_of_loc_ne (fun w hw => hn w.1 (hstores w.1 w.2 (mem_storeOf.1 hw))) _

/-- Settles O35: what it keeps, and the places it covers. -/
theorem extentCoversWrites : Obligations.ExtentCoversWrites := by
  unfold Obligations.ExtentCoversWrites
  intro i s
  obtain ⟨hreads, hstores⟩ := extent_covers s i
  exact ⟨fun t hs h => exec_kept hs h, hreads, hstores⟩

end Sys2Proof.Machine

/-!
The data moves (R500 to R512, R855, R931): on sound storage the access of a move completes, the state it leaves differs
in the memory system only, and the move puts the value read into its destination.
-/
namespace Sys2Proof.Machine

/-! ## An access as a part of a step -/

/-- The step goes on from an access that answers `v`: only the memory system has moved, and its logical content is `L`. -/
theorem Touched.finish {α : Type} {x : Res α} {v : α} {s : State} {L : Nat → Fin lineSize → Byte}
    (h : ∃ t, x = .ok v t ∧ Touched s t L) (w : Extent) (k : α → State → Host.Outcome State Fault Refusal) :
    ∃ m : MemSys, (∀ n j, m.logical n j = L n j) ∧ x.finish w k = k v { s with mem := m } := by
  obtain ⟨t, rfl, ht⟩ := h
  exact ⟨t.mem, ht.logical, by rw [Res.finish_ok, ← ht.rest]⟩

/-- The step ends with an access: the next state differs in the memory system only. -/
theorem Touched.outcome {x : Res Unit} {s : State} {L : Nat → Fin lineSize → Byte}
    (h : ∃ t, x = .ok () t ∧ Touched s t L) (w : Extent) :
    ∃ m : MemSys, (∀ n j, m.logical n j = L n j) ∧ x.outcome w = .next { s with mem := m } :=
  Touched.finish h w fun _ u => .next u

/-! ## The statements -/

/-- Settles O37: a register is moved with no access, and M is one byte read or one byte stored. -/
theorem moveByte : Obligations.MoveByte := by
  unfold Obligations.MoveByte
  intro s
  refine ⟨fun _ _ => rfl, fun _ _ => rfl, fun hs hw => ⟨fun r => ?fromM, fun r => ?toM, fun d8 => ?immediate⟩⟩
  case fromM =>
    have hexec : exec (.mov (.reg r) .m) s =
        (s.readByte s.hl).finish (s.extent (.mov (.reg r) .m)) fun v u => .next (u.setReg r v) :=
      Res.outcome_andThen _ _ _
    rw [hexec]
    exact Touched.finish (readByte_total hs hw s.hl) _ _
  case toM => exact Touched.outcome (writeByte_total hs hw s.hl (s.getReg r)) _
  case immediate => exact Touched.outcome (writeByte_total hs hw s.hl d8) _

/-- Settles O39: each form is one access, at the address given or in the pair. -/
theorem accumulatorLoadsAndStores : Obligations.AccumulatorLoadsAndStores := by
  unfold Obligations.AccumulatorLoadsAndStores
  intro s hs hw
  refine ⟨fun a => ?lda, ?ldaxBC, ?ldaxDE, fun a => ?sta, ?staxBC, ?staxDE⟩
  case lda => exact Touched.finish (readByte_total hs hw a) _ _
  case ldaxBC => exact Touched.finish (readByte_total hs hw s.bc) _ _
  case ldaxDE => exact Touched.finish (readByte_total hs hw s.de) _ _
  case sta => exact Touched.outcome (writeByte_total hs hw a s.a) _
  case staxBC => exact Touched.outcome (writeByte_total hs hw s.bc s.a) _
  case staxDE => exact Touched.outcome (writeByte_total hs hw s.de s.a) _

/-- Settles O40: each form is one word access, and HL is the join of its registers. -/
theorem hlLoadsAndStores : Obligations.HlLoadsAndStores := by
  unfold Obligations.HlLoadsAndStores
  intro s a hs hw
  refine ⟨?lhld, ?shld⟩
  case lhld =>
    obtain ⟨m, hm, hexec⟩ := Touched.finish (readWord_total hs hw a) (s.extent (.lhld a)) fun v u => .next (u.setHL v)
    refine ⟨m, hm, hexec.trans ?_⟩
    rw [State.guestWord, State.setHL, hi_join, lo_join]
  case shld =>
    obtain ⟨m, hm, hexec⟩ := Touched.outcome (writeWord_total hs hw a s.hl) (s.extent (.shld a))
    refine ⟨m, fun n j => ?_, hexec⟩
    rw [hm, State.storedWord, State.hl, hi_join, lo_join]

/-- Settles O4: the decoder evaluated on each word. -/
theorem specWordsDecode : Obligations.SpecWordsDecode := by
  unfold Obligations.SpecWordsDecode
  exact ⟨rfl, rfl, rfl, rfl, rfl, rfl, rfl, rfl, rfl, rfl, rfl, rfl, rfl⟩

/-- Settles O38: the pair's registers are written with the halves of the value, and no access is made. -/
theorem moveWord : Obligations.MoveWord := by
  unfold Obligations.MoveWord
  intro s
  refine ⟨fun _ => rfl, fun _ => rfl, fun _ => rfl, fun _ => rfl, ?xchg, rfl, rfl⟩
  show Host.Outcome.next ((s.setHL s.de).setDE s.hl) = _
  rw [State.setHL, State.setDE, State.hl, State.de, hi_join, hi_join, lo_join, lo_join]

end Sys2Proof.Machine

/-!
Arithmetic (R600 to R620): reading an operand as a part of a step, each model computation in exact arithmetic, and from
these the exact next state of every instruction.
-/
namespace Sys2Proof.Machine

/-! ## Operands as parts of a step -/

/-- The step goes on from an operand that is ready: only the memory system can have moved (R403). -/
theorem readOperand_finish {s : State} {o : Operand} (h : s.ReadyFor o) (w : Extent)
    (k : Byte → State → Host.Outcome State Fault Refusal) :
    ∃ m : MemSys, OperandRead s o m ∧ (s.readOperand o).finish w k = k (s.operandByte o) { s with mem := m } := by
  obtain ⟨t, hread, hrest, hm⟩ := readOperand_ready h
  exact ⟨t.mem, hm, by rw [hread, Res.finish_ok, ← hrest]⟩

/-- M is read and a byte made from it is stored at the same address; the step goes on from there (R403). -/
theorem modifyM_finish {s : State} (hs : s.Inv) (hw : s.Sound) (g : Byte → Byte) (w : Extent)
    (k : Byte → Unit → State → Host.Outcome State Fault Refusal) :
    ∃ m : MemSys, StoredAt s s.hl (g (s.guestByte s.hl)) m ∧
      ((s.readOperand .m).finish w fun old t => (t.writeOperand .m (g old)).finish w (k old)) =
        k (s.guestByte s.hl) () { s with mem := m } := by
  obtain ⟨t, hread, ht⟩ := readByte_total hs hw s.hl
  obtain ⟨u, hwrite, hu⟩ := writeByte_total ht.inv (ht.sound hw) s.hl (g (s.guestByte s.hl))
  have hl : t.hl = s.hl := by rw [ht.rest]; rfl
  rw [stored_congr ht.bank ht.cfg, ht.logical_eq] at hu
  refine ⟨u.mem, hu.logical, ?_⟩
  have hrest : u = { s with mem := u.mem } := (ht.trans hu).rest
  rw [State.readOperand, hread, Res.finish_ok, writeOperand_m, hl, hwrite, Res.finish_ok, ← hrest]

/-- A register and FLAGS are written independently. -/
theorem State.setReg_withFlags (s : State) (r : Reg) (v f : Byte) :
    { s.setReg r v with f := f } = { s with f := f }.setReg r v := by
  cases r <;> rfl

/-! ## The add family (R600 to R605) -/

/-- The add family's next state in exact arithmetic. -/
theorem State.addToA_eq (s : State) (v : Byte) (cin : Bool) : s.addToA v cin =
    { s with a := BitVec.ofNat 8 (s.a.toNat + v.toNat + cin.toNat), f := sumFlags (add8 s.a v cin) s.f } := rfl

/-- Settles O41: each form is `addToA` on its operand, with no carry in or with the incoming Carry. -/
theorem addFamily : Obligations.AddFamily := by
  unfold Obligations.AddFamily
  intro s
  refine ⟨fun d8 => ?adi, fun d8 => ?aci, fun src h => ?add, fun src h => ?adc⟩
  case adi => exact ⟨_, congrArg Host.Outcome.next (s.addToA_eq d8 false), addFlags_gives s.a d8 false s.f⟩
  case aci => exact ⟨_, congrArg Host.Outcome.next (s.addToA_eq d8 (flagCY s.f)),
    addFlags_gives s.a d8 (flagCY s.f) s.f⟩
  case add =>
    obtain ⟨m, hm, hexec⟩ := readOperand_finish h (s.extent (.add src)) fun v u => .next (u.addToA v false)
    rw [State.addToA_eq] at hexec
    exact ⟨m, _, hm, hexec, addFlags_gives s.a (s.operandByte src) false s.f⟩
  case adc =>
    obtain ⟨m, hm, hexec⟩ := readOperand_finish h (s.extent (.adc src)) fun v u => .next (u.addToA v (flagCY u.f))
    rw [State.addToA_eq] at hexec
    exact ⟨m, _, hm, hexec, addFlags_gives s.a (s.operandByte src) (flagCY s.f) s.f⟩

/-! ## The subtract family (R606 to R611) -/

/-- The subtract family's next state in exact arithmetic: a carry-in of 0 is a borrow. -/
theorem State.subFromA_eq (s : State) (v : Byte) (cin : Bool) : s.subFromA v cin =
    { s with a := subByte s.a v (!cin).toNat, f := sumFlags (sub8 s.cfg.subCarry s.a v cin) s.f } := by
  have hr : (sub8 s.cfg.subCarry s.a v cin).r = subByte s.a v (!cin).toNat := by
    have h := sub8_eq s.cfg.subCarry s.a v (!cin)
    rw [Bool.not_not] at h
    rw [h]
  rw [State.subFromA, State.putSum, hr]

/-- The flags of a subtraction, by its carry-in. -/
theorem subFlags_gives_of_carryIn (k : SubCarry) (a v : Byte) (cin : Bool) (f : Byte) :
    (subFlags k a v (!cin).toNat).gives f (sumFlags (sub8 k a v cin) f) := by
  have h := subFlags_gives k a v (!cin) f
  rwa [Bool.not_not] at h

/-- The borrow of SBB and SBI is the complement of the adder's carry-in (R410). -/
theorem State.borrow_eq (s : State) : s.borrow = (!s.borrowIn).toNat := by
  rw [State.borrow, State.borrowIn, flagCY]
  cases s.cfg.sbbBorrowIn <;> cases s.f.getLsbD 0 <;> rfl

/-- Settles O42: each form is `subFromA` on its operand, with no borrow or with the incoming one. -/
theorem subtractFamily : Obligations.SubtractFamily := by
  unfold Obligations.SubtractFamily
  intro s
  rw [s.borrow_eq]
  refine ⟨fun d8 => ?sui, fun d8 => ?sbi, fun src h => ?sub, fun src h => ?sbb⟩
  case sui => exact ⟨_, congrArg Host.Outcome.next (s.subFromA_eq d8 true),
    subFlags_gives_of_carryIn _ s.a d8 true s.f⟩
  case sbi => exact ⟨_, congrArg Host.Outcome.next (s.subFromA_eq d8 s.borrowIn),
    subFlags_gives_of_carryIn _ s.a d8 s.borrowIn s.f⟩
  case sub =>
    obtain ⟨m, hm, hexec⟩ := readOperand_finish h (s.extent (.sub src)) fun v u => .next (u.subFromA v true)
    rw [State.subFromA_eq] at hexec
    exact ⟨m, _, hm, hexec, subFlags_gives_of_carryIn _ s.a (s.operandByte src) true s.f⟩
  case sbb =>
    obtain ⟨m, hm, hexec⟩ := readOperand_finish h (s.extent (.sbb src)) fun v u => .next (u.subFromA v u.borrowIn)
    rw [State.subFromA_eq] at hexec
    exact ⟨m, _, hm, hexec, subFlags_gives_of_carryIn _ s.a (s.operandByte src) s.borrowIn s.f⟩

/-! ## INR and DCR (R612 to R615, R620) -/

/-- DCR's byte wraps as an addition of 255 does. -/
theorem byte_sub_one (v : Byte) : v - 1 = BitVec.ofNat 8 (v.toNat + 255) := by
  bv_omega

/-- The policy's test on the byte INR gives is a test on the byte it found. -/
theorem incAC_succ (k : IncDecAc) (old : Byte) : incAC k old (old + 1) = inrAc k old := by
  revert old
  cases k <;> decide

/-- The policy's test on the byte DCR gives is a test on the byte it found. -/
theorem decAC_pred (k : IncDecAc) (old : Byte) : decAC k (old - 1) = dcrAc k old := by
  revert old
  cases k <;> decide

/-- The flags of INR (R612, R620). -/
theorem inrFlags_gives (k : IncDecAc) (old f : Byte) :
    (resultFlags (BitVec.ofNat 8 (old.toNat + 1)) (some (inrAc k old)) none).gives f
      (stepFlags (old + 1) (incAC k old (old + 1)) f) :=
  incAC_succ k old ▸ stepFlags_gives (old + 1) (incAC k old (old + 1)) f

/-- The flags of DCR (R614, R620). -/
theorem dcrFlags_gives (k : IncDecAc) (old f : Byte) :
    (resultFlags (BitVec.ofNat 8 (old.toNat + 255)) (some (dcrAc k old)) none).gives f
      (stepFlags (old - 1) (decAC k (old - 1)) f) :=
  byte_sub_one old ▸ decAC_pred k old ▸ stepFlags_gives (old - 1) (decAC k (old - 1)) f

/-- INR and DCR of a register, once for the new byte `v` and the policy's rule `ac`. -/
theorem stepReg_next (s : State) (r : Reg) (v : Byte) (ac : IncDecAc → Bool) :
    { s.setReg r v with f := stepFlags v (ac (s.setReg r v).cfg.incDecAc) (s.setReg r v).f } =
      { s with f := stepFlags v (ac s.cfg.incDecAc) s.f }.setReg r v := by
  rw [State.setReg_cfg, State.setReg_f, State.setReg_withFlags]

/-- Settles O43: a register is written in place, and M is one byte read, then one stored at the same address. -/
theorem incrementDecrement : Obligations.IncrementDecrement := by
  unfold Obligations.IncrementDecrement
  intro s
  refine ⟨fun r => ?inrReg, fun r => ?dcrReg, fun hs hw => ⟨?inrM, ?dcrM⟩⟩
  case inrReg =>
    exact ⟨_, congrArg Host.Outcome.next
        (stepReg_next s r (s.getReg r + 1) fun k => incAC k (s.getReg r) (s.getReg r + 1)),
      inrFlags_gives s.cfg.incDecAc (s.getReg r) s.f⟩
  case dcrReg =>
    rw [← byte_sub_one]
    exact ⟨_, congrArg Host.Outcome.next (stepReg_next s r (s.getReg r - 1) fun k => decAC k (s.getReg r - 1)),
      byte_sub_one (s.getReg r) ▸ dcrFlags_gives s.cfg.incDecAc (s.getReg r) s.f⟩
  case inrM =>
    obtain ⟨m, hm, hexec⟩ := modifyM_finish hs hw (· + 1) (s.extent (.inr .m)) fun old _ u =>
      .next { u with f := stepFlags (old + 1) (incAC u.cfg.incDecAc old (old + 1)) u.f }
    exact ⟨m, _, hm, hexec, inrFlags_gives s.cfg.incDecAc (s.guestByte s.hl) s.f⟩
  case dcrM =>
    obtain ⟨m, hm, hexec⟩ := modifyM_finish hs hw (· - 1) (s.extent (.dcr .m)) fun old _ u =>
      .next { u with f := stepFlags (old - 1) (decAC u.cfg.incDecAc (old - 1)) u.f }
    exact ⟨m, _, byte_sub_one (s.guestByte s.hl) ▸ hm, hexec,
      dcrFlags_gives s.cfg.incDecAc (s.guestByte s.hl) s.f⟩

/-! ## Pairs (R616 to R618) -/

/-- A sum modulo 65536 is smaller than an operand exactly where the exact sum exceeds 16 bits. -/
theorem addr_add_lt_iff (x v : Addr) : (x + v < x ∨ x + v < v) ↔ 65535 < x.toNat + v.toNat := by
  have hx := x.isLt
  have hv := v.isLt
  simp only [BitVec.lt_def, BitVec.toNat_add]
  omega

/-- DAD's Carry in exact arithmetic (R618). -/
theorem dadCY_eq (k : DadCarry) (x v : Addr) : dadCY k x v = dadCarries k x v := by
  have hovf : (decide (x + v < x) || decide (x + v < v)) = decide (65535 < x.toNat + v.toNat) := by
    rw [← Bool.decide_or]
    exact decide_eq_decide.2 (addr_add_lt_iff x v)
  cases k with
  | overflow => exact hovf
  | inverted =>
    show (!(decide (x + v < x) || decide (x + v < v))) = _
    rw [hovf, ← decide_not]
    exact decide_eq_decide.2 Nat.not_lt

/-- Settles O44: a pair's value wraps modulo 65536, and DAD's Carry is that of the exact sum. -/
theorem pairArithmetic : Obligations.PairArithmetic := by
  unfold Obligations.PairArithmetic
  intro s p
  refine ⟨rfl, ?dcx, setCY (dadCarries s.cfg.dadCarry s.hl (s.getPair p)) s.f, ?dad, setCY_gives _ _⟩
  case dcx =>
    have hpred : s.getPair p - 1 = BitVec.ofNat 16 ((s.getPair p).toNat + 65535) := by bv_omega
    rw [← hpred]
    rfl
  case dad =>
    rw [← dadCY_eq]
    rfl

/-! ## DAA (R619) -/

theorem daaLow_eq (a f : Byte) : daaLow a f = daaFixLow a f := by
  rw [daaLow, and_0x0F_toNat]
  rfl

theorem daaHigh_eq (a f : Byte) : daaHigh a f = daaFixHigh a f := by
  rw [daaHigh, and_0x0F_toNat, shiftRight_4_toNat]
  rfl

/-- The high correction already takes an incoming Carry in. -/
theorem daaHigh_or_flagCY (a f : Byte) : (daaHigh a f || flagCY f) = daaFixHigh a f := by
  rw [daaHigh_eq, daaFixHigh, flagCY]
  cases f.getLsbD 0 <;> simp

/-- The two corrections fill different bits, so their OR is their sum. -/
theorem daaCorr_toNat (a f : Byte) :
    (daaCorr a f).toNat = (daaFixLow a f).toNat * 6 + (daaFixHigh a f).toNat * 96 := by
  rw [daaCorr, daaLow_eq, daaHigh_eq]
  cases daaFixLow a f <;> cases daaFixHigh a f <;> rfl

/-- DAA's result in exact arithmetic. -/
theorem add_daaCorr (a f : Byte) : a + daaCorr a f = daaByte a f := by
  rw [daaByte, Nat.add_assoc, ← daaCorr_toNat]
  rfl

/-- DAA's auxiliary carry in exact arithmetic: the high correction has no low nibble. -/
theorem daaAC_eq (a f : Byte) :
    decide ((a &&& 0x0F).toNat + (daaCorr a f &&& 0x0F).toNat > 0x0F) =
      decide (15 < a.toNat % 16 + (daaFixLow a f).toNat * 6) := by
  rw [and_0x0F_toNat, and_0x0F_toNat, daaCorr_toNat]
  have hlow : (daaFixLow a f).toNat ≤ 1 := Bool.toNat_le _
  exact decide_eq_decide.2 (by omega)

theorem setS_bit (v : Bool) (f : Byte) (i : Nat) (hi : i < 8) :
    (setS v f).getLsbD i = if 7 = i then v else f.getLsbD i := flagPut_bit f 7 v i (by decide) hi

theorem setZ_bit (v : Bool) (f : Byte) (i : Nat) (hi : i < 8) :
    (setZ v f).getLsbD i = if 6 = i then v else f.getLsbD i := flagPut_bit f 6 v i (by decide) hi

theorem setP_bit (v : Bool) (f : Byte) (i : Nat) (hi : i < 8) :
    (setP v f).getLsbD i = if 2 = i then v else f.getLsbD i := flagPut_bit f 2 v i (by decide) hi

/-- The flags of DAA (R619): Zero, Parity, AC and Carry, and Sign where the policy writes it. -/
theorem daaFlags_gives (k : DaaSign) (a f : Byte) : (daaWrites k a f).gives f (daaFlags k a f) := by
  refine gives_of_bits fun i hi => ?_
  simp only [daaFlags, add_daaCorr, daaAC_eq, daaHigh_or_flagCY, sign_eq, zero_eq, parity_eq]
  cases k with
  | unchanged =>
    rw [setCY_bit _ _ i hi, setAC_bit _ _ i hi, setP_bit _ _ i hi, setZ_bit _ _ i hi]
    interval_cases i <;> rfl
  | fromResult =>
    rw [setS_bit _ _ i hi, setCY_bit _ _ i hi, setAC_bit _ _ i hi, setP_bit _ _ i hi, setZ_bit _ _ i hi]
    interval_cases i <;> rfl

/-- DAA's next state in exact arithmetic. -/
theorem execDaa_eq (s : State) :
    execDaa s = .next { s with a := daaByte s.a s.f, f := daaFlags s.cfg.daaSign s.a s.f } := by
  rw [execDaa, add_daaCorr]

/-- A packed BCD byte with AC clear wants no low correction. -/
theorem daaFixLow_of_bcd {a f : Byte} (hlow : a.toNat % 16 ≤ 9) (hac : f.getLsbD 4 = false) :
    daaFixLow a f = false := by
  rw [daaFixLow, hac, Bool.or_false]
  exact decide_eq_false (Nat.not_lt.2 hlow)

/-- A packed BCD byte with Carry clear wants no high correction. -/
theorem daaFixHigh_of_bcd {a f : Byte} (hlow : a.toNat % 16 ≤ 9) (hhigh : a.toNat / 16 ≤ 9)
    (hcy : f.getLsbD 0 = false) : daaFixHigh a f = false := by
  rw [daaFixHigh, hcy, decide_eq_false (Nat.not_lt.2 hhigh), decide_eq_false (Nat.not_lt.2 hlow), Bool.and_false]
  rfl

/-- With no correction DAA leaves A as it is. -/
theorem daaByte_of_no_fix {a f : Byte} (hlow : daaFixLow a f = false) (hhigh : daaFixHigh a f = false) :
    daaByte a f = a := by
  rw [daaByte, hlow, hhigh]
  exact BitVec.eq_of_toNat_eq (Nat.mod_eq_of_lt a.isLt)

/-- Settles O45: the correction in exact arithmetic, which is 0 on a packed BCD byte with AC and Carry clear (W3). -/
theorem decimalAdjust : Obligations.DecimalAdjust := by
  unfold Obligations.DecimalAdjust
  intro s
  have hgives := daaFlags_gives s.cfg.daaSign s.a s.f
  refine ⟨⟨_, execDaa_eq s, hgives⟩, fun hlow hhigh hac hcy => ?packedBCD⟩
  have hfixLow := daaFixLow_of_bcd hlow hac
  have hfixHigh := daaFixHigh_of_bcd hlow hhigh hcy
  have hnext := execDaa_eq s
  rw [daaByte_of_no_fix hfixLow hfixHigh] at hnext
  obtain ⟨-, -, hac', -, hcy', -⟩ := hgives
  refine ⟨_, hnext, hcy'.trans hfixHigh, hac'.trans ?_⟩
  show decide (15 < s.a.toNat % 16 + (daaFixLow s.a s.f).toNat * 6) = false
  rw [hfixLow, Bool.toNat_false]
  exact decide_eq_false (by omega)

end Sys2Proof.Machine

/-!
Logic, compare and Carry (R700 to R716): the flags of AND in terms of the operands' bits, compare as the subtraction
that writes FLAGS alone, and what a step does at a one-byte instruction.
-/
namespace Sys2Proof.Machine

/-! ## The logical family (R700 to R705, R708 to R710) -/

/-- The flags of AND: bit 3 of `A | v` is set where either operand has it (R715). -/
theorem andFlags_gives (a v f : Byte) :
    (resultFlags (a &&& v) (some (a.getLsbD 3 || v.getLsbD 3)) (some false)).gives f
      (logicFlags (a &&& v) ((a ||| v).getLsbD 3) f) := by
  rw [← BitVec.getLsbD_or]
  exact logicFlags_gives _ _ f

/-- Settles O46: each form is its bitwise operation on its operand. -/
theorem logicFamily : Obligations.LogicFamily := by
  unfold Obligations.LogicFamily
  intro s
  refine ⟨fun d8 => ?ani, fun d8 => ?xri, fun d8 => ?ori, fun src h => ?ana, fun src h => ?xra, fun src h => ?ora⟩
  case ani => exact ⟨_, rfl, andFlags_gives s.a d8 s.f⟩
  case xri => exact ⟨_, rfl, logicFlags_gives (s.a ^^^ d8) false s.f⟩
  case ori => exact ⟨_, rfl, logicFlags_gives (s.a ||| d8) false s.f⟩
  case ana =>
    obtain ⟨m, hm, hexec⟩ := readOperand_finish h (s.extent (.ana src)) fun v u => .next (u.logicAnd v)
    exact ⟨m, _, hm, hexec, andFlags_gives s.a (s.operandByte src) s.f⟩
  case xra =>
    obtain ⟨m, hm, hexec⟩ := readOperand_finish h (s.extent (.xra src)) fun v u => .next (u.logicXor v)
    exact ⟨m, _, hm, hexec, logicFlags_gives (s.a ^^^ s.operandByte src) false s.f⟩
  case ora =>
    obtain ⟨m, hm, hexec⟩ := readOperand_finish h (s.extent (.ora src)) fun v u => .next (u.logicOr v)
    exact ⟨m, _, hm, hexec, logicFlags_gives (s.a ||| s.operandByte src) false s.f⟩

/-! ## Compare (R706, R707, R711, R716) -/

/-- CMP and SUB read the same operand: where both complete, they go on from the same byte and state. -/
theorem sub_cmp_next {s t u : State} {src : Operand} (hsub : exec (.sub src) s = .next t)
    (hcmp : exec (.cmp src) s = .next u) :
    ∃ v r, s.readOperand src = .ok v r ∧ t = r.subFromA v true ∧ u = r.compare v := by
  obtain ⟨v, r, hread, ht⟩ := Res.finish_eq_next.1 hsub
  obtain ⟨v', r', hread', hu⟩ := Res.finish_eq_next.1 hcmp
  cases hread.symm.trans hread'
  cases ht
  cases hu
  exact ⟨v, r, hread, rfl, rfl⟩

/-- Settles O47: compare is the subtraction with no borrow, of which it keeps FLAGS only. -/
theorem compareFamily : Obligations.CompareFamily := by
  unfold Obligations.CompareFamily
  intro s
  refine ⟨fun d8 => ?cpi, fun src h => ?cmp, fun src t u hsub hcmp => ?asSub, fun d8 t u hsui hcpi => ?asSui⟩
  case cpi => exact ⟨_, rfl, subFlags_gives_of_carryIn _ s.a d8 true s.f⟩
  case cmp =>
    obtain ⟨m, hm, hexec⟩ := readOperand_finish h (s.extent (.cmp src)) fun v u => .next (u.compare v)
    exact ⟨m, _, hm, hexec, subFlags_gives_of_carryIn _ s.a (s.operandByte src) true s.f⟩
  case asSub =>
    obtain ⟨v, r, hread, rfl, rfl⟩ := sub_cmp_next hsub hcmp
    have ha : r.a = s.a := by rw [readOperand_rest hread]
    exact ⟨rfl, ha⟩
  case asSui =>
    cases hsui
    cases hcpi
    exact ⟨rfl, rfl⟩

/-! ## CMA, CMC and STC (R712 to R714) -/

/-- An opcode whose row has no operand byte runs as one byte: the fetch reads it, moves `pc` past it, and changes
nothing else but the cache (R400 to R402). -/
theorem runsOneByte_of_bare {i : Instr} {op : Byte} (hrow : decodeOp op = .bare i) : RunsOneByte i op := by
  constructor
  · have hencode := (decodeOp_encodes op 0).2
    rwa [hrow] at hencode
  · intro s hs hw hstop hop
    obtain ⟨t, hfetch, ht⟩ := fetchInstr_at_pc hs hw
    have hlength : instrLength op = 1 := by rw [instrLength, hrow]; rfl
    have hrest := ht.rest
    rw [hop, hrow] at hfetch
    rw [hop, hlength] at hrest
    exact ⟨t.mem, ht.logical, (step_of_fetch hstop hfetch).trans (congrArg (exec i) hrest)⟩

/-- Settles O48: each byte's row has no operand, CMA writes A alone, and CMC and STC write bit 0 of FLAGS alone. -/
theorem accumulatorComplementAndCarry : Obligations.AccumulatorComplementAndCarry := by
  unfold Obligations.AccumulatorComplementAndCarry
  refine ⟨⟨runsOneByte_of_bare rfl, runsOneByte_of_bare rfl, runsOneByte_of_bare rfl⟩, fun s => ⟨?cma, ?cmc, ?stc⟩⟩
  case cma => rfl
  case cmc => exact ⟨_, rfl, setCY_gives (!flagCY s.f) s.f⟩
  case stc => exact ⟨_, rfl, setCY_gives true s.f⟩

end Sys2Proof.Machine

/-!
The accumulator rotates (R800 to R803): the two shifts of A and the bits they shift out, in exact arithmetic.
-/
namespace Sys2Proof.Machine

/-- A's low seven bits over an incoming bit are twice A, modulo 256, plus that bit (R800, R802). -/
theorem rotateIn0_eq (a : Byte) (c : Bool) : rotateIn0 a c = BitVec.ofNat 8 (a.toNat * 2 + c.toNat) := by
  apply BitVec.eq_of_toNat_eq
  have hc : c.toNat < 2 ^ 1 := Bool.toNat_lt c
  rw [rotateIn0, BitVec.toNat_append, BitVec.toNat_ofBool, ← Nat.shiftLeft_add_eq_or_of_lt hc, Nat.shiftLeft_eq,
    BitVec.extractLsb'_toNat, BitVec.toNat_ofNat, Nat.shiftRight_zero]
  omega

/-- An incoming bit over A's high seven bits is half of A plus 128 where that bit is set (R801, R803). -/
theorem rotateIn7_eq (a : Byte) (c : Bool) : rotateIn7 a c = BitVec.ofNat 8 (a.toNat / 2 + c.toNat * 128) := by
  apply BitVec.eq_of_toNat_eq
  have ha : a.toNat < 256 := a.isLt
  have hc : c.toNat ≤ 1 := Bool.toNat_le c
  have hlow : (a.extractLsb' 1 7).toNat < 2 ^ 7 := (a.extractLsb' 1 7).isLt
  rw [rotateIn7, BitVec.toNat_append, BitVec.toNat_ofBool, ← Nat.shiftLeft_add_eq_or_of_lt hlow, Nat.shiftLeft_eq,
    BitVec.extractLsb'_toNat, BitVec.toNat_ofNat, Nat.shiftRight_eq_div_pow]
  omega

/-- The bit RLC and RAL shift out. -/
theorem bit7_toNat (a : Byte) : (a.getLsbD 7).toNat = a.toNat / 128 := by
  have ha : a.toNat < 256 := a.isLt
  have hbit : (a.getLsbD 7).toNat = a.toNat / 2 ^ 7 % 2 := Nat.toNat_testBit a.toNat 7
  omega

/-- The bit RRC and RAR shift out. -/
theorem bit0_toNat (a : Byte) : (a.getLsbD 0).toNat = a.toNat % 2 := by
  have hbit : (a.getLsbD 0).toNat = a.toNat / 2 ^ 0 % 2 := Nat.toNat_testBit a.toNat 0
  rwa [pow_zero, Nat.div_one] at hbit

/-- Settles O49: each byte's row has no operand, and each rotate is one of the two shifts of A, taking in the bit
shifted out (RLC, RRC) or the old Carry (RAL, RAR), and writes bit 0 of FLAGS alone. -/
theorem rotates : Obligations.Rotates := by
  unfold Obligations.Rotates
  refine ⟨⟨runsOneByte_of_bare rfl, runsOneByte_of_bare rfl, runsOneByte_of_bare rfl, runsOneByte_of_bare rfl⟩,
    fun s => ⟨?rlc, ?rrc, ?ral, ?rar⟩⟩
  case rlc =>
    rw [← bit7_toNat, ← rotateIn0_eq]
    exact ⟨_, rfl, setCY_gives (s.a.getLsbD 7) s.f⟩
  case rrc =>
    rw [← bit0_toNat, ← rotateIn7_eq]
    exact ⟨_, rfl, setCY_gives (s.a.getLsbD 0) s.f⟩
  case ral =>
    rw [← rotateIn0_eq]
    exact ⟨_, rfl, setCY_gives (s.a.getLsbD 7) s.f⟩
  case rar =>
    rw [← rotateIn7_eq]
    exact ⟨_, rfl, setCY_gives (s.a.getLsbD 0) s.f⟩

end Sys2Proof.Machine

/-!
The stack instructions (R850 to R854): PUSH and POP move `sp` and make one word access, XTHL makes two at the same
address, and on sound storage each completes.
-/
namespace Sys2Proof.Machine

/-! ## The word at an address -/

@[simp] theorem State.hi_guestWord (s : State) (a : Addr) : hi (s.guestWord a) = s.guestByte (a + 1) := hi_join _ _

@[simp] theorem State.lo_guestWord (s : State) (a : Addr) : lo (s.guestWord a) = s.guestByte a := lo_join _ _

/-- An access moves nothing that decides where a word is stored. -/
theorem Touched.storedWord_eq {s t : State} {L : Nat → Fin lineSize → Byte} (h : Touched s t L) (a v : Addr) :
    t.storedWord a v = s.storedWord a v := by
  funext K
  rw [State.storedWord, State.storedWord, stored_congr h.bank h.cfg, stored_congr h.bank h.cfg]

/-! ## The instructions on sound storage -/

section
variable {s : State} (hs : s.Inv) (hw : s.Sound)
include hs hw

/-- PUSH stores the pair's word two below `sp`, where `sp` then stands (R850, R851, R420). -/
theorem push_completes (p : StackPair) : ∃ m, StoredWordAt s (s.sp - 2) (s.getStackPair p) m ∧
    exec (.push p) s = .next { s with sp := s.sp - 2, mem := m } :=
  Touched.outcome (push16_total hs hw (s.getStackPair p)) (s.extent (.push p))

/-- POP writes the word at `sp` to the pair, and `sp` then stands two above (R852, R853, R421). -/
theorem pop_completes (p : StackPair) : ∃ m, SameContent s.mem m ∧
    exec (.pop p) s = .next (State.setStackPair { s with sp := s.sp + 2, mem := m } p (s.guestWord s.sp)) :=
  Touched.finish (pop16_total hs hw) (s.extent (.pop p)) fun v u => .next (u.setStackPair p v)

/-- XTHL stores HL at `sp` and writes the word read there before to HL (R854). -/
theorem xthl_completes : ∃ m, StoredWordAt s s.sp s.hl m ∧
    exec .xthl s = .next (State.setHL { s with mem := m } (s.guestWord s.sp)) := by
  obtain ⟨t, hread, ht⟩ := readWord_total hs hw s.sp
  obtain ⟨u, hwrite, hu⟩ := writeWord_total ht.inv (ht.sound hw) s.sp s.hl
  have hsp : t.sp = s.sp := by rw [ht.rest]
  have hhl : t.hl = s.hl := by rw [ht.rest]; rfl
  rw [ht.storedWord_eq, ht.logical_eq] at hu
  refine ⟨u.mem, hu.logical, ?_⟩
  have hrest : u = { s with mem := u.mem } := (ht.trans hu).rest
  have hexec : exec .xthl s = .next (u.setHL (s.guestWord s.sp)) := by
    show execXthl s = _
    rw [execXthl, hread, Res.finish_ok, hsp, hhl, hwrite, Res.finish_ok]
  rw [hexec, ← hrest]

end

/-! ## The statements -/

/-- Settles O50: each form is the push or the pop of its pair, and the word popped is the two bytes at `sp`. -/
theorem pushPop : Obligations.PushPop := by
  unfold Obligations.PushPop
  intro s hs hw
  rw [← s.hi_guestWord s.sp, ← s.lo_guestWord s.sp]
  exact ⟨push_completes hs hw .bc, push_completes hs hw .de, push_completes hs hw .hl, push_completes hs hw .psw,
    pop_completes hs hw .bc, pop_completes hs hw .de, pop_completes hs hw .hl, pop_completes hs hw .psw⟩

/-- Settles O52: the word written to HL is the two bytes at `sp` before the exchange. -/
theorem exchangeStackTop : Obligations.ExchangeStackTop := by
  unfold Obligations.ExchangeStackTop
  intro s hs hw
  rw [← s.hi_guestWord s.sp, ← s.lo_guestWord s.sp]
  exact xthl_completes hs hw

end Sys2Proof.Machine

/-!
Jumps, calls, returns and restarts (R900 to R930): a form whose condition holds is the unconditional operation, any
other leaves the state as it is, and on sound storage the operation's one word access completes.
-/
namespace Sys2Proof.Machine

/-! ## Jumps -/

/-- A jump on a FLAGS bit that has to be set (JZ, JC, JPE, JM). -/
theorem jumpIf_set {s : State} {k : Cond} {b : Bool} (h : k.holds s.f = b) (a : Addr) :
    s.jumpIf k a = .next { s with pc := if b then a else s.pc } := by
  cases b with
  | true => exact jumpIf_taken h a
  | false => exact jumpIf_not_taken h a

/-- A jump on a FLAGS bit that has to be clear (JNZ, JNC, JPO, JP). -/
theorem jumpIf_clear {s : State} {k : Cond} {b : Bool} (h : k.holds s.f = !b) (a : Addr) :
    s.jumpIf k a = .next { s with pc := if b then s.pc else a } := by
  cases b with
  | true => exact jumpIf_not_taken h a
  | false => exact jumpIf_taken h a

/-- Settles O53: each form is `jumpIf` on its condition, which is a FLAGS bit or its complement. -/
theorem jumps : Obligations.Jumps := by
  unfold Obligations.Jumps
  intro s a
  exact ⟨rfl, jumpIf_clear (k := .nz) rfl a, jumpIf_set (k := .z) rfl a, jumpIf_clear (k := .nc) rfl a,
    jumpIf_set (k := .c) rfl a, jumpIf_clear (k := .po) rfl a, jumpIf_set (k := .pe) rfl a,
    jumpIf_clear (k := .p) rfl a, jumpIf_set (k := .m) rfl a⟩

/-! ## Calls and returns on sound storage -/

section
variable {s : State} (hs : s.Inv) (hw : s.Sound)
include hs hw

/-- A call stores `pc` two below `sp`, where `sp` then stands, whatever its target (R910, R930, R420). -/
theorem callTo_completes : ∃ m, StoredWordAt s (s.sp - 2) s.pc m ∧
    ∀ a, s.callTo a = .next { s with pc := a, sp := s.sp - 2, mem := m } := by
  obtain ⟨t, hcall, ht⟩ := callTo_total hs hw
  exact ⟨t.mem, ht.logical, fun a => by rw [hcall, ht.rest]⟩

/-- A return goes to the word at `sp`, and `sp` then stands two above (R920, R421). -/
theorem ret_completes : ∃ m, SameContent s.mem m ∧
    s.ret = .next { s with pc := s.guestWord s.sp, sp := s.sp + 2, mem := m } :=
  Touched.finish (pop16_total hs hw) s.retExtent fun v u => u.jump v

end

/-- The target of RST is eight times its number (R930). -/
theorem restartTarget_eq (n : BitVec 3) : n.setWidth 16 * 8 = BitVec.ofNat 16 (n.toNat * 8) := by
  bv_omega

/-! ## The statements -/

/-- Settles O54: each conditional form is `callIf` on its condition, which makes the one call or leaves the state. -/
theorem callsAndRestarts : Obligations.CallsAndRestarts := by
  unfold Obligations.CallsAndRestarts
  refine fun s => ⟨fun hs hw => ?taken, fun a => ?notTaken⟩
  case taken =>
    obtain ⟨m, hm, hcall⟩ := callTo_completes hs hw
    have taken (k : Cond) (a : Addr) (h : k.holds s.f = true) :
        s.callIf k a = .next { s with pc := a, sp := s.sp - 2, mem := m } := (callIf_taken h a).trans (hcall a)
    exact ⟨m, hm, hcall, fun n => restartTarget_eq n ▸ hcall _,
      fun a h => taken .nz a (congrArg not h), taken .z, fun a h => taken .nc a (congrArg not h), taken .c,
      fun a h => taken .po a (congrArg not h), taken .pe, fun a h => taken .p a (congrArg not h), taken .m⟩
  case notTaken =>
    have notTaken (k : Cond) (h : k.holds s.f = false) : s.callIf k a = .next s := callIf_not_taken h a
    exact ⟨fun h => notTaken .nz (congrArg not h), notTaken .z, fun h => notTaken .nc (congrArg not h), notTaken .c,
      fun h => notTaken .po (congrArg not h), notTaken .pe, fun h => notTaken .p (congrArg not h), notTaken .m⟩

/-- Settles O55: each conditional form is `retIf` on its condition, which makes the one return or leaves the state. -/
theorem returns : Obligations.Returns := by
  unfold Obligations.Returns
  refine fun s => ⟨fun hs hw => ?taken, ?notTaken⟩
  case taken =>
    obtain ⟨m, hm, hret⟩ := ret_completes hs hw
    have taken (k : Cond) (h : k.holds s.f = true) :
        s.retIf k = .next { s with pc := s.guestWord s.sp, sp := s.sp + 2, mem := m } := (retIf_taken h).trans hret
    refine ⟨m, hm, ?_⟩
    simp only [List.forall_mem_cons]
    exact ⟨fun _ => hret, taken .nz, taken .z, taken .nc, taken .c, taken .po, taken .pe, taken .p, taken .m, nofun⟩
  case notTaken =>
    have notTaken (k : Cond) (h : k.holds s.f = false) : s.retIf k = .next s := retIf_not_taken h
    exact ⟨fun h => notTaken .nz (congrArg not h), notTaken .z, fun h => notTaken .nc (congrArg not h), notTaken .c,
      fun h => notTaken .po (congrArg not h), notTaken .pe, fun h => notTaken .p (congrArg not h), notTaken .m⟩

/-- Settles O56: the word at `sp` after the call is the `pc` it pushed, and the two moves of `sp` cancel. -/
theorem callThenReturn : Obligations.CallThenReturn := by
  unfold Obligations.CallThenReturn
  intro s a hs hw hlo hhi
  obtain ⟨t, hcall, ht⟩ := callTo_total hs hw
  have hatTarget : State.Inv { t with pc := a } := ht.inv.congr rfl rfl rfl ht.inv.signals
  obtain ⟨m, -, hret⟩ := ret_completes hatTarget ((ht.sound hw).congr rfl rfl)
  have htsp : t.sp = s.sp - 2 := by rw [ht.rest]
  have hword : State.guestWord { t with pc := a } t.sp = s.pc := by
    rw [htsp]
    have hnext : s.sp - 2 + 1 = s.sp - 1 := by bv_omega
    exact guestWord_stored ht.bank ht.cfg ht.logical hlo (hnext ▸ hhi)
  refine ⟨{ t with pc := a }, m, hcall a, ?_⟩
  calc exec .ret { t with pc := a } = .next { t with pc := s.pc, sp := s.sp, mem := m } := by
        rw [← hword, ← BitVec.sub_add_cancel s.sp 2, ← htsp]; exact hret
    _ = _ := by rw [ht.rest]

end Sys2Proof.Machine

/-!
Ports and the system instructions (R1000 to R1006): the bank-select device at each port, and an undocumented opcode
under each policy.
-/
namespace Sys2Proof.Machine

/-! ## The bank-select device (R225, R1131) -/

theorem selectBank_of_lt {s : State} {v : Byte} (h : v.toNat < s.cfg.banks) :
    s.selectBank v = { s with bank := s.bank.set s.mmuBlock.toNat v.toNat s.mmuBlock.isLt } := if_pos h

theorem selectBank_of_le {s : State} {v : Byte} (h : s.cfg.banks ≤ v.toNat) : s.selectBank v = s :=
  if_neg (Nat.not_lt.2 h)

theorem bankSelect_other {s : State} {p : Byte} (hblock : p ≠ s.cfg.portMmuBlock) (hbank : p ≠ s.cfg.portMmuBank)
    (v : Byte) : s.bankSelect p v = s := by
  rw [State.bankSelect, if_neg hbank, if_neg hblock]

theorem bankSelect_block {s : State} {p : Byte} (hblock : p = s.cfg.portMmuBlock) (hbank : p ≠ s.cfg.portMmuBank)
    (v : Byte) : s.bankSelect p v = s.selectBlock v := by
  rw [State.bankSelect, if_neg hbank, if_pos hblock]

theorem bankSelect_bank {s : State} {p : Byte} (hblock : p ≠ s.cfg.portMmuBlock) (hbank : p = s.cfg.portMmuBank)
    (v : Byte) : s.bankSelect p v = s.selectBank v := by
  rw [State.bankSelect, if_pos hbank, if_neg hblock]

/-- OUT is the device's answer and the host's event (R1001). -/
theorem exec_outp (p : Byte) (s : State) :
    exec (.outp p) s = .next { s.bankSelect p s.a with ports := s.ports ++ [.sent p s.a] } := rfl

theorem low4_eq (v : Byte) : v.extractLsb' 0 4 = BitVec.ofNat 4 (v.toNat % 16) := by
  apply BitVec.eq_of_toNat_eq
  rw [BitVec.extractLsb'_toNat, BitVec.toNat_ofNat, Nat.shiftRight_zero, Nat.mod_mod]

/-- A Bank Map with one entry written. -/
theorem bank_set_getElem (bank : Vector Nat nblk) (i k : BitVec 4) (b : Nat) :
    (bank.set i.toNat b i.isLt)[k.toNat]'k.isLt = if k = i then b else bank[k.toNat]'k.isLt := by
  rw [Vector.getElem_set]
  simp only [← BitVec.toNat_inj, eq_comm]

/-- Settles O57: IN by its definition, and OUT by what the bank-select device makes of the port and the byte. -/
theorem portInputOutput : Obligations.PortInputOutput := by
  unfold Obligations.PortInputOutput
  refine fun s p => ⟨rfl, fun hblock hbank => ?other, fun hblock hbank => ?block, fun hblock hbank hlt => ?bank,
    fun hblock hbank hle => ?noBank⟩
  case other => rw [exec_outp, bankSelect_other hblock hbank]
  case block => rw [exec_outp, bankSelect_block hblock hbank, ← low4_eq]; rfl
  case bank =>
    refine ⟨s.bank.set s.mmuBlock.toNat s.a.toNat s.mmuBlock.isLt, ?_, fun k => bank_set_getElem _ _ k _⟩
    rw [exec_outp, bankSelect_bank hblock hbank, selectBank_of_lt hlt]
  case noBank => rw [exec_outp, bankSelect_bank hblock hbank, selectBank_of_le hle]

/-! ## EI, DI, HLT and NOP (R1002 to R1005) -/

/-- Settles O58: each byte's row has no operand, and each meaning is its one write. -/
theorem interruptFlagHaltNop : Obligations.InterruptFlagHaltNop := by
  unfold Obligations.InterruptFlagHaltNop
  exact ⟨⟨runsOneByte_of_bare rfl, runsOneByte_of_bare rfl, runsOneByte_of_bare rfl, runsOneByte_of_bare rfl⟩,
    fun s => ⟨rfl, rfl, rfl, rfl⟩⟩

/-! ## Undocumented opcodes (R1006) -/

theorem exec_undoc_nop {s : State} (h : s.cfg.undocPolicy = .nop) (op : Byte) : exec (.undoc op) s = .next s := by
  simp only [exec, execUndoc, h]

theorem exec_undoc_silicon {s : State} (h : s.cfg.undocPolicy = .siliconAlias) (op : Byte) :
    exec (.undoc op) s = s.undocAsAliased op := by
  simp only [exec, execUndoc, h]

/-- The opcodes the silicon runs as NOP. -/
theorem undocAsAliased_nop (s : State) :
    ∀ op ∈ ([0x08, 0x10, 0x18, 0x20, 0x28, 0x30, 0x38] : List Byte), s.undocAsAliased op = .next s := by
  simp only [List.forall_mem_cons]
  exact ⟨rfl, rfl, rfl, rfl, rfl, rfl, rfl, nofun⟩

/-- The opcodes the silicon runs as CALL. -/
theorem undocAsAliased_call (s : State) : ∀ op ∈ ([0xDD, 0xED, 0xFD] : List Byte),
    s.undocAsAliased op = s.fetch16.finish (s.undocExtent op) fun a t => t.callTo a := by
  simp only [List.forall_mem_cons]
  exact ⟨rfl, rfl, rfl, nofun⟩

section
variable {s : State} (hs : s.Inv) (hw : s.Sound)
include hs hw

/-- The opcode run as JMP goes to the word at `pc` (R900). -/
theorem undocAsAliased_jmp_completes : ∃ m, SameContent s.mem m ∧
    s.undocAsAliased 0xCB = .next { s with pc := s.guestWord s.pc, mem := m } :=
  Touched.finish (fetch16_total hs hw) (s.undocExtent 0xCB) fun a t => t.jump a

/-- An opcode run as CALL pushes the address past the word at `pc`, and goes to that word (R910). -/
theorem undocAsAliased_call_completes {op : Byte} (hop : op ∈ ([0xDD, 0xED, 0xFD] : List Byte)) :
    ∃ m, StoredWordAt s (s.sp - 2) (s.pc + 2) m ∧
      s.undocAsAliased op = .next { s with pc := s.guestWord s.pc, sp := s.sp - 2, mem := m } := by
  obtain ⟨t, hfetch, ht⟩ := fetch16_total hs hw
  obtain ⟨u, hcall, hu⟩ := callTo_total ht.inv (ht.sound hw)
  have hpc : t.pc = s.pc + 2 := by rw [ht.rest]
  have hsp : t.sp = s.sp := by rw [ht.rest]
  rw [ht.storedWord_eq, ht.logical_eq, hpc, hsp] at hu
  refine ⟨u.mem, hu.logical, ?_⟩
  rw [undocAsAliased_call s op hop, hfetch, Res.finish_ok, hcall, hu.rest, ht.rest]

end

/-- Settles O59: the fault, no operation, or what the silicon runs, which on sound storage completes. -/
theorem undocumentedOpcode : Obligations.UndocumentedOpcode := by
  unfold Obligations.UndocumentedOpcode
  refine fun s op _ => ⟨fun h => exec_undoc_fault h op, fun h => exec_undoc_nop h op, fun h => ?silicon⟩
  rw [exec_undoc_silicon h]
  refine ⟨undocAsAliased_nop s op, ?ret, fun hs hw => ⟨?jmp, undocAsAliased_call_completes hs hw⟩⟩
  case ret =>
    rintro rfl
    rfl
  case jmp =>
    rintro rfl
    exact undocAsAliased_jmp_completes hs hw

end Sys2Proof.Machine

/-!
The illegal-opcode fault of a step (R1101): the opcode byte decides it, right after its fetch.
-/
namespace Sys2Proof.Machine

/-- The rows of the 12 undocumented bytes (R330): no operand is fetched. -/
theorem decodeOp_of_mem_undocOpcodes : ∀ op ∈ undocOpcodes, decodeOp op = .bare (.undoc op) := by
  simp only [undocOpcodes, List.forall_mem_cons]
  exact ⟨rfl, rfl, rfl, rfl, rfl, rfl, rfl, rfl, rfl, rfl, rfl, rfl, nofun⟩

/-- A fetch that answers has read an opcode, and gives that opcode's row with some operand (R401). -/
theorem fetchInstr_opcode {s u : State} {i : Instr} (h : s.fetchInstr = .ok i u) :
    ∃ op t v, s.fetch8 = .ok op t ∧ (decodeOp op).instr v = i := by
  obtain ⟨op, t, hop, hrow⟩ := Res.andThen_eq_ok.1 h
  cases hdecode : decodeOp op with
  | bare j =>
    rw [hdecode] at hrow
    cases hrow
    exact ⟨op, u, 0, hop, by rw [hdecode]; rfl⟩
  | imm8 k =>
    rw [hdecode] at hrow
    obtain ⟨d, _, -, ⟨⟩⟩ := Res.andThen_eq_ok.1 hrow
    exact ⟨op, t, join 0 d, hop, Row.instr_join_of_imm8 hdecode⟩
  | imm16 k =>
    rw [hdecode] at hrow
    obtain ⟨v, _, -, ⟨⟩⟩ := Res.andThen_eq_ok.1 hrow
    exact ⟨op, t, v, hop, by rw [hdecode]; rfl⟩

/-- An undocumented byte is fetched as the instruction at once (R1101). -/
theorem fetchInstr_of_undoc {s t : State} {op : Byte} (h : s.fetch8 = .ok op t) (hop : op ∈ undocOpcodes) :
    s.fetchInstr = .ok (.undoc op) t := by
  simp only [State.fetchInstr, h, Res.andThen_ok, decodeOp_of_mem_undocOpcodes op hop]

/-- An undocumented instruction is fetched from one of the 12 bytes only (R330). -/
theorem fetch8_of_fetchInstr_undoc {s u : State} {v : Byte} (h : s.fetchInstr = .ok (.undoc v) u) :
    ∃ op t, s.fetch8 = .ok op t ∧ op ∈ undocOpcodes := by
  obtain ⟨op, t, d, hop, hrow⟩ := fetchInstr_opcode h
  obtain ⟨hwf, hencode⟩ := decodeOp_encodes op d
  rw [hrow] at hwf hencode
  obtain ⟨rfl, -⟩ := List.cons.inj hencode
  exact ⟨v, t, hop, List.contains_iff_mem.1 hwf⟩

/-- A step that ends in the illegal-opcode fault fetched an undocumented instruction, under the fault policy: no access
raises that fault. -/
theorem step_illegal_cases {s t : State} (h : step s = .fault (.illegalOpcode t)) :
    s.cfg.undocPolicy = .fault ∧ ∃ op u, s.fetchInstr = .ok (.undoc op) u := by
  rw [step_eq_finish (step_running_of_fault h)] at h
  rcases (fetchInstr_fails s).finish s.fetchExtent exec with ⟨_, hfails, -⟩ | ⟨i, u, hfetch, hexec⟩
  · cases hfails.symm.trans h
  · obtain ⟨hfault, -, -⟩ := faultsAreTheTwoReasons i u
    rcases hfault _ (hexec.symm.trans h) with ⟨_, ⟨⟩, -⟩ | ⟨_, -, hpolicy, op, rfl⟩
    have hcfg : u.cfg = s.cfg := congrArg ControlState.cfg ((fetchInstr_from .refl).ok _ u hfetch).control
    exact ⟨hcfg ▸ hpolicy, op, u, hfetch⟩

/-- Settles O31: an undocumented byte is fetched whole and faults in the state its fetch left, and the fault comes from
nowhere else. -/
theorem illegalOpcodeFault : Obligations.IllegalOpcodeFault := by
  unfold Obligations.IllegalOpcodeFault
  refine fun s => ⟨fun op t hstop hfetch hop hpolicy => ?raised, fun t h => ?only⟩
  case raised =>
    have hcfg : t.cfg = s.cfg := by rw [fetch8_rest hfetch]
    rw [step_of_fetch hstop (fetchInstr_of_undoc hfetch hop)]
    exact exec_undoc_fault (hcfg ▸ hpolicy) op
  case only =>
    obtain ⟨hpolicy, v, u, hfetch⟩ := step_illegal_cases h
    exact ⟨hpolicy, fetch8_of_fetchInstr_undoc hfetch⟩

end Sys2Proof.Machine

/-!
The launch and the reset state (R1200, R1201): what each configuration gives, and that it meets the invariant.
-/
namespace Sys2Proof.Machine

/-! ## The launch -/

theorem launch_of_valid {x : LaunchInput} (h : x.cfg.valid = true) : launch x = .next (launchState x) := if_pos h

theorem launch_of_invalid {x : LaunchInput} (h : x.cfg.valid = false) : launch x = .refused .badConfiguration :=
  if_neg (by rw [h]; decide)

theorem launch_eq_next {x : LaunchInput} {s : State} (h : launch x = .next s) :
    x.cfg.valid = true ∧ s = launchState x := by
  cases hvalid : x.cfg.valid with
  | true => exact ⟨rfl, by cases (launch_of_valid hvalid).symm.trans h; rfl⟩
  | false => cases (launch_of_invalid hvalid).symm.trans h

/-- A valid configuration has a cache line and a bank (R12). -/
theorem nLines_banks_pos {k : Config} (h : k.valid = true) : 0 < k.nLines ∧ 0 < k.banks := by
  simp only [Config.valid, Bool.and_eq_true, decide_eq_true_eq] at h
  obtain ⟨hpos, -⟩ := h
  exact hpos

/-! ## The reset state -/

@[simp] theorem launchState_lines_length (x : LaunchInput) : (launchState x).mem.lines.length = x.cfg.nLines := by
  rw [launchState, List.length_map, List.length_range]

/-- Every line of the reset state is empty and clean (R1201). -/
theorem launchState_lines_empty {x : LaunchInput} : ∀ y ∈ (launchState x).mem.lines, y.tag = none ∧ y.dirty = false :=
  List.forall_mem_map.2 fun _ _ => ⟨rfl, rfl⟩

theorem launchState_bank (x : LaunchInput) (j : BitVec 4) : (launchState x).bank[j.toNat]'j.isLt = 0 :=
  Vector.getElem_replicate _

/-- Under `RESET_REGS = zero` no register keeps a draw (R104). -/
theorem launchState_getReg_zero {x : LaunchInput} (h : x.cfg.resetRegs = .zero) (r : Reg) :
    (launchState x).getReg r = 0 := by
  cases r <;> simp only [launchState, State.getReg, resetValue, h] <;> rfl

/-- `State.reset` is the launch of the standard configuration (assumption logs 2 to 5). -/
theorem launch_standardLaunch : launch standardLaunch = .next State.reset := rfl

/-- Settles O17: the clauses of the reset state, one for each field. -/
theorem launchGivesResetState : Obligations.LaunchGivesResetState := by
  unfold Obligations.LaunchGivesResetState
  refine ⟨fun x => launch_of_invalid, fun x hvalid => ?valid, launch_standardLaunch⟩
  refine ⟨launchState x, launch_of_valid hvalid, rfl, rfl, rfl, rfl, launchState_bank x, rfl,
    launchState_lines_length x, launchState_lines_empty, rfl, rfl, rfl, fun h => ?zero, fun h => ?arbitrary⟩
  case zero =>
    refine ⟨launchState_getReg_zero h, ?_, ?_⟩ <;> simp only [launchState, resetValue, h] <;> rfl
  case arbitrary => simp only [launchState, resetValue, h, and_self]

/-! ## The invariant -/

/-- No line of the reset state holds a block, so the tags are distinct, in range and clean for want of one. -/
theorem launchState_inv {x : LaunchInput} (h : x.cfg.valid = true) : (launchState x).Inv := by
  obtain ⟨hlines, hbanks⟩ := nLines_banks_pos h
  have hnone : ∀ y ∈ (launchState x).mem.lines, ∀ n, y.tag ≠ some n := by
    intro y hy n hn
    obtain ⟨htag, -⟩ := launchState_lines_empty y hy
    cases htag.symm.trans hn
  constructor
  case mem =>
    constructor
    case imageWf => exact Memory.wf_ofCells x.image
    case nonempty => exact List.ne_nil_of_length_pos (launchState_lines_length x ▸ hlines)
    case distinct =>
      have htags : (launchState x).mem.lines.filterMap (fun y => y.tag) = [] :=
        List.filterMap_eq_nil_iff.2 fun y hy => (launchState_lines_empty y hy).1
      rw [htags]
      exact List.nodup_nil
    case clean => exact fun y hy n hn => absurd hn (hnone y hy n)
  case lineCount => exact launchState_lines_length x
  case tags => exact fun y hy n hn => absurd hn (hnone y hy n)
  case config => exact h
  case banks => exact fun j => launchState_bank x j ▸ hbanks
  case signals => exact nofun

/-- Settles O19: a launch that is not refused gives the reset state of a valid configuration. -/
theorem launchEstablishesInvariant : Obligations.LaunchEstablishesInvariant := by
  unfold Obligations.LaunchEstablishesInvariant
  intro x s h
  obtain ⟨hvalid, rfl⟩ := launch_eq_next h
  exact launchState_inv hvalid

/-- Every block of an image that lists nothing is zero bytes with their checksum, which is zero (R241). -/
theorem sound_blockOf_nil (n : Nat) : (blockOf [] n).sound = true := by
  have hblock : blockOf [] n = blockOf [] 0 := rfl
  rw [hblock]
  decide

/-- Settles O18: `State.reset` is a launch, and its image lists nothing. -/
theorem resetMeetsInvariant : Obligations.ResetMeetsInvariant := by
  unfold Obligations.ResetMeetsInvariant
  exact ⟨launchEstablishesInvariant standardLaunch State.reset launch_standardLaunch, fun n _ => sound_blockOf_nil n⟩

end Sys2Proof.Machine
